-- ==== Sys2Proof/Word.lean ====
section
/-! DEFINITION. The word types: bytes, 32-bit bus words, columns and 4x4 byte matrices (00_scope.md R6, R8, R9). -/

namespace Sys2Proof

/-- A byte: an 8-bit unsigned value, doubling as an element of GF(2^8) (R62). -/
abbrev Byte := BitVec 8

/-- One 32-bit bus word: the data of a host transaction, or a command word (R8, R55). -/
abbrev Word32 := BitVec 32

/-- A word of the source: four bytes, one column of a matrix; `rI` is the byte in row I (R9). -/
structure Column where
  r0 : Byte
  r1 : Byte
  r2 : Byte
  r3 : Byte
  deriving DecidableEq, Repr

/-- A 4x4 byte matrix, column by column: `cI` is column I, the source's word I (R9). -/
structure ByteMatrix where
  c0 : Column
  c1 : Column
  c2 : Column
  c3 : Column
  deriving DecidableEq, Repr

/-- The column of four zero bytes. -/
def Column.zero : Column := ⟨0, 0, 0, 0⟩

/-- The matrix of sixteen zero bytes. -/
def ByteMatrix.zero : ByteMatrix := ⟨Column.zero, Column.zero, Column.zero, Column.zero⟩

end Sys2Proof
end

