-- ==== Sys2Proof/Syntax.lean ====
section
/-! DEFINITION. The 14 commands of the block, one constructor per row of spec/opcode_table.json (30_encoding.md R57). -/

namespace Sys2Proof

/-- A command. Every operand but RIDX is a fixed register (R56), so only ADDROUNDKEY carries one. -/
inductive Instr where
  | gfmul
  | gfinv
  | sbox
  | invSbox
  | subBytes
  | invSubBytes
  | shiftRows
  | invShiftRows
  | mixColumns
  | invMixColumns
  /-- `ridx`: the index r of the round key RK[r], command bits 11:8 (R56). -/
  | addRoundKey (ridx : BitVec 4)
  | keyExpand
  | encrypt
  | decrypt
  deriving DecidableEq, Repr

end Sys2Proof
end

