-- ==== Sys2Proof/WellFormed.lean ====
section
/-! DEFINITION. Which commands are well formed: the operand ranges of 30_encoding.md R56 and R58. -/

namespace Sys2Proof

/-- The only operand check of R58: the round-key index of ADDROUNDKEY is 0..10. -/
def Instr.wellFormed : Instr → Bool
  | .addRoundKey ridx => decide (ridx.toNat ≤ 10)
  | .gfmul => true
  | .gfinv => true
  | .sbox => true
  | .invSbox => true
  | .subBytes => true
  | .invSubBytes => true
  | .shiftRows => true
  | .invShiftRows => true
  | .mixColumns => true
  | .invMixColumns => true
  | .keyExpand => true
  | .encrypt => true
  | .decrypt => true

/-- `WellFormed i`: command `i` has a legal word (R58). -/
abbrev WellFormed (i : Instr) : Prop := i.wellFormed = true

end Sys2Proof
end

