-- ==== Sys2Proof/Decode.lean ====
section
/-! DEFINITION. The command word: its fields, the decoder (total on all 32-bit words, rejecting by name), and the
encoder written from the same table (30_encoding.md R55 to R60). -/

namespace Sys2Proof

/-- OPCODE = v[7:0] (R55). -/
def opcodeField (v : Word32) : Byte := v.extractLsb' 0 8

/-- RIDX = v[11:8] (R55). -/
def ridxField (v : Word32) : BitVec 4 := v.extractLsb' 8 4

/-- RSVD = v[31:12] (R55). -/
def rsvdField (v : Word32) : BitVec 20 := v.extractLsb' 12 20

/-- Why a word is illegal (R59). Only the fact is architectural (R124); the names are the model's. -/
inductive Reject where
  /-- RSVD is not zero. -/
  | reservedBits
  /-- OPCODE is none of the 14 of R57. -/
  | unassignedOpcode
  /-- RIDX is not zero and the opcode is not ADDROUNDKEY's. -/
  | ridxNotZero
  /-- ADDROUNDKEY with RIDX 11..15. -/
  | ridxOutOfRange
  deriving DecidableEq, Repr

/-- The opcode map of R57; `ridx` becomes the operand of ADDROUNDKEY, unchecked. -/
def opcodeMap (op : Byte) (ridx : BitVec 4) : Option Instr :=
  match op.toNat with
  | 0x01 => some .gfmul
  | 0x02 => some .gfinv
  | 0x03 => some .sbox
  | 0x04 => some .invSbox
  | 0x10 => some .subBytes
  | 0x11 => some .invSubBytes
  | 0x12 => some .shiftRows
  | 0x13 => some .invShiftRows
  | 0x14 => some .mixColumns
  | 0x15 => some .invMixColumns
  | 0x16 => some (.addRoundKey ridx)
  | 0x20 => some .keyExpand
  | 0x30 => some .encrypt
  | 0x31 => some .decrypt
  | _ => none

/-- The RIDX field of a command: zero but for ADDROUNDKEY (R57). -/
def ridxOf : Instr → BitVec 4
  | .addRoundKey ridx => ridx
  | .gfmul => 0
  | .gfinv => 0
  | .sbox => 0
  | .invSbox => 0
  | .subBytes => 0
  | .invSubBytes => 0
  | .shiftRows => 0
  | .invShiftRows => 0
  | .mixColumns => 0
  | .invMixColumns => 0
  | .keyExpand => 0
  | .encrypt => 0
  | .decrypt => 0

/-- The decoder: R57's table under R58's legality, total on every 32-bit word. RIDX must be the one the command's word
has: any index for ADDROUNDKEY, where `wellFormed` then bounds it, and 0 for the others. -/
def decodeWord (v : Word32) : Except Reject Instr :=
  if rsvdField v ≠ 0 then .error .reservedBits
  else
    match opcodeMap (opcodeField v) (ridxField v) with
    | none => .error .unassignedOpcode
    | some i =>
      if ridxField v ≠ ridxOf i then .error .ridxNotZero
      else if i.wellFormed then .ok i
      else .error .ridxOutOfRange

/-- The 14 assigned opcodes, in the order of R57. -/
def assignedOpcodes : List Byte :=
  [0x01, 0x02, 0x03, 0x04, 0x10, 0x11, 0x12, 0x13, 0x14, 0x15, 0x16, 0x20, 0x30, 0x31]

/-- `legal(v)` as R58 writes it. -/
def legal (v : Word32) : Bool :=
  rsvdField v == 0 && assignedOpcodes.contains (opcodeField v)
    && (if opcodeField v = 0x16 then decide ((ridxField v).toNat ≤ 10) else ridxField v == 0)

/-- The OPCODE of a command (R57). -/
def opcodeOf : Instr → Byte
  | .gfmul => 0x01
  | .gfinv => 0x02
  | .sbox => 0x03
  | .invSbox => 0x04
  | .subBytes => 0x10
  | .invSubBytes => 0x11
  | .shiftRows => 0x12
  | .invShiftRows => 0x13
  | .mixColumns => 0x14
  | .invMixColumns => 0x15
  | .addRoundKey _ => 0x16
  | .keyExpand => 0x20
  | .encrypt => 0x30
  | .decrypt => 0x31

/-- The command word `{RSVD = 0, RIDX, OPCODE}` (R55, R57). -/
def encode (i : Instr) : Word32 := (0 : BitVec 20) ++ ridxOf i ++ opcodeOf i

/-- The command that the opcode table's bits `w` stand for: a command is one 32-bit word (R60), bit 0 its least
significant bit, so the table's numbering is the word's own; bits above `nbits` are zero. -/
def decodeTableWord (nbits w : Nat) : Option Instr :=
  match decodeWord (BitVec.ofNat 32 (w % 2 ^ nbits)) with
  | .ok i => some i
  | .error _ => none

end Sys2Proof
end

