-- ==== Sys2Proof/Config.lean ====
section
/-! DEFINITION. What an implementation or platform fixes, and the free values (00_scope.md R7; 20_memory.md R35, R47).
Both are opaque: nothing in Lean can evaluate them. -/

namespace Sys2Proof

/-- The unspecified 32-bit value of the `n`-th read of GF_RESULT, a STATE word or an RK word while BUSY = 1:
`draw32()`, "a free draw under no law, fresh at each read" (R47). A free value, DESIGN CHOICE, log 2. -/
opaque Config.draw32 : Nat → Word32

/-- The number of the 4 KiB page at which the register window lies: the OPEN parameter `BASE` divided by 4096,
so that every choice of it is 4 KiB aligned (R7, R35). DESIGN CHOICE, log 9. -/
opaque Config.basePage : Nat

/-- `BASE`: the host address of offset 0x000 of the register window (R35). -/
def Config.base : Nat := 4096 * Config.basePage

end Sys2Proof
end

