-- ==== Sys2Proof/Machine/State.lean ====
section
/-! DEFINITION. The state of the block and of its environment, as plain data: every register of 10_state.md, the reset
line, the moves the environment has still to make, and the bus response. Also the faults and refusals of a step. -/

namespace Sys2Proof.Machine

/-- STATUS.PHASE, one name per 3-bit code (R27). Codes 5, 6 and 7 are "never entered"; they are kept so that an FSM
state outside R27's table can be written down (R34). -/
inductive Phase where
  | idle
  | exec
  | keyExp
  | enc
  | dec
  | unused5
  | unused6
  | unused7
  deriving DecidableEq, Repr

/-- STATUS (R22), field by field. The reserved bits have no storage: they read as zero and ignore writes (R40). -/
structure Status where
  /-- bit 0: a command is in progress (R23) -/
  busy : Bool
  /-- bit 1: a command has completed (R24) -/
  done : Bool
  /-- bit 2: RK holds the schedule of KEY (R25) -/
  ksValid : Bool
  /-- bit 3, sticky (R26, R124) -/
  errIllegal : Bool
  /-- bit 4, sticky (R26, R125) -/
  errNokey : Bool
  /-- bit 5, sticky (R26, R126) -/
  errBusywr : Bool
  /-- bits 11:8: FSM round index (R27) -/
  round : BitVec 4
  /-- bits 14:12: FSM phase (R27) -/
  phase : Phase
  /-- bits 23:16: opcode of the command in progress, or of the last accepted one (R28) -/
  op : Byte
  deriving DecidableEq, Repr

/-- The size of a host transaction: 1, 2 or 4 bytes (R39). -/
inductive AccessSize where
  | bytes1
  | bytes2
  | bytes4
  deriving DecidableEq, Repr

/-- A host transaction: read or write, 12-bit offset in the window, size, and the data of a write (R35, R39). -/
inductive Transaction where
  | read (off : BitVec 12) (size : AccessSize)
  | write (off : BitVec 12) (size : AccessSize) (data : Word32)
  deriving DecidableEq, Repr

/-- Who moves: "at any moment either agent may act next" (R13). `rstAssert` and `rstRelease` are the edges of the
reset input (R141). -/
inductive Move where
  /-- the engine's turn: its step, if it has one (R109) -/
  | engine
  /-- the host issues a transaction -/
  | host (t : Transaction)
  | rstAssert
  | rstRelease
  deriving DecidableEq, Repr

/-- What the bus gave back for the latest host transaction: OK or bus error (R39, R41, R127). -/
inductive BusResponse where
  /-- no transaction yet -/
  | none
  /-- a performed read, with its data -/
  | data (v : Word32)
  /-- a performed write -/
  | written
  /-- a bus error, with its read data -/
  | error (v : Word32)
  deriving DecidableEq, Repr

/-- The block and its environment. `schedule`, `bus` and `draws` are the model's own fields (logs 1, 4 and 2);
all others are the spec's (R14 to R29, R141). -/
structure State where
  /-- GF_A (R14) -/
  gfA : Byte
  /-- GF_B (R15) -/
  gfB : Byte
  /-- GF_RESULT (R16) -/
  gfResult : Byte
  /-- STATE (R17) -/
  state : ByteMatrix
  /-- KEY (R18) -/
  key : ByteMatrix
  /-- RK[0..10] (R19) -/
  rk : Vector ByteMatrix 11
  /-- STATUS (R22) -/
  status : Status
  /-- IRQEN[1:0]: bit 0 DONE_IE, bit 1 ERR_IE (R29) -/
  irqen : BitVec 2
  /-- the reset input `rst`; true while asserted (R141) -/
  rst : Bool
  /-- the moves still to come, the next one first; empty: the engine goes on while it has a step (log 1) -/
  schedule : List Move
  /-- the response to the latest host transaction (log 4) -/
  bus : BusResponse
  /-- how many unspecified read values have been drawn (R47, log 2) -/
  draws : Nat
  deriving DecidableEq, Repr

/-- Why a step stops. Both are the fatal "internal inconsistency" of R34 and R133; no state reachable from reset
raises either (Obligations.NoStepFromTheInvariantFaults). -/
inductive Fault where
  /-- The FSM pair is outside the table of R27 (R34, R109, R133). Raised by `advance` before any move, and by an
  engine step at such a pair. Safe: it is the treatment the spec names. -/
  | illegalFsmState
  /-- STATUS.OP and STATUS.PHASE do not belong together while BUSY = 1, which R104, R108 and R111 exclude. Raised by
  engine steps (log 7). Safe: the model stops, in states no run reaches. -/
  | opInconsistent
  deriving DecidableEq, Repr

/-- Why a step has no meaning. -/
inductive Refusal where
  /-- An instruction the model gives no meaning to; no arm of `exec` uses it. Safe. -/
  | notModelled (mnemonic : String)
  /-- A host transaction while `rst` is asserted: R141 and R152 give the host no such move. Raised by `hostTurn`
  (log 5). Safe: the model stops. -/
  | hostUnderReset
  deriving DecidableEq, Repr

/-- STATUS after reset: 0x00000000 (R22, R141). -/
def Status.reset : Status :=
  { busy := false, done := false, ksValid := false, errIllegal := false, errNokey := false, errBusywr := false,
    round := 0, phase := .idle, op := 0 }

/-- The machine right after reset: the table of 10_state.md section 7 and R141. `rst` is released again (log 5), and
the model's own fields are empty (logs 1, 2 and 4). -/
def State.reset : State :=
  { gfA := 0, gfB := 0, gfResult := 0, state := ByteMatrix.zero, key := ByteMatrix.zero
    rk := Vector.replicate 11 ByteMatrix.zero
    status := Status.reset, irqen := 0, rst := false, schedule := [], bus := .none, draws := 0 }

end Sys2Proof.Machine
end

