-- ==== Sys2Proof/Machine/Flags.lean ====
section
/-! DEFINITION. Every flag computation of the block: the STATUS word, raising an error, acceptance, completion, the W1C
acknowledge, the legality of the FSM pair, and the interrupt line (10_state.md R22 to R28; 20_memory.md R43;
44_cipher_fsm.md R108, R110; 60_exceptions.md R122, R128). -/

namespace Sys2Proof.Machine

/-- The 3-bit code of a phase (R27). -/
def Phase.code : Phase → BitVec 3
  | .idle => 0
  | .exec => 1
  | .keyExp => 2
  | .enc => 3
  | .dec => 4
  | .unused5 => 5
  | .unused6 => 6
  | .unused7 => 7

/-- STATUS as the host reads it, most significant field first; the reserved bits are zero (R22, R40). -/
def Status.word (st : Status) : Word32 :=
  (0 : BitVec 8) ++ st.op ++ (0 : BitVec 1) ++ st.phase.code ++ st.round ++ (0 : BitVec 2)
    ++ BitVec.ofBool st.errBusywr ++ BitVec.ofBool st.errNokey ++ BitVec.ofBool st.errIllegal
    ++ BitVec.ofBool st.ksValid ++ BitVec.ofBool st.done ++ BitVec.ofBool st.busy

/-- The three error flags (R26). -/
inductive ErrorFlag where
  | illegal
  | nokey
  | busywr
  deriving DecidableEq, Repr

/-- `raise E`: sets STATUS.E and nothing else (R122). -/
def Status.raise (e : ErrorFlag) (st : Status) : Status :=
  match e with
  | .illegal => { st with errIllegal := true }
  | .nokey => { st with errNokey := true }
  | .busywr => { st with errBusywr := true }

/-- `fsm <- (phase, round)` (R11, R27). -/
def Status.goto (phase : Phase) (round : BitVec 4) (st : Status) : Status :=
  { st with phase := phase, round := round }

/-- Acceptance of a command: BUSY <- 1, DONE <- 0, OP <- op, fsm <- (phase, round) (R108). -/
def Status.accepted (op : Byte) (phase : Phase) (round : BitVec 4) (st : Status) : Status :=
  { st with busy := true, done := false, op := op, phase := phase, round := round }

/-- `complete()`: BUSY <- 0, DONE <- 1, fsm <- (IDLE, 0); OP, KS_VALID and the error flags are kept (R110). -/
def Status.completed (st : Status) : Status :=
  { st with busy := false, done := true, phase := .idle, round := 0 }

/-- KS_VALID <- b (R25). -/
def Status.withKsValid (b : Bool) (st : Status) : Status := { st with ksValid := b }

/-- `status_w1c(v)`: a 1 in bit 1, 3, 4 or 5 clears DONE, ERR_ILLEGAL, ERR_NOKEY or ERR_BUSYWR; every other bit ignores
the write (R43). -/
def Status.w1c (v : Word32) (st : Status) : Status :=
  { st with
    done := st.done && !v.getLsbD 1
    errIllegal := st.errIllegal && !v.getLsbD 3
    errNokey := st.errNokey && !v.getLsbD 4
    errBusywr := st.errBusywr && !v.getLsbD 5 }

/-- The FSM pair is a row of R27's table. A nonzero ROUND in EXEC is ADDROUNDKEY's only (R27, log 7). -/
def Status.fsmLegal (st : Status) : Bool :=
  match st.phase with
  | .idle => st.round == 0
  | .exec => st.round == 0 || (st.op == 0x16 && decide (st.round.toNat ≤ 10))
  | .keyExp => decide (1 ≤ st.round.toNat ∧ st.round.toNat ≤ 10)
  | .enc => decide (st.round.toNat ≤ 10)
  | .dec => decide (st.round.toNat ≤ 10)
  | .unused5 => false
  | .unused6 => false
  | .unused7 => false

/-- Some error flag is 1: the ERR interrupt source is pending (R128). -/
def Status.errPending (st : Status) : Bool := st.errIllegal || st.errNokey || st.errBusywr

/-- The level-sensitive interrupt output, a function of STATUS and IRQEN, not a register (R128, R31). -/
def State.irq (s : State) : Bool :=
  (s.status.done && s.irqen.getLsbD 0) || (s.status.errPending && s.irqen.getLsbD 1)

end Sys2Proof.Machine
end

