-- ==== Sys2Proof/Machine/Operands.lean ====
section
/-! DEFINITION. The operand forms: the elements s[r][c] of a matrix and the block-to-matrix mapping (00_scope.md R9), the
packing of a column into a bus word (20_memory.md R37), the byte operand of a write (R42), and the round key RK[r] named
by an index (30_encoding.md R56). -/

namespace Sys2Proof

/-- The byte in row `r` of a column (R9). -/
def Column.row (w : Column) (r : Fin 4) : Byte :=
  match r with
  | 0 => w.r0
  | 1 => w.r1
  | 2 => w.r2
  | 3 => w.r3

/-- The column whose row r is `f r`. -/
def Column.ofFn (f : Fin 4 → Byte) : Column := ⟨f 0, f 1, f 2, f 3⟩

/-- XOR of two words, "taken byte by byte" (R100). -/
def Column.xor (a b : Column) : Column := Column.ofFn fun r => a.row r ^^^ b.row r

/-- Column `c` of a matrix, its word c (R9). -/
def ByteMatrix.col (m : ByteMatrix) (c : Fin 4) : Column :=
  match c with
  | 0 => m.c0
  | 1 => m.c1
  | 2 => m.c2
  | 3 => m.c3

/-- The matrix with column `c` replaced. -/
def ByteMatrix.setCol (m : ByteMatrix) (c : Fin 4) (w : Column) : ByteMatrix :=
  match c with
  | 0 => { m with c0 := w }
  | 1 => { m with c1 := w }
  | 2 => { m with c2 := w }
  | 3 => { m with c3 := w }

/-- The element `s[r][c]` (R9). -/
def ByteMatrix.get (s : ByteMatrix) (r c : Fin 4) : Byte := (s.col c).row r

/-- The matrix with `s[r][c] = f r c`. Every element is computed from the arguments of `f`, so that an in-place
transformation is a simultaneous assignment (R81). -/
def ByteMatrix.ofFn (f : Fin 4 → Fin 4 → Byte) : ByteMatrix :=
  ⟨Column.ofFn (f · 0), Column.ofFn (f · 1), Column.ofFn (f · 2), Column.ofFn (f · 3)⟩

/-- The matrix of a 16-byte block: `s[r][c] = b[4c + r]` (R9). -/
def ByteMatrix.ofBlock (b : Vector Byte 16) : ByteMatrix := ByteMatrix.ofFn fun r c => b[4 * c.val + r.val]

/-- Byte `k` of the block of a matrix: `b[k] = s[k mod 4][k div 4]` (R9). -/
def ByteMatrix.blockByte (s : ByteMatrix) (k : Fin 16) : Byte :=
  s.get ⟨k.val % 4, Nat.mod_lt _ (by decide)⟩ ⟨k.val / 4, Nat.div_lt_of_lt_mul k.isLt⟩

/-- `pack(M, c) = { M[3][c], M[2][c], M[1][c], M[0][c] }` (R37). -/
def pack (m : ByteMatrix) (c : Fin 4) : Word32 := m.get 3 c ++ m.get 2 c ++ m.get 1 c ++ m.get 0 c

/-- The column that a bus word holds: row i is byte lane i, bits [8i+7 : 8i] (R37). -/
def unpackColumn (v : Word32) : Column := Column.ofFn fun i => v.extractLsb' (8 * i.val) 8

/-- `unpack(v, c)` into matrix `m` (R37). -/
def unpack (v : Word32) (c : Fin 4) (m : ByteMatrix) : ByteMatrix := m.setCol c (unpackColumn v)

/-- The byte operand of a write to GF_A or GF_B: v[7:0] (R42). -/
def byteOperand (v : Word32) : Byte := v.extractLsb' 0 8

/-- `zext_32` of a byte register (R8, R41). -/
def zext32 {n : Nat} (b : BitVec n) : Word32 := b.setWidth 32

namespace Machine

/-- The round key `RK[x]` named by a 4-bit index; an index above 10 names none (R19, R56). -/
def roundKey? (s : State) (x : BitVec 4) : Option ByteMatrix := s.rk[x.toNat]?

end Machine

end Sys2Proof
end

