-- ==== Sys2Proof/Machine/Ops.lean ====
section
/-! DEFINITION. The named operations over the registers: one update per field, the register map (20_memory.md R36), host
reads (R41, R47), raising an error (60_exceptions.md R122) and its acknowledge (R43, R131), acceptance and completion of a
command (44_cipher_fsm.md R108, R110), and the reset event (70_reset_and_hazards.md R141). -/

namespace Sys2Proof.Machine

/-! ## One update per field -/

def State.setGfA (v : Byte) (s : State) : State := { s with gfA := v }
def State.setGfB (v : Byte) (s : State) : State := { s with gfB := v }
def State.setGfResult (v : Byte) (s : State) : State := { s with gfResult := v }
def State.setState (m : ByteMatrix) (s : State) : State := { s with state := m }
def State.setKey (m : ByteMatrix) (s : State) : State := { s with key := m }
/-- RK[r] <- m; an index above 10 names no round key and writes nothing (R19). -/
def State.setRk (r : Nat) (m : ByteMatrix) (s : State) : State := { s with rk := s.rk.setIfInBounds r m }
def State.setStatus (st : Status) (s : State) : State := { s with status := st }
def State.setIrqen (v : BitVec 2) (s : State) : State := { s with irqen := v }
def State.setRst (b : Bool) (s : State) : State := { s with rst := b }
def State.setSchedule (ms : List Move) (s : State) : State := { s with schedule := ms }
def State.setBus (r : BusResponse) (s : State) : State := { s with bus := r }
def State.setDraws (n : Nat) (s : State) : State := { s with draws := n }

/-! ## Errors: the block's only exceptions -/

/-- `raise E`: sets the STATUS flag E and has no other effect (R122). The block takes no traps (R130). -/
def raise (e : ErrorFlag) (s : State) : State := s.setStatus (s.status.raise e)

/-- The acknowledge of an error or of DONE, all there is of a return from a trap (R131): a STATUS write (R43). -/
def statusW1c (v : Word32) (s : State) : State := s.setStatus (s.status.w1c v)

/-! ## Commands -/

/-- `fsm <- (phase, round)` (R11). -/
def gotoFsm (phase : Phase) (round : BitVec 4) (s : State) : State := s.setStatus (s.status.goto phase round)

/-- The part of acceptance that every command shares (R108). -/
def accept (op : Byte) (phase : Phase) (round : BitVec 4) (s : State) : State :=
  s.setStatus (s.status.accepted op phase round)

/-- `complete()` (R110). -/
def complete (s : State) : State := s.setStatus s.status.completed

/-- KS_VALID <- b (R25). -/
def setKsValid (b : Bool) (s : State) : State := s.setStatus (s.status.withKsValid b)

/-- The fault of an engine step in a phase that the command in progress never enters: IDLE and the unused codes are
outside R27's table for a busy block (R34, R109); EXEC, KEYEXP, ENC and DEC do not belong to its OP (log 7). -/
def wrongPhase : Phase → Fault
  | .idle => .illegalFsmState
  | .exec => .opInconsistent
  | .keyExp => .opInconsistent
  | .enc => .opInconsistent
  | .dec => .opInconsistent
  | .unused5 => .illegalFsmState
  | .unused6 => .illegalFsmState
  | .unused7 => .illegalFsmState

/-- A single-step command (40_field_arithmetic.md section 2, 42_state_transforms.md section 2): while BUSY = 0 its
acceptance, to (EXEC, 0); while BUSY = 1 its one EXEC step, the effect and then `complete()` (R108, R111, log 8). -/
def singleStep (op : Byte) (effect : State → State) (s : State) : Host.Outcome State Fault Refusal :=
  if s.status.busy then
    match s.status.phase with
    | .exec => .next (complete (effect s))
    | p => .fault (wrongPhase p)
  else .next (accept op .exec 0 s)

/-! ## The register window -/

/-- The ID register's hardwired value (R20). -/
def idValue : Word32 := 0x41455331

/-- The registers of the window (R36); `reserved` is every other 4-byte-aligned offset (R40). -/
inductive Reg where
  | id
  | cmd
  | status
  | irqen
  | gfA
  | gfB
  | gfResult
  | stateW (c : Fin 4)
  | keyW (c : Fin 4)
  | rkW (r : Fin 11) (c : Fin 4)
  | reserved
  deriving DecidableEq, Repr

/-- The register map of R36, on 4-byte-aligned offsets. -/
def regAt (off : BitVec 12) : Reg :=
  if off.toNat = 0x000 then .id
  else if off.toNat = 0x004 then .cmd
  else if off.toNat = 0x008 then .status
  else if off.toNat = 0x00C then .irqen
  else if off.toNat = 0x010 then .gfA
  else if off.toNat = 0x014 then .gfB
  else if off.toNat = 0x018 then .gfResult
  else if h : 0x020 ≤ off.toNat ∧ off.toNat < 0x030 then .stateW ⟨(off.toNat - 0x020) / 4, by omega⟩
  else if h : 0x030 ≤ off.toNat ∧ off.toNat < 0x040 then .keyW ⟨(off.toNat - 0x030) / 4, by omega⟩
  else if h : 0x100 ≤ off.toNat ∧ off.toNat < 0x1B0 then
    .rkW ⟨(off.toNat - 0x100) / 16, by omega⟩ ⟨(off.toNat - 0x100) % 16 / 4, by omega⟩
  else .reserved

/-- The offset within the window of a host address, if the address lies in the window `BASE .. BASE + 0xFFF` (R35). -/
def windowOffset? (addr : Nat) : Option (BitVec 12) :=
  if Config.base ≤ addr ∧ addr < Config.base + 0x1000 then some (BitVec.ofNat 12 (addr - Config.base)) else none

/-- The host address of byte lane `i` of a transaction at offset `off` (R38). -/
def laneAddress (off : BitVec 12) (i : Fin 4) : Nat := Config.base + off.toNat + i.val

/-- Byte lane `i` of a 32-bit transaction's data: bits [8i+7 : 8i] (R37, R38). -/
def lane (v : Word32) (i : Fin 4) : Byte := v.extractLsb' (8 * i.val) 8

/-- A transaction is performed only if its size is 4 and its offset a multiple of 4 (R39). -/
def Transaction.performed : Transaction → Bool
  | .read off size => size == .bytes4 && off.toNat % 4 == 0
  | .write off size _ => size == .bytes4 && off.toNat % 4 == 0

/-- `draw32()`: the unspecified value of a result read while BUSY = 1, and the state that makes the next one fresh
(R47, log 2). -/
def draw (s : State) : Word32 × State := (Config.draw32 s.draws, s.setDraws (s.draws + 1))

/-- A result register's read: exact while BUSY = 0, a draw while BUSY = 1 (R41, R47). -/
def readResult (v : Word32) (s : State) : Word32 × State := if s.status.busy then draw s else (v, s)

/-- `MemRead(off, 4)`: the value, and the state, unchanged but for a draw (R41). -/
def memRead (off : BitVec 12) (s : State) : Word32 × State :=
  match regAt off with
  | .id => (idValue, s)
  | .cmd => (0, s)
  | .status => (s.status.word, s)
  | .irqen => (zext32 s.irqen, s)
  | .gfA => (zext32 s.gfA, s)
  | .gfB => (zext32 s.gfB, s)
  | .gfResult => readResult (zext32 s.gfResult) s
  | .stateW c => readResult (pack s.state c) s
  | .keyW c => (pack s.key c, s)
  | .rkW r c => readResult (pack s.rk[r] c) s
  | .reserved => (0, s)

/-- A write to an operand register: while BUSY = 1 it is dropped and raises ERR_BUSYWR (R46, R126). -/
def writeOperand (update : State → State) (s : State) : State :=
  if s.status.busy then raise .busywr s else update s

/-- A performed KEY write: the word into KEY, and KS_VALID <- 0 even if the value is the old one (R44). -/
def writeKeyWord (v : Word32) (c : Fin 4) (s : State) : State := setKsValid false (s.setKey (unpack v c s.key))

/-! ## Reset -/

/-- The reset event (R141): every register to its reset value, atomically; a command in progress is abandoned. The
reset line and the model's own fields are not registers and keep their values. -/
def resetEvent (s : State) : State :=
  { State.reset with rst := s.rst, schedule := s.schedule, bus := s.bus, draws := s.draws }

end Sys2Proof.Machine
end

