-- ==== Sys2Proof/Machine/Field.lean ====
section
/-! DEFINITION. GF(2^8) arithmetic and its two commands GFMUL and GFINV (40_field_arithmetic.md R62 to R71). Field addition
is the XOR of bytes (R63). -/

namespace Sys2Proof.Machine

/-- The accumulation of R64: bit i + j is toggled wherever bit i of `a` and bit j of `b` are both set
(XOR, not OR: 90_conflicts.md C1). -/
def clmul (a b : Byte) : BitVec 16 :=
  [0, 1, 2, 3, 4, 5, 6, 7].foldl (init := 0) fun acc i =>
    [0, 1, 2, 3, 4, 5, 6, 7].foldl (init := acc) fun acc j =>
      if a.getLsbD i && b.getLsbD j then acc ^^^ ((1 : BitVec 16) <<< (i + j)) else acc

/-- The reduction of R64 modulo x^8+x^4+x^3+x+1 (0x11B), from bit 14 down to bit 8. -/
def reduce (acc : BitVec 16) : BitVec 16 :=
  [14, 13, 12, 11, 10, 9, 8].foldl (init := acc) fun acc p =>
    if acc.getLsbD p then acc ^^^ ((0x11B : BitVec 16) <<< (p - 8)) else acc

/-- `multiply(a, b)`, written `a • b` (R64). -/
def multiply (a b : Byte) : Byte := (reduce (clmul a b)).setWidth 8

/-- `xtime(a) = multiply(0x02, a)`: field doubling (R66). -/
def xtime (a : Byte) : Byte := multiply 0x02 a

/-- `n` iterations of R67's loop on the pair (acc, sq): multiply the accumulator by the running square, then square. -/
def inverseLoop : Nat → Byte × Byte → Byte × Byte
  | 0, p => p
  | n + 1, (acc, sq) => inverseLoop n (multiply acc sq, multiply sq sq)

/-- `inverse(a) = a^254`, and `inverse(0) = 0`: seven iterations from acc = 1 and sq = a^2 (R67). -/
def inverse (a : Byte) : Byte := (inverseLoop 7 (0x01, multiply a a)).1

/-- GFMUL (R70): GF_RESULT <- GF_A • GF_B. -/
def execGfmul (s : State) : Host.Outcome State Fault Refusal :=
  singleStep 0x01 (fun s => s.setGfResult (multiply s.gfA s.gfB)) s

/-- GFINV (R71): GF_RESULT <- inverse(GF_A). -/
def execGfinv (s : State) : Host.Outcome State Fault Refusal :=
  singleStep 0x02 (fun s => s.setGfResult (inverse s.gfA)) s

end Sys2Proof.Machine
end

