-- ==== Sys2Proof/Machine/Sbox.lean ====
section
/-! DEFINITION. The affine transforms, the S-boxes, and the commands SBOX and INVSBOX (41_sbox.md R72 to R80). -/

namespace Sys2Proof.Machine

/-- XOR of the eight bits of a byte. -/
def parity (b : Byte) : Bool := [0, 1, 2, 3, 4, 5, 6, 7].foldl (init := false) fun p j => p ^^ b.getLsbD j

/-- An 8x8 bit matrix applied to a byte: output bit i is the parity of row i AND the byte. The first row listed is row 0,
which gives output bit 0 (R72, R74). -/
def applyRows (rows : List Byte) (x : Byte) : Byte :=
  rows.foldr (init := 0) fun row y => (y <<< 1) ||| (BitVec.ofBool (parity (row &&& x))).setWidth 8

/-- The matrix A of the forward transform (R72, recovered by R73). -/
def affineRows : List Byte := [0xF1, 0xE3, 0xC7, 0x8F, 0x1F, 0x3E, 0x7C, 0xF8]

/-- The matrix A' of the inverse transform (R74). -/
def inverseAffineRows : List Byte := [0xA4, 0x49, 0x92, 0x25, 0x4A, 0x94, 0x29, 0x52]

/-- `affine(x)`: A applied to x, then XOR 0x63 (R72). -/
def affine (x : Byte) : Byte := applyRows affineRows x ^^^ 0x63

/-- `inverse_affine(x)`: XOR 0x63, then A' (R74). -/
def inverseAffine (x : Byte) : Byte := applyRows inverseAffineRows (x ^^^ 0x63)

/-- `forward_sbox(x) = affine(inverse(x))` (R75). -/
def forwardSbox (x : Byte) : Byte := affine (inverse x)

/-- `inverse_sbox(x) = inverse(inverse_affine(x))` (R76). -/
def inverseSbox (x : Byte) : Byte := inverse (inverseAffine x)

/-- SBOX (R79): GF_RESULT <- forward_sbox(GF_A). -/
def execSbox (s : State) : Host.Outcome State Fault Refusal :=
  singleStep 0x03 (fun s => s.setGfResult (forwardSbox s.gfA)) s

/-- INVSBOX (R80): GF_RESULT <- inverse_sbox(GF_A). -/
def execInvSbox (s : State) : Host.Outcome State Fault Refusal :=
  singleStep 0x04 (fun s => s.setGfResult (inverseSbox s.gfA)) s

end Sys2Proof.Machine
end

