-- ==== Sys2Proof/Machine/Transforms.lean ====
section
/-! DEFINITION. The state transformations and their seven commands (42_state_transforms.md R81 to R96). -/

namespace Sys2Proof.Machine

/-- SubBytes (R82). -/
def subBytes (s : ByteMatrix) : ByteMatrix := ByteMatrix.ofFn fun r c => forwardSbox (s.get r c)

/-- InvSubBytes (R83). -/
def invSubBytes (s : ByteMatrix) : ByteMatrix := ByteMatrix.ofFn fun r c => inverseSbox (s.get r c)

/-- ShiftRows: `SR(s)[r][c] = s[r][(c + r) mod 4]`; addition on Fin 4 is modulo 4 (R84). -/
def shiftRows (s : ByteMatrix) : ByteMatrix := ByteMatrix.ofFn fun r c => s.get r (c + r)

/-- InvShiftRows: `ISR(s)[r][c] = s[r][(c - r) mod 4]`; subtraction on Fin 4 is modulo 4 (R85). -/
def invShiftRows (s : ByteMatrix) : ByteMatrix := ByteMatrix.ofFn fun r c => s.get r (c - r)

/-- A column times a 4x4 constant matrix whose row r is `first` rotated right by r positions, so that its element
(r, k) is `first[(k - r) mod 4]` (R86). -/
def mixColumn (first : Column) (w : Column) : Column :=
  Column.ofFn fun r =>
    multiply (first.row (0 - r)) (w.row 0) ^^^ multiply (first.row (1 - r)) (w.row 1)
      ^^^ multiply (first.row (2 - r)) (w.row 2) ^^^ multiply (first.row (3 - r)) (w.row 3)

/-- Row 0 of MF (R86). -/
def mixRow : Column := ⟨0x02, 0x03, 0x01, 0x01⟩

/-- Row 0 of MI (R87). -/
def invMixRow : Column := ⟨0x0E, 0x0B, 0x0D, 0x09⟩

/-- MixColumns (R86): each column of the result is MF times that column. -/
def mixColumns (s : ByteMatrix) : ByteMatrix := ByteMatrix.ofFn fun r c => (mixColumn mixRow (s.col c)).row r

/-- InvMixColumns (R87): each column of the result is MI times that column. -/
def invMixColumns (s : ByteMatrix) : ByteMatrix := ByteMatrix.ofFn fun r c => (mixColumn invMixRow (s.col c)).row r

/-- AddRoundKey (R88). -/
def addRoundKey (s k : ByteMatrix) : ByteMatrix := ByteMatrix.ofFn fun r c => s.get r c ^^^ k.get r c

/-- SUBBYTES (R90): STATE <- SB(STATE). -/
def execSubBytes (s : State) : Host.Outcome State Fault Refusal :=
  singleStep 0x10 (fun s => s.setState (subBytes s.state)) s

/-- INVSUBBYTES (R91): STATE <- ISB(STATE). -/
def execInvSubBytes (s : State) : Host.Outcome State Fault Refusal :=
  singleStep 0x11 (fun s => s.setState (invSubBytes s.state)) s

/-- SHIFTROWS (R92): STATE <- SR(STATE). -/
def execShiftRows (s : State) : Host.Outcome State Fault Refusal :=
  singleStep 0x12 (fun s => s.setState (shiftRows s.state)) s

/-- INVSHIFTROWS (R93): STATE <- ISR(STATE). -/
def execInvShiftRows (s : State) : Host.Outcome State Fault Refusal :=
  singleStep 0x13 (fun s => s.setState (invShiftRows s.state)) s

/-- MIXCOLUMNS (R94): STATE <- MC(STATE). -/
def execMixColumns (s : State) : Host.Outcome State Fault Refusal :=
  singleStep 0x14 (fun s => s.setState (mixColumns s.state)) s

/-- INVMIXCOLUMNS (R95): STATE <- IMC(STATE). -/
def execInvMixColumns (s : State) : Host.Outcome State Fault Refusal :=
  singleStep 0x15 (fun s => s.setState (invMixColumns s.state)) s

/-- ADDROUNDKEY r (R96). While BUSY = 0: an index above 10 makes the word illegal (R58, R124, log 11), KS_VALID = 0 refuses
it with ERR_NOKEY (R125), else it is accepted with ROUND = r. While BUSY = 1: STATE <- ARK(STATE, RK[ROUND]); complete(). -/
def execAddRoundKey (ridx : BitVec 4) (s : State) : Host.Outcome State Fault Refusal :=
  if s.status.busy then
    match s.status.phase with
    | .exec =>
      match roundKey? s s.status.round with
      | some k => .next (complete (s.setState (addRoundKey s.state k)))
      | none => .fault .illegalFsmState
    | p => .fault (wrongPhase p)
  else if 10 < ridx.toNat then .next (raise .illegal s)
  else if s.status.ksValid then .next (accept 0x16 .exec ridx s)
  else .next (raise .nokey s)

end Sys2Proof.Machine
end

