-- ==== Sys2Proof/Machine/KeySchedule.lean ====
section
/-! DEFINITION. The key schedule, its engine step, and KEYEXPAND (43_key_schedule.md R97 to R104). -/

namespace Sys2Proof.Machine

/-- `n` field doublings of 1. -/
def rcDoublings : Nat → Byte
  | 0 => 0x01
  | n + 1 => xtime (rcDoublings n)

/-- The round constant: rc(1) = 1, rc(i) = xtime(rc(i-1)) for i > 1 (R97). Used for i >= 1 only. -/
def rc (i : Nat) : Byte := rcDoublings (i - 1)

/-- RotWord (R98). -/
def rotWord (w : Column) : Column := ⟨w.r1, w.r2, w.r3, w.r0⟩

/-- SubWord (R99). -/
def subWord (w : Column) : Column := Column.ofFn fun r => forwardSbox (w.row r)

/-- One round of the schedule, `NextKey(Kprev, r)` (R100). -/
def nextKey (kprev : ByteMatrix) (r : Nat) : ByteMatrix :=
  let w4 := (kprev.c0.xor (subWord (rotWord kprev.c3))).xor ⟨rc r, 0x00, 0x00, 0x00⟩
  let w5 := w4.xor kprev.c1
  let w6 := w5.xor kprev.c2
  let w7 := w6.xor kprev.c3
  ⟨w4, w5, w6, w7⟩

/-- `Expand(key)[r]`: K[0] = key, K[r] = NextKey(K[r-1], r) (R101). -/
def expandRound (key : ByteMatrix) : Nat → ByteMatrix
  | 0 => key
  | r + 1 => nextKey (expandRound key r) (r + 1)

/-- `Expand(key) = [K[0], ..., K[10]]` (R101). -/
def expand (key : ByteMatrix) : Vector ByteMatrix 11 := Vector.ofFn fun r => expandRound key r.val

/-- The start of key expansion at acceptance: RK[0] <- KEY, fsm <- (KEYEXP, 1) (R108, R103). -/
def startExpansion (op : Byte) (s : State) : State := accept op .keyExp 1 (s.setRk 0 s.key)

/-- What follows the write of RK[10]: KS_VALID <- 1, and completion, ENC or DEC as STATUS.OP says (R104). -/
def finishExpansion (s : State) : Host.Outcome State Fault Refusal :=
  match s.status.op.toNat with
  | 0x20 => .next (complete (setKsValid true s))
  | 0x30 => .next (gotoFsm .enc 0 (setKsValid true s))
  | 0x31 => .next (gotoFsm .dec 10 (setKsValid true s))
  | _ => .fault .opInconsistent

/-- The engine step at (KEYEXP, r), 1 <= r <= 10: RK[r] <- NextKey(RK[r-1], r), then the next round, or after round 10
what STATUS.OP says, in the same atomic step (R104). -/
def keyExpStep (s : State) : Host.Outcome State Fault Refusal :=
  let r := s.status.round.toNat
  match roundKey? s (s.status.round - 1) with
  | none => .fault .illegalFsmState
  | some kprev =>
    if r < 1 ∨ 10 < r then .fault .illegalFsmState
    else if r < 10 then .next (gotoFsm .keyExp (s.status.round + 1) (s.setRk r (nextKey kprev r)))
    else finishExpansion (s.setRk r (nextKey kprev r))

/-- KEYEXPAND (R103): acceptance clears KS_VALID, writes RK[0] and goes to (KEYEXP, 1); then ten KEYEXP steps. -/
def execKeyExpand (s : State) : Host.Outcome State Fault Refusal :=
  if s.status.busy then
    match s.status.phase with
    | .keyExp => keyExpStep s
    | p => .fault (wrongPhase p)
  else .next (startExpansion 0x20 (setKsValid false s))

end Sys2Proof.Machine
end

