-- ==== Sys2Proof/Machine/Cipher.lean ====
section
/-! DEFINITION. The cipher functions, the ENC and DEC engine steps, and the commands ENCRYPT and DECRYPT
(44_cipher_fsm.md R105 to R121). -/

namespace Sys2Proof.Machine

/-- `Round[r]` of encryption with round key `k`; MixColumns in every round but round 10 (R105). -/
def encRound (r : Nat) (k s : ByteMatrix) : ByteMatrix :=
  let t := shiftRows (subBytes s)
  addRoundKey (if r = 10 then t else mixColumns t) k

/-- The round of decryption that uses K[r] = `k`; InvMixColumns in every round but round 0 (R106). -/
def decRound (r : Nat) (k s : ByteMatrix) : ByteMatrix :=
  let t := addRoundKey (invShiftRows (invSubBytes s)) k
  if r = 0 then t else invMixColumns t

/-- `Encrypt(message, key)` (R105). -/
def encryptBlock (message key : ByteMatrix) : ByteMatrix :=
  [1, 2, 3, 4, 5, 6, 7, 8, 9, 10].foldl (init := addRoundKey message (expandRound key 0)) fun s r =>
    encRound r (expandRound key r) s

/-- `Decrypt(ciphertext, key)` (R106). -/
def decryptBlock (ciphertext key : ByteMatrix) : ByteMatrix :=
  [9, 8, 7, 6, 5, 4, 3, 2, 1, 0].foldl (init := addRoundKey ciphertext (expandRound key 10)) fun s r =>
    decRound r (expandRound key r) s

/-- The engine step at (ENC, r): Initial (R112), Round[1..9] (R113), Round[10] and completion (R114). -/
def encStep (s : State) : Host.Outcome State Fault Refusal :=
  let r := s.status.round.toNat
  match roundKey? s s.status.round with
  | none => .fault .illegalFsmState
  | some k =>
    if r = 0 then .next (gotoFsm .enc 1 (s.setState (addRoundKey s.state k)))
    else if r < 10 then .next (gotoFsm .enc (s.status.round + 1) (s.setState (encRound r k s.state)))
    else .next (complete (s.setState (encRound r k s.state)))

/-- The engine step at (DEC, r): Initial at r = 10 (R115), rounds 9..1 (R116), round 0 and completion (R117). -/
def decStep (s : State) : Host.Outcome State Fault Refusal :=
  let r := s.status.round.toNat
  match roundKey? s s.status.round with
  | none => .fault .illegalFsmState
  | some k =>
    if r = 10 then .next (gotoFsm .dec 9 (s.setState (addRoundKey s.state k)))
    else if 0 < r then .next (gotoFsm .dec (s.status.round - 1) (s.setState (decRound r k s.state)))
    else .next (complete (s.setState (decRound r k s.state)))

/-- ENCRYPT (R118): accepted to (ENC, 0) with a valid schedule, else key expansion first (R108); then its KEYEXP and ENC
steps. -/
def execEncrypt (s : State) : Host.Outcome State Fault Refusal :=
  if s.status.busy then
    match s.status.phase with
    | .keyExp => keyExpStep s
    | .enc => encStep s
    | p => .fault (wrongPhase p)
  else if s.status.ksValid then .next (accept 0x30 .enc 0 s)
  else .next (startExpansion 0x30 s)

/-- DECRYPT (R119): accepted to (DEC, 10) with a valid schedule, else key expansion first (R108); then its KEYEXP and DEC
steps. -/
def execDecrypt (s : State) : Host.Outcome State Fault Refusal :=
  if s.status.busy then
    match s.status.phase with
    | .keyExp => keyExpStep s
    | .dec => decStep s
    | p => .fault (wrongPhase p)
  else if s.status.ksValid then .next (accept 0x31 .dec 10 s)
  else .next (startExpansion 0x31 s)

end Sys2Proof.Machine
end

