-- ==== Sys2Proof/Machine/Turn.lean ====
section
/-! DEFINITION. The moves of the two agents and of the reset line: a host transaction (20_memory.md R39 to R49), the
engine's step (44_cipher_fsm.md R109), and which of them comes next (10_state.md R13, log 1). -/

namespace Sys2Proof.Machine

/-- `accept(v)`: an illegal word raises ERR_ILLEGAL and nothing else; a legal one is presented to its command (R108). -/
def acceptWord (v : Word32) (s : State) : Host.Outcome State Fault Refusal :=
  match decodeWord v with
  | .ok i => exec i s
  | .error _ => .next (raise .illegal s)

/-- A CMD write: while BUSY = 1 it is dropped undecoded and raises ERR_BUSYWR (R42, R46, R129). -/
def writeCmd (v : Word32) (s : State) : Host.Outcome State Fault Refusal :=
  if s.status.busy then .next (raise .busywr s) else acceptWord v s

/-- `MemWrite(off, 4, v)` (R42). -/
def memWrite (off : BitVec 12) (v : Word32) (s : State) : Host.Outcome State Fault Refusal :=
  match regAt off with
  | .cmd => writeCmd v s
  | .status => .next (statusW1c v s)
  | .irqen => .next (s.setIrqen (v.extractLsb' 0 2))
  | .gfA => .next (writeOperand (State.setGfA (byteOperand v)) s)
  | .gfB => .next (writeOperand (State.setGfB (byteOperand v)) s)
  | .stateW c => .next (writeOperand (fun s => s.setState (unpack v c s.state)) s)
  | .keyW c => .next (writeOperand (writeKeyWord v c) s)
  | .id => .next s
  | .gfResult => .next s
  | .rkW _ _ => .next s
  | .reserved => .next s

/-- A performed read: its value goes to the bus (R41). -/
def hostRead (off : BitVec 12) (s : State) : State := (memRead off s).2.setBus (.data (memRead off s).1)

/-- A host transaction: bus error unless performed (R39, R127), else MemRead or MemWrite. -/
def transact (t : Transaction) (s : State) : Host.Outcome State Fault Refusal :=
  if t.performed then
    match t with
    | .read off _ => .next (hostRead off s)
    | .write off _ v => memWrite off v (s.setBus .written)
  else .next (s.setBus (.error 0))

/-- The host's move; while `rst` is asserted it has none (R141, R152, log 5). -/
def hostTurn (t : Transaction) (s : State) : Host.Outcome State Fault Refusal :=
  if s.rst then .refused .hostUnderReset else transact t s

/-- The command in progress: STATUS.OP names it, and STATUS.ROUND holds the index of an ADDROUNDKEY (R28, R31). -/
def commandInProgress (st : Status) : Option Instr := opcodeMap st.op st.round

/-- The engine's step: the step of the command in progress (R109, R111). -/
def engineStep (s : State) : Host.Outcome State Fault Refusal :=
  match commandInProgress s.status with
  | some i => exec i s
  | none => .fault .opInconsistent

/-- The engine's move: a step while BUSY = 1, nothing while BUSY = 0 or `rst` is asserted (R109, R140, R141). -/
def engineTurn (s : State) : Host.Outcome State Fault Refusal :=
  if s.status.busy && !s.rst then engineStep s else .next s

/-- One step of the whole machine. An illegal FSM state is a fault (R34, R133). Else the next move of the schedule is
made; with none left the engine goes on while it has a step (R154 fairness, log 1). -/
def advance (s : State) : Host.Outcome State Fault Refusal :=
  if s.status.fsmLegal then
    match s.schedule with
    | [] => engineTurn s
    | .engine :: ms => engineTurn (s.setSchedule ms)
    | .host t :: ms => hostTurn t (s.setSchedule ms)
    | .rstAssert :: ms => .next (resetEvent ((s.setSchedule ms).setRst true))
    | .rstRelease :: ms => .next ((s.setSchedule ms).setRst false)
  else .fault .illegalFsmState

/-- The host's move that presents a command word: one 32-bit write of it to CMD (R55). -/
def cmdWrite (v : Word32) : Move := .host (.write 0x004 .bytes4 v)

/-- `s` with the command word `v` presented next: the CMD write as the first move, and `rst` released, since the host has
no move under reset. -/
def presentNext (v : Word32) (s : State) : State := (s.setSchedule (cmdWrite v :: s.schedule)).setRst false

end Sys2Proof.Machine
end

