-- ==== Sys2Proof/Machine/Step.lean ====
section
/-! DEFINITION. The step of the machine, and the placing of an instruction where the next step takes it from. -/

namespace Sys2Proof.Machine

/-- One step: the next move of an agent or of the reset line. -/
def step (s : State) : Host.Outcome State Fault Refusal := advance s

/-- The machine fetches nothing (R30): a command runs because the host writes its word to CMD. So the instruction is
placed as the host's next move (log 12). Bits above `nbits` are zero. -/
def State.withFetchWord (s : State) (nbits w : Nat) : State := presentNext (BitVec.ofNat 32 (w % 2 ^ nbits)) s

end Sys2Proof.Machine
end

