-- ==== Sys2Proof/Safety.lean ====
section
/-! DEFINITION. What claims about whole runs are stated in: runs, reachable states, the invariant of the block
(10_state.md R32 to R34 and what makes them inductive), the clean-entry premise, what the host must respect of reset, and
the end of a host program (70_reset_and_hazards.md R144, R152, R153). -/

namespace Sys2Proof.Machine

/-- `n` steps, stopping at the first fault or refusal. -/
def runSteps (n : Nat) (s : State) : Host.Outcome State Fault Refusal := Sys2Proof.core.run n s

/-- Reachable from reset: some number of steps under some choice of moves of the environment leads to `s`
("in every state reachable from reset", R32 to R34). -/
def Reachable (s : State) : Prop :=
  ∃ (moves : List Move) (n : Nat), runSteps n (State.reset.setSchedule moves) = .next s

/-- The opcodes of the eleven single-step commands, the only ones in EXEC (R111). -/
def singleStepOpcodes : List Byte := [0x01, 0x02, 0x03, 0x04, 0x10, 0x11, 0x12, 0x13, 0x14, 0x15, 0x16]

/-- STATUS.OP belongs to the phase: "STATUS.OP is always one of these eleven in EXEC" (R111), one of three in KEYEXP
(R104), and ENC and DEC are ENCRYPT's and DECRYPT's (R108, R104). -/
def Status.opFits (st : Status) : Bool :=
  match st.phase with
  | .exec => singleStepOpcodes.contains st.op
  | .keyExp => st.op == 0x20 || st.op == 0x30 || st.op == 0x31
  | .enc => st.op == 0x30
  | .dec => st.op == 0x31
  | .idle => true
  | .unused5 => true
  | .unused6 => true
  | .unused7 => true

/-- RK[0..n-1] are the first `n` round keys of Expand(KEY) (R101). -/
def scheduleUpTo (n : Nat) (s : State) : Prop := ∀ (r : Nat) (h : r < 11), r < n → s.rk[r] = expandRound s.key r

/-- The invariant: every state reachable from reset meets it, and every step keeps it. -/
structure State.Inv (s : State) : Prop where
  /-- R32 -/
  busyIff : s.status.busy = true ↔ s.status.phase ≠ .idle
  /-- R34 -/
  fsmLegal : s.status.fsmLegal = true
  /-- R104, R111 -/
  opFits : s.status.opFits = true
  /-- R33 -/
  schedule : s.status.ksValid = true → scheduleUpTo 11 s
  /-- R104: at (KEYEXP, r) the round keys below r are already in place, and KS_VALID is 0 (R25) -/
  expanding : s.status.phase = .keyExp → s.status.ksValid = false ∧ scheduleUpTo s.status.round.toNat s
  /-- ENC and DEC run on a valid schedule only (R108, R104) -/
  cipherKeyed : s.status.phase = .enc ∨ s.status.phase = .dec → s.status.ksValid = true
  /-- ADDROUNDKEY is accepted with a valid schedule only (R96), and KS_VALID cannot change under it (R46) -/
  addRoundKeyKeyed : s.status.phase = .exec → s.status.op = 0x16 → s.status.ksValid = true
  /-- R108 clears DONE, and only completion, which clears BUSY, sets it (R110) -/
  busyNotDone : s.status.busy = true → s.status.done = false
  /-- while `rst` is asserted the registers hold their reset values (R141) -/
  underReset : s.rst = true → resetEvent s = s

/-- The clean-entry premise (R144): no command in flight, no error flag set, and no fault recorded, that is, the FSM pair
is a row of R27's table (R34, log 13). -/
def State.cleanEntry (s : State) : Bool := !s.status.busy && !s.status.errPending && s.status.fsmLegal

/-- A host transaction, as against an engine move or an edge of the reset line. -/
def Move.isHost : Move → Bool
  | .host _ => true
  | .engine => false
  | .rstAssert => false
  | .rstRelease => false

/-- No host transaction comes while `rst` is asserted: what R152 says the host must respect, on the level `rst` of the line
and the moves still to come. -/
def noHostUnderReset : Bool → List Move → Bool
  | _, [] => true
  | rst, .host _ :: ms => !rst && noHostUnderReset rst ms
  | rst, .engine :: ms => noHostUnderReset rst ms
  | _, .rstAssert :: ms => noHostUnderReset true ms
  | _, .rstRelease :: ms => noHostUnderReset false ms

/-- The host has performed its last transaction: none is left among the moves (R153 (a), log 1). -/
def State.hostDone (s : State) : Bool := s.schedule.all fun m => !m.isHost

/-- The end of a host program has come: (a) and (b) of R153. -/
def State.ended (s : State) : Bool := s.hostDone && !s.status.busy

/-- `t` is the end of the host program that starts at `s`, `n` moves on: the first point at which it has ended (R153). -/
def EndsAt (n : Nat) (s t : State) : Prop :=
  runSteps n s = .next t ∧ t.ended = true ∧ ∀ k : Nat, k < n → ∃ u, runSteps k s = .next u ∧ u.ended = false

/-- The observation of a state: at each offset, the value that a performed read returns (R153, R41). -/
def State.observe (s : State) (off : BitVec 12) : Word32 := (memRead off s).1

/-- The outcome is not a fault. -/
def noFault : Host.Outcome State Fault Refusal → Bool
  | .next _ => true
  | .fault _ => false
  | .refused _ => true

end Sys2Proof.Machine
end

