-- ==== Sys2Proof/Certificates/Slice0/Obligations.lean ====
section
/-! DEFINITION. The statements about the block, from the numbered rules of spec/. A step-level statement speaks of a state
whose FSM pair is legal (R27; an illegal one is a fault, R34) and whose next move is given; `{ s with ... }` says that every
register not named keeps its value, and there is no memory beside the registers (R35, log 6). -/

open Sys2Proof Sys2Proof.Machine

/-! ## Encoding (30_encoding.md) -/

/-- Decoding the word of a well-formed command gives the command back, RIDX included (R55 to R58). -/
def Obligations.DecodeOfEncodeIsTheCommand : Prop :=
  ∀ i : Instr, WellFormed i → decodeWord (encode i) = .ok i

/-- A word that decodes is the word of the command it decodes to, which is well formed: no two words mean one command
(R57, R60). -/
def Obligations.DecodedWordIsTheCommandsWord : Prop :=
  ∀ (v : Word32) (i : Instr), decodeWord v = .ok i → WellFormed i ∧ encode i = v

/-- R58: the decoder accepts exactly the legal words, and they are 24. -/
def Obligations.DecoderAcceptsExactlyTheLegalWords : Prop :=
  (∀ v : Word32, (∃ i, decodeWord v = .ok i) ↔
    v.extractLsb' 12 20 = 0 ∧
    v.extractLsb' 0 8 ∈ ([0x01, 0x02, 0x03, 0x04, 0x10, 0x11, 0x12, 0x13, 0x14, 0x15, 0x16, 0x20, 0x30, 0x31] : List Byte) ∧
    (if v.extractLsb' 0 8 = 0x16 then (v.extractLsb' 8 4).toNat ≤ 10 else v.extractLsb' 8 4 = 0)) ∧
  ∃ words : List Word32, words.length = 24 ∧ words.Nodup ∧ ∀ v, v ∈ words ↔ ∃ i, decodeWord v = .ok i

/-- Words of R57 and V-CMD decode to the commands they are listed for (a sanity statement). -/
def Obligations.ListedWordsDecodeAsListed : Prop :=
  decodeWord 0x00000001 = .ok .gfmul ∧ decodeWord 0x00000004 = .ok .invSbox ∧
  decodeWord 0x00000010 = .ok .subBytes ∧ decodeWord 0x00000015 = .ok .invMixColumns ∧
  decodeWord 0x00000016 = .ok (.addRoundKey 0) ∧ decodeWord 0x00000A16 = .ok (.addRoundKey 10) ∧
  decodeWord 0x00000020 = .ok .keyExpand ∧ decodeWord 0x00000030 = .ok .encrypt ∧
  decodeWord 0x00000031 = .ok .decrypt ∧
  (∃ e, decodeWord 0x00000B16 = .error e) ∧ (∃ e, decodeWord 0x00000101 = .error e) ∧
  (∃ e, decodeWord 0x00001030 = .error e) ∧ (∃ e, decodeWord 0x00000000 = .error e)

/-! ## Reset (70_reset_and_hazards.md) -/

/-- The table of reset values (10_state.md section 7), and R142: the FSM starts at (IDLE, 0), both interrupt sources are
masked, KS_VALID is 0, and RK is not the schedule of the all-zero KEY. -/
def Obligations.ResetLeavesTheListedValues : Prop :=
  State.reset.gfA = 0 ∧ State.reset.gfB = 0 ∧ State.reset.gfResult = 0 ∧
  (∀ r c, State.reset.state.get r c = 0) ∧ (∀ r c, State.reset.key.get r c = 0) ∧
  (∀ (k : Nat) (h : k < 11) r c, State.reset.rk[k].get r c = 0) ∧
  State.reset.status.word = 0 ∧ State.reset.status.phase = .idle ∧ State.reset.status.round = 0 ∧
  State.reset.status.ksValid = false ∧ State.reset.irqen = 0 ∧ State.reset.irq = false ∧
  State.reset.rk ≠ expand State.reset.key

/-- The reset event gives every register its reset value, whatever was in progress; while `rst` is asserted neither agent
changes a register, and its release changes none (R141). That `rst` is a line of State, that its edges are moves, and that
the host's move under reset is refused by name, are the model's choice (log 5); that the model's own fields keep their
values is too (logs 1, 2 and 4). -/
def Obligations.ResetEventClearsTheRegisters : Prop :=
  ∀ (s : State) (ms : List Move), s.status.fsmLegal = true →
    (s.schedule = .rstAssert :: ms → ∃ t, step s = .next t ∧
      t = { State.reset with rst := true, schedule := ms, bus := s.bus, draws := s.draws } ∧ t.irq = false) ∧
    (s.schedule = .rstRelease :: ms → step s = .next { s with rst := false, schedule := ms }) ∧
    (s.rst = true →
      (s.schedule = [] → step s = .next s) ∧
      (s.schedule = .engine :: ms → step s = .next { s with schedule := ms }) ∧
      (∀ t, s.schedule = .host t :: ms → step s = .refused .hostUnderReset))

/-! ## Invariants (10_state.md R32 to R34) -/

/-- The invariant and the clean-entry premise (R144) hold at reset, whatever moves the environment will make. The premise
also holds where the host has seen BUSY = 0 and written 0x38 to STATUS, and from it no step is a fault. That "no fault
recorded" means a legal FSM pair is the model's reading (log 13). -/
def Obligations.ResetMeetsTheInvariant : Prop :=
  (∀ ms : List Move, (State.reset.setSchedule ms).Inv ∧ (State.reset.setSchedule ms).cleanEntry = true) ∧
  (∀ (s : State) (ms : List Move), s.status.fsmLegal = true → s.rst = false → s.status.busy = false →
    s.schedule = .host (.write 0x008 .bytes4 0x00000038) :: ms → ∃ t, step s = .next t ∧ t.cleanEntry = true) ∧
  (∀ s : State, s.cleanEntry = true → noFault (step s) = true)

/-- Every step, of either agent or of the reset line, keeps the invariant. -/
def Obligations.EveryStepKeepsTheInvariant : Prop :=
  ∀ s t : State, s.Inv → step s = .next t → t.Inv

/-- From a state that meets the invariant no step is a fault, and the only refusal is that of a host transaction while `rst`
is asserted, the model's choice (log 5). -/
def Obligations.NoStepFromTheInvariantFaults : Prop :=
  ∀ s : State, s.Inv → noFault (step s) = true ∧ (s.rst = false → ∃ t, step s = .next t) ∧
    (∀ r, step s = .refused r → r = .hostUnderReset ∧ s.rst = true ∧ ∃ tr ms, s.schedule = .host tr :: ms)

/-- R32: in every reachable state BUSY = 1 if and only if PHASE is not IDLE. -/
def Obligations.ReachableBusyIffPhaseNotIdle : Prop :=
  ∀ s : State, Reachable s → (s.status.busy = true ↔ s.status.phase ≠ .idle)

/-- R33: in every reachable state KS_VALID = 1 implies RK[r] = Expand(KEY)[r] for r = 0..10. -/
def Obligations.ReachableValidScheduleIsExpandOfKey : Prop :=
  ∀ s : State, Reachable s → s.status.ksValid = true → ∀ (r : Nat) (h : r < 11), s.rk[r] = (expand s.key)[r]

/-- In every reachable state the FSM pair is a row of R27's table (R34); a state whose pair is in no row is a fault (R133).
That the fault comes at the next move, whoever moves, and that a nonzero ROUND in EXEC is ADDROUNDKEY's only, is the model's
reading (log 7). -/
def Obligations.ReachableFsmPairIsInTheTable : Prop :=
  (∀ s : State, Reachable s →
    match s.status.phase with
    | .idle => s.status.round = 0
    | .exec => s.status.round = 0 ∨ (s.status.op = 0x16 ∧ s.status.round.toNat ≤ 10)
    | .keyExp => 1 ≤ s.status.round.toNat ∧ s.status.round.toNat ≤ 10
    | .enc => s.status.round.toNat ≤ 10
    | .dec => s.status.round.toNat ≤ 10
    | .unused5 => False
    | .unused6 => False
    | .unused7 => False) ∧
  (∀ s : State, s.status.fsmLegal = false → step s = .fault .illegalFsmState) ∧
  (∀ s : State, s.status.phase = .unused5 ∨ s.status.phase = .unused6 ∨ s.status.phase = .unused7 ∨
      10 < s.status.round.toNat ∨ (s.status.phase = .idle ∧ s.status.round ≠ 0) ∨
      (s.status.phase = .keyExp ∧ s.status.round = 0) → s.status.fsmLegal = false)

/-! ## The register window (20_memory.md) -/

/-- R39: a transaction whose size is not 4 or whose offset is not a multiple of 4 gets a bus error with read data 0 and
changes no register, flag or FSM state; so `irq` keeps its value. -/
def Obligations.UnperformedTransactionIsABusError : Prop :=
  ∀ (s : State) (ms : List Move) (off : BitVec 12) (size : AccessSize) (v : Word32),
    s.status.fsmLegal = true → s.rst = false → size ≠ .bytes4 ∨ off.toNat % 4 ≠ 0 →
    (s.schedule = .host (.read off size) :: ms ∨ s.schedule = .host (.write off size v) :: ms) →
    step s = .next { s with schedule := ms, bus := .error 0x00000000 }

/-- What a performed read returns at every aligned offset, and that it changes no register (R41); while BUSY = 1 the reads
of GF_RESULT, STATE and RK return an unspecified value (R47). That it is `Config.draw32` of a counter that each such read
advances is the model's choice (log 2). -/
def Obligations.HostReadReturnsTheRegister : Prop :=
  ∀ (s : State) (ms : List Move) (off : BitVec 12),
    s.status.fsmLegal = true → s.rst = false → s.schedule = .host (.read off .bytes4) :: ms →
    let exact (v : Word32) := step s = .next { s with schedule := ms, bus := .data v }
    let result (v : Word32) :=
      (s.status.busy = false → exact v) ∧
      (s.status.busy = true →
        step s = .next { s with schedule := ms, bus := .data (Config.draw32 s.draws), draws := s.draws + 1 })
    (off = 0x000 → exact 0x41455331) ∧
    (off = 0x004 → exact 0x00000000) ∧
    (off = 0x008 → exact s.status.word) ∧
    (off = 0x00C → exact (s.irqen.setWidth 32)) ∧
    (off = 0x010 → exact (s.gfA.setWidth 32)) ∧
    (off = 0x014 → exact (s.gfB.setWidth 32)) ∧
    (off = 0x018 → result (s.gfResult.setWidth 32)) ∧
    (∀ c : Fin 4, off.toNat = 0x020 + 4 * c.val → result (pack s.state c)) ∧
    (∀ c : Fin 4, off.toNat = 0x030 + 4 * c.val → exact (pack s.key c)) ∧
    (∀ (r : Fin 11) (c : Fin 4), off.toNat = 0x100 + 16 * r.val + 4 * c.val → result (pack s.rk[r] c)) ∧
    (off.toNat % 4 = 0 → off.toNat = 0x01C ∨ (0x040 ≤ off.toNat ∧ off.toNat ≤ 0x0FC) ∨ 0x1B0 ≤ off.toNat →
      exact 0x00000000)

/-- R22: the bit layout of the STATUS word, PHASE codes of R27 included; the reserved bits read as 0. -/
def Obligations.StatusWordHasTheListedLayout : Prop :=
  ∀ st : Status,
    st.word.getLsbD 0 = st.busy ∧ st.word.getLsbD 1 = st.done ∧ st.word.getLsbD 2 = st.ksValid ∧
    st.word.getLsbD 3 = st.errIllegal ∧ st.word.getLsbD 4 = st.errNokey ∧ st.word.getLsbD 5 = st.errBusywr ∧
    st.word.extractLsb' 6 2 = 0 ∧ st.word.extractLsb' 8 4 = st.round ∧
    st.word.extractLsb' 12 3 =
      (match st.phase with
        | .idle => 0 | .exec => 1 | .keyExp => 2 | .enc => 3 | .dec => 4 | .unused5 => 5 | .unused6 => 6
        | .unused7 => 7) ∧
    st.word.getLsbD 15 = false ∧ st.word.extractLsb' 16 8 = st.op ∧ st.word.extractLsb' 24 8 = 0

/-- What a performed write to each writable register but CMD changes, and that it changes nothing else (R42): STATUS and
IRQEN at any time, the others while BUSY = 0. A KEY write clears KS_VALID even when it writes the old value (R44). -/
def Obligations.HostWriteUpdatesTheRegister : Prop :=
  ∀ (s : State) (ms : List Move) (off : BitVec 12) (v : Word32),
    s.status.fsmLegal = true → s.rst = false → s.schedule = .host (.write off .bytes4 v) :: ms →
    (off = 0x008 → step s = .next { s with
      schedule := ms, bus := .written
      status := { s.status with
        done := s.status.done && !v.getLsbD 1
        errIllegal := s.status.errIllegal && !v.getLsbD 3
        errNokey := s.status.errNokey && !v.getLsbD 4
        errBusywr := s.status.errBusywr && !v.getLsbD 5 } }) ∧
    (off = 0x00C → step s = .next { s with schedule := ms, bus := .written, irqen := v.extractLsb' 0 2 }) ∧
    (s.status.busy = false →
      (off = 0x010 → step s = .next { s with schedule := ms, bus := .written, gfA := v.extractLsb' 0 8 }) ∧
      (off = 0x014 → step s = .next { s with schedule := ms, bus := .written, gfB := v.extractLsb' 0 8 }) ∧
      (∀ c : Fin 4, off.toNat = 0x020 + 4 * c.val →
        step s = .next { s with schedule := ms, bus := .written, state := unpack v c s.state }) ∧
      (∀ c : Fin 4, off.toNat = 0x030 + 4 * c.val →
        step s = .next { s with
          schedule := ms, bus := .written, key := unpack v c s.key, status := { s.status with ksValid := false } }))

/-- R46: while BUSY = 1 a write to CMD (the word is not decoded), GF_A, GF_B, STATE or KEY changes no register and sets
ERR_BUSYWR; STATUS and IRQEN writes are performed as usual. -/
def Obligations.WriteWhileBusyIsDroppedAndFlagged : Prop :=
  ∀ (s : State) (ms : List Move) (off : BitVec 12) (v : Word32),
    s.status.fsmLegal = true → s.rst = false → s.status.busy = true →
    s.schedule = .host (.write off .bytes4 v) :: ms →
    ((off = 0x004 ∨ off = 0x010 ∨ off = 0x014 ∨ ∃ c : Fin 4, off.toNat = 0x020 + 4 * c.val ∨ off.toNat = 0x030 + 4 * c.val) →
      step s = .next { s with schedule := ms, bus := .written, status := { s.status with errBusywr := true } }) ∧
    (off = 0x00C → step s = .next { s with schedule := ms, bus := .written, irqen := v.extractLsb' 0 2 }) ∧
    (off = 0x008 → step s = .next { s with
      schedule := ms, bus := .written
      status := { s.status with
        done := s.status.done && !v.getLsbD 1
        errIllegal := s.status.errIllegal && !v.getLsbD 3
        errNokey := s.status.errNokey && !v.getLsbD 4
        errBusywr := s.status.errBusywr && !v.getLsbD 5 } })

/-- R45: a performed write to ID, GF_RESULT or an RK word is ignored: no register and no error flag changes, and it gets
no bus error. -/
def Obligations.WriteToAReadOnlyRegisterIsIgnored : Prop :=
  ∀ (s : State) (ms : List Move) (off : BitVec 12) (v : Word32),
    s.status.fsmLegal = true → s.rst = false → s.schedule = .host (.write off .bytes4 v) :: ms →
    (off = 0x000 ∨ off = 0x018 ∨ ∃ (r : Fin 11) (c : Fin 4), off.toNat = 0x100 + 16 * r.val + 4 * c.val) →
    step s = .next { s with schedule := ms, bus := .written }

/-- R40: reserved offsets read as 0 and ignore writes, with no flag and no bus error; the reserved bits of STATUS, IRQEN,
GF_A, GF_B and (while BUSY = 0, R47) GF_RESULT read as 0 and ignore writes. -/
def Obligations.ReservedSpaceReadsZeroAndIgnoresWrites : Prop :=
  ∀ (s : State) (ms : List Move) (off : BitVec 12) (v : Word32), s.status.fsmLegal = true → s.rst = false →
    (off.toNat % 4 = 0 → off.toNat = 0x01C ∨ (0x040 ≤ off.toNat ∧ off.toNat ≤ 0x0FC) ∨ 0x1B0 ≤ off.toNat →
      (s.schedule = .host (.read off .bytes4) :: ms →
        step s = .next { s with schedule := ms, bus := .data 0x00000000 }) ∧
      (s.schedule = .host (.write off .bytes4 v) :: ms →
        step s = .next { s with schedule := ms, bus := .written })) ∧
    (s.schedule = .host (.read off .bytes4) :: ms → ∀ t d, step s = .next t → t.bus = .data d →
      (off = 0x008 → d &&& 0xFF0080C0 = 0) ∧
      (off = 0x00C → d &&& 0xFFFFFFFC = 0) ∧
      (off = 0x010 ∨ off = 0x014 ∨ (off = 0x018 ∧ s.status.busy = false) → d &&& 0xFFFFFF00 = 0)) ∧
    (∀ w : Word32,
      (off = 0x008 ∧ v &&& 0x00FF7F3F = w &&& 0x00FF7F3F) ∨ (off = 0x00C ∧ v &&& 0x3 = w &&& 0x3) ∨
        ((off = 0x010 ∨ off = 0x014 ∨ off = 0x018) ∧ v &&& 0xFF = w &&& 0xFF) →
      step (s.setSchedule (.host (.write off .bytes4 v) :: ms)) =
        step (s.setSchedule (.host (.write off .bytes4 w) :: ms)))

/-- R43: a STATUS write clears DONE, ERR_ILLEGAL, ERR_NOKEY and ERR_BUSYWR where the written bit is 1, and ignores every
other bit, whether or not BUSY = 1. -/
def Obligations.StatusWriteClearsTheFlagsWrittenOne : Prop :=
  ∀ (s : State) (ms : List Move) (v : Word32),
    s.status.fsmLegal = true → s.rst = false → s.schedule = .host (.write 0x008 .bytes4 v) :: ms →
    ∃ t, step s = .next t ∧
      t.status.done = (s.status.done && !v.getLsbD 1) ∧
      t.status.errIllegal = (s.status.errIllegal && !v.getLsbD 3) ∧
      t.status.errNokey = (s.status.errNokey && !v.getLsbD 4) ∧
      t.status.errBusywr = (s.status.errBusywr && !v.getLsbD 5) ∧
      t.status.busy = s.status.busy ∧ t.status.ksValid = s.status.ksValid ∧ t.status.round = s.status.round ∧
      t.status.phase = s.status.phase ∧ t.status.op = s.status.op ∧
      t = { s with schedule := ms, bus := .written, status := t.status }

/-- R37: lane i of word c is the byte in row i of column c, and unpacking a word into column c replaces that column and no
other; so a packed word read back is the word written. -/
def Obligations.PackAndUnpackFollowTheLanes : Prop :=
  ∀ (m : ByteMatrix) (v : Word32) (c d : Fin 4),
    (∀ i : Fin 4, (pack m c).extractLsb' (8 * i.val) 8 = m.get i c) ∧
    (∀ i : Fin 4, (unpack v c m).get i c = v.extractLsb' (8 * i.val) 8) ∧
    (d ≠ c → ∀ i : Fin 4, (unpack v c m).get i d = m.get i d) ∧
    pack (unpack v c m) c = v ∧ (d ≠ c → pack (unpack v c m) d = pack m d)

/-- R9: the 16-byte block maps onto the matrix column by column, and back. -/
def Obligations.BlockMapsColumnByColumn : Prop :=
  (∀ (b : Vector Byte 16) (r c : Fin 4), (ByteMatrix.ofBlock b).get r c = b[4 * c.val + r.val]) ∧
  (∀ (b : Vector Byte 16) (k : Fin 16), (ByteMatrix.ofBlock b).blockByte k = b[k]) ∧
  (∀ m : ByteMatrix, ByteMatrix.ofBlock (Vector.ofFn fun k => m.blockByte k) = m)

/-- R35 and R38: BASE is 4 KiB aligned, the window is BASE .. BASE + 0xFFF, each address in it has one offset, and byte
lane i of a transaction at `off` is the byte at BASE + off + i, so that byte k of a block copied word by word is lane
k mod 4 of word k div 4. That BASE is a page number times 4096 is the model's choice (log 9). -/
def Obligations.WindowAddressesAreBasePlusOffset : Prop :=
  Config.base % 4096 = 0 ∧
  (∀ off : BitVec 12, windowOffset? (Config.base + off.toNat) = some off) ∧
  (∀ addr : Nat, (windowOffset? addr).isSome = true ↔ Config.base ≤ addr ∧ addr ≤ Config.base + 0xFFF) ∧
  (∀ (off : BitVec 12) (i : Fin 4), off.toNat % 4 = 0 →
    windowOffset? (laneAddress off i) = some (off + BitVec.ofNat 12 i.val)) ∧
  (∀ (m : ByteMatrix) (k : Fin 16) (i c : Fin 4), 4 * c.val + i.val = k.val → lane (pack m c) i = m.blockByte k)

/-! ## Errors and the interrupt line (60_exceptions.md) -/

/-- R129: which error flag, if any, a host write sets, in the order bus error, ERR_BUSYWR, ERR_ILLEGAL, ERR_NOKEY; the
three conditions exclude each other. A STATUS write sets none (R43), and no read does (R41). -/
def Obligations.OneTransactionSetsAtMostOneError : Prop :=
  ∀ (s t : State) (ms : List Move) (off : BitVec 12) (size : AccessSize) (v : Word32), step s = .next t →
    (s.schedule = .host (.read off size) :: ms → t.status = s.status) ∧
    (s.schedule = .host (.write off size v) :: ms →
      let performed := size = .bytes4 ∧ off.toNat % 4 = 0
      let operand := off = 0x004 ∨ off = 0x010 ∨ off = 0x014 ∨ (0x020 ≤ off.toNat ∧ off.toNat < 0x040)
      let isBusywr := performed ∧ s.status.busy = true ∧ operand
      let isIllegal := performed ∧ s.status.busy = false ∧ off = 0x004 ∧ legal v = false
      let isNokey := performed ∧ s.status.busy = false ∧ off = 0x004 ∧ legal v = true ∧ v.extractLsb' 0 8 = 0x16 ∧
        s.status.ksValid = false
      (¬ performed → t.bus = .error 0x00000000 ∧ t.status = s.status) ∧
      (off ≠ 0x008 →
        (t.status.errBusywr = true ↔ s.status.errBusywr = true ∨ isBusywr) ∧
        (t.status.errIllegal = true ↔ s.status.errIllegal = true ∨ isIllegal) ∧
        (t.status.errNokey = true ↔ s.status.errNokey = true ∨ isNokey)) ∧
      (off = 0x008 →
        (t.status.errBusywr = true → s.status.errBusywr = true) ∧
        (t.status.errIllegal = true → s.status.errIllegal = true) ∧
        (t.status.errNokey = true → s.status.errNokey = true)))

/-- R128: `irq` on the bits of the STATUS word and of IRQEN; a STATUS write with a 1 in a source's bit clears that bit, and one
with a 1 in every source's bit drops `irq`; DONE is also cleared by the next accepted command. -/
def Obligations.IrqIsEnabledDoneOrEnabledError : Prop :=
  (∀ s : State, s.irq = true ↔
    (s.status.word.getLsbD 1 = true ∧ s.irqen.getLsbD 0 = true) ∨
    ((s.status.word.getLsbD 3 = true ∨ s.status.word.getLsbD 4 = true ∨ s.status.word.getLsbD 5 = true) ∧
      s.irqen.getLsbD 1 = true)) ∧
  (∀ (s : State) (ms : List Move) (v : Word32), s.status.fsmLegal = true → s.rst = false →
    s.schedule = .host (.write 0x008 .bytes4 v) :: ms → ∃ t, step s = .next t ∧
      (∀ b ∈ [1, 3, 4, 5], v.getLsbD b = true → t.status.word.getLsbD b = false) ∧
      ((∀ b ∈ [1, 3, 4, 5], v.getLsbD b = true) → t.irq = false)) ∧
  (∀ s t : State, step s = .next t → s.status.busy = false → t.status.busy = true → t.status.done = false)

/-- R26: an error flag becomes 1 only under the conditions of R124, R125 and R126, and becomes 0 only by a STATUS write
with a 1 in its bit or by reset; so a command that completes clears none. -/
def Obligations.ErrorFlagsChangeOnlyAsListed : Prop :=
  ∀ s t : State, step s = .next t →
    let clearedBy (bit : Nat) := (∃ ms, s.schedule = .rstAssert :: ms) ∨
      ∃ ms v, s.schedule = .host (.write 0x008 .bytes4 v) :: ms ∧ v.getLsbD bit = true
    (s.status.errIllegal = true → t.status.errIllegal = false → clearedBy 3) ∧
    (s.status.errNokey = true → t.status.errNokey = false → clearedBy 4) ∧
    (s.status.errBusywr = true → t.status.errBusywr = false → clearedBy 5) ∧
    (s.status.errIllegal = false → t.status.errIllegal = true → s.status.busy = false ∧
      ∃ ms v, s.schedule = .host (.write 0x004 .bytes4 v) :: ms ∧ legal v = false) ∧
    (s.status.errNokey = false → t.status.errNokey = true → s.status.busy = false ∧ s.status.ksValid = false ∧
      ∃ ms v, s.schedule = .host (.write 0x004 .bytes4 v) :: ms ∧ legal v = true ∧ v.extractLsb' 0 8 = 0x16) ∧
    (s.status.errBusywr = false → t.status.errBusywr = true → s.status.busy = true ∧
      ∃ ms off v, s.schedule = .host (.write off .bytes4 v) :: ms ∧
        (off = 0x004 ∨ off = 0x010 ∨ off = 0x014 ∨ (0x020 ≤ off.toNat ∧ off.toNat < 0x040)))

/-! ## Who runs what -/

/-- A CMD write of a word that decodes to `i`, performed while BUSY = 0, is `exec` of `i` (R42, R108); what the step adds
is that the move is used up and the bus answers OK. -/
def Obligations.CmdWriteRunsTheDecodedCommand : Prop :=
  ∀ (s : State) (ms : List Move) (v : Word32) (i : Instr),
    s.status.fsmLegal = true → s.rst = false → s.status.busy = false → decodeWord v = .ok i →
    s.schedule = .host (.write 0x004 .bytes4 v) :: ms →
    step s = exec i { s with schedule := ms, bus := .written }

/-- The engine's move while BUSY = 1 is `exec` of the command that STATUS.OP names, with STATUS.ROUND as the index of an
ADDROUNDKEY (R109, R28, R31); what the step adds is that the move is used up. While BUSY = 0 the engine's move changes
nothing but the list of moves (R109, R140). That the engine moves when no move is listed, and that a move with nothing to do
is a step, is the model's choice (log 1). -/
def Obligations.EngineMoveRunsTheCommandInProgress : Prop :=
  (∀ (s : State) (i : Instr),
    s.status.fsmLegal = true → s.rst = false → s.status.busy = true → opcodeOf i = s.status.op →
    (s.status.op = 0x16 → ridxOf i = s.status.round) →
    (s.schedule = [] → step s = exec i s) ∧
    (∀ ms, s.schedule = .engine :: ms → step s = exec i { s with schedule := ms })) ∧
  (∀ s : State, s.status.fsmLegal = true → s.rst = false → s.status.busy = false →
    (s.schedule = [] → step s = .next s) ∧
    (∀ ms, s.schedule = .engine :: ms → step s = .next { s with schedule := ms }))

/-! ## The functions (files 40 to 44) -/

/-- R65: multiply is commutative, has 0 and 1, is associative, distributes over XOR, and every nonzero byte has exactly one
inverse. -/
def Obligations.MultiplyHasTheFieldLaws : Prop :=
  (∀ a b : Byte, multiply a b = multiply b a) ∧
  (∀ a : Byte, multiply a 0 = 0 ∧ multiply a 1 = a) ∧
  (∀ a b c : Byte, multiply (multiply a b) c = multiply a (multiply b c)) ∧
  (∀ a b c : Byte, multiply a (b ^^^ c) = multiply a b ^^^ multiply a c) ∧
  (∀ a : Byte, a ≠ 0 → ∃ b, multiply a b = 1 ∧ ∀ b', multiply a b' = 1 → b' = b)

/-- R66: xtime is a shift and a conditional XOR with 0x1B. -/
def Obligations.XtimeIsShiftAndConditionalXor : Prop :=
  (∀ a : Byte, xtime a = multiply 0x02 a ∧ xtime a = (a <<< 1) ^^^ (if a.getLsbD 7 then 0x1B else 0x00)) ∧
  xtime 0x80 = 0x1B ∧ xtime 0x57 = 0xAE

/-- R68: the laws and the listed values of inverse. -/
def Obligations.InverseIsTheFieldInverse : Prop :=
  inverse 0 = 0 ∧ (∀ a : Byte, a ≠ 0 → multiply a (inverse a) = 1) ∧
  inverse 0xFF = 0x1C ∧ inverse 0xF7 = 0x8C ∧ inverse 0x4F = 0x09 ∧ inverse 0x01 = 0x01 ∧
  (∀ a : Byte, inverse (inverse a) = a) ∧ Function.Bijective inverse

/-- R72 and R74: both affine transforms bit by bit, and that each undoes the other. -/
def Obligations.AffineTransformsAreInverse : Prop :=
  (∀ (x : Byte) (i : Fin 8), (affine x).getLsbD i.val =
    (x.getLsbD i.val ^^ x.getLsbD ((i.val + 4) % 8) ^^ x.getLsbD ((i.val + 5) % 8) ^^ x.getLsbD ((i.val + 6) % 8)
      ^^ x.getLsbD ((i.val + 7) % 8) ^^ (0x63 : Byte).getLsbD i.val)) ∧
  (∀ (x : Byte) (i : Fin 8), (inverseAffine x).getLsbD i.val =
    ((x ^^^ 0x63).getLsbD ((i.val + 2) % 8) ^^ (x ^^^ 0x63).getLsbD ((i.val + 5) % 8)
      ^^ (x ^^^ 0x63).getLsbD ((i.val + 7) % 8))) ∧
  (∀ x : Byte, inverseAffine (affine x) = x ∧ affine (inverseAffine x) = x)

/-- R77: the S-boxes are inverse bijections with no fixed and no complement fixed point. -/
def Obligations.SboxesAreInverseBijections : Prop :=
  (∀ x : Byte, inverseSbox (forwardSbox x) = x) ∧ (∀ x : Byte, forwardSbox (inverseSbox x) = x) ∧
  Function.Bijective forwardSbox ∧ Function.Bijective inverseSbox ∧
  (∀ x : Byte, forwardSbox x ≠ x ∧ forwardSbox x ≠ x ^^^ 0xFF) ∧ forwardSbox 0x00 = 0x63 ∧ inverseSbox 0x00 = 0x52

/-- R89: the inverse laws of the state transformations, that byte substitutions commute with row shifts, and that MC and
IMC are linear over XOR. -/
def Obligations.TransformationsHaveTheInverseLaws : Prop :=
  (∀ s k : ByteMatrix, invSubBytes (subBytes s) = s ∧ invShiftRows (shiftRows s) = s ∧ invMixColumns (mixColumns s) = s ∧
    addRoundKey (addRoundKey s k) k = s) ∧
  (∀ s : ByteMatrix, subBytes (shiftRows s) = shiftRows (subBytes s) ∧ subBytes (invShiftRows s) = invShiftRows (subBytes s) ∧
    invSubBytes (shiftRows s) = shiftRows (invSubBytes s) ∧
    invSubBytes (invShiftRows s) = invShiftRows (invSubBytes s)) ∧
  (∀ s k : ByteMatrix, mixColumns (addRoundKey s k) = addRoundKey (mixColumns s) (mixColumns k) ∧
    invMixColumns (addRoundKey s k) = addRoundKey (invMixColumns s) (invMixColumns k))

/-- R86 and R87: MixColumns and InvMixColumns element by element, with the constant matrices written out. -/
def Obligations.MixColumnsIsTheListedMatrixProduct : Prop :=
  let mf : List (List Byte) :=
    [[0x02, 0x03, 0x01, 0x01], [0x01, 0x02, 0x03, 0x01], [0x01, 0x01, 0x02, 0x03], [0x03, 0x01, 0x01, 0x02]]
  let mi : List (List Byte) :=
    [[0x0E, 0x0B, 0x0D, 0x09], [0x09, 0x0E, 0x0B, 0x0D], [0x0D, 0x09, 0x0E, 0x0B], [0x0B, 0x0D, 0x09, 0x0E]]
  let entry (m : List (List Byte)) (r k : Fin 4) : Byte := (m.getD r.val []).getD k.val 0
  ∀ (s : ByteMatrix) (r c : Fin 4),
    (mixColumns s).get r c = multiply (entry mf r 0) (s.get 0 c) ^^^ multiply (entry mf r 1) (s.get 1 c)
      ^^^ multiply (entry mf r 2) (s.get 2 c) ^^^ multiply (entry mf r 3) (s.get 3 c) ∧
    (invMixColumns s).get r c = multiply (entry mi r 0) (s.get 0 c) ^^^ multiply (entry mi r 1) (s.get 1 c)
      ^^^ multiply (entry mi r 2) (s.get 2 c) ^^^ multiply (entry mi r 3) (s.get 3 c) ∧
    (∀ k : Fin 4, multiply (entry mi r 0) (entry mf 0 k) ^^^ multiply (entry mi r 1) (entry mf 1 k)
      ^^^ multiply (entry mi r 2) (entry mf 2 k) ^^^ multiply (entry mi r 3) (entry mf 3 k) = if r = k then 1 else 0)

/-- R97: the recurrence of the round constant and its ten values. -/
def Obligations.RoundConstantsFollowTheRecurrence : Prop :=
  rc 1 = 0x01 ∧ (∀ i : Nat, 1 < i → rc i = multiply 2 (rc (i - 1)) ∧ rc i = xtime (rc (i - 1))) ∧
  (List.range 10).map (fun i => rc (i + 1)) = [0x01, 0x02, 0x04, 0x08, 0x10, 0x20, 0x40, 0x80, 0x1B, 0x36]

/-- R100 and R101: one round of the schedule byte by byte, and the schedule as ten such rounds from the key. -/
def Obligations.ScheduleFollowsTheRecursion : Prop :=
  (∀ (k : ByteMatrix) (r : Nat) (i : Fin 4), 1 ≤ r → r ≤ 10 →
    let w4 := k.get i 0 ^^^ forwardSbox (k.get (i + 1) 3) ^^^ (if i = 0 then rc r else 0x00)
    (nextKey k r).get i 0 = w4 ∧ (nextKey k r).get i 1 = w4 ^^^ k.get i 1 ∧
    (nextKey k r).get i 2 = w4 ^^^ k.get i 1 ^^^ k.get i 2 ∧
    (nextKey k r).get i 3 = w4 ^^^ k.get i 1 ^^^ k.get i 2 ^^^ k.get i 3) ∧
  (∀ key : ByteMatrix, (expand key)[0] = key ∧
    ∀ (r : Nat) (h : r < 10), (expand key)[r + 1] = nextKey (expand key)[r] (r + 1))

/-- R107: decryption undoes encryption under the same key, and encryption undoes decryption. -/
def Obligations.DecryptionInvertsEncryption : Prop :=
  ∀ m k : ByteMatrix, decryptBlock (encryptBlock m k) k = m ∧ encryptBlock (decryptBlock m k) k = m

/-! ## Acceptance and completion of the commands -/

/-- R108: what a CMD write performed while BUSY = 0 does with every one of the 2^32 words: an illegal word sets
ERR_ILLEGAL only (R124), a legal ADDROUNDKEY with KS_VALID = 0 sets ERR_NOKEY only (R125), any other is accepted. -/
def Obligations.CmdWriteAcceptsOrRejectsEveryWord : Prop :=
  ∀ (s : State) (ms : List Move) (v : Word32),
    s.status.fsmLegal = true → s.rst = false → s.status.busy = false →
    s.schedule = .host (.write 0x004 .bytes4 v) :: ms →
    let op : Byte := v.extractLsb' 0 8
    let ridx : BitVec 4 := v.extractLsb' 8 4
    let u : State := { s with schedule := ms, bus := .written }
    let goes (phase : Phase) (round : BitVec 4) : Status :=
      { s.status with busy := true, done := false, op := op, phase := phase, round := round }
    step s = .next
      (if legal v = false then { u with status := { s.status with errIllegal := true } }
      else if op = 0x16 then
        if s.status.ksValid then { u with status := goes .exec ridx }
        else { u with status := { s.status with errNokey := true } }
      else if op = 0x20 then
        { u with status := { goes .keyExp 1 with ksValid := false }, rk := s.rk.set 0 s.key }
      else if op = 0x30 then
        if s.status.ksValid then { u with status := goes .enc 0 }
        else { u with status := goes .keyExp 1, rk := s.rk.set 0 s.key }
      else if op = 0x31 then
        if s.status.ksValid then { u with status := goes .dec 10 }
        else { u with status := goes .keyExp 1, rk := s.rk.set 0 s.key }
      else { u with status := goes .exec 0 })

/-- GFMUL, GFINV, SBOX, INVSBOX complete (R70, R71, R79, R80): accepted while BUSY = 0, to (EXEC, 0); their EXEC step
writes GF_RESULT and completes (R110, R111); nothing else changes. -/
def Obligations.ByteCommandsComplete : Prop :=
  ∀ (i : Instr) (op : Byte) (result : Byte → Byte → Byte),
    (i, op, result) ∈ [(Instr.gfmul, (0x01 : Byte), multiply), (.gfinv, 0x02, fun a _ => inverse a),
      (.sbox, 0x03, fun a _ => forwardSbox a), (.invSbox, 0x04, fun a _ => inverseSbox a)] →
    ∀ s : State,
      (s.status.busy = false → exec i s = .next { s with
        status := { s.status with busy := true, done := false, op := op, phase := .exec, round := 0 } }) ∧
      (s.status.busy = true → s.status.phase = .exec → exec i s = .next { s with
        gfResult := result s.gfA s.gfB
        status := { s.status with busy := false, done := true, phase := .idle, round := 0 } })

/-- SUBBYTES to INVMIXCOLUMNS complete (R90 to R95): accepted while BUSY = 0, to (EXEC, 0); their EXEC step transforms
STATE and completes (R110, R111); nothing else changes. -/
def Obligations.StateCommandsComplete : Prop :=
  ∀ (i : Instr) (op : Byte) (transform : ByteMatrix → ByteMatrix),
    (i, op, transform) ∈ [(Instr.subBytes, (0x10 : Byte), subBytes), (.invSubBytes, 0x11, invSubBytes),
      (.shiftRows, 0x12, shiftRows), (.invShiftRows, 0x13, invShiftRows),
      (.mixColumns, 0x14, mixColumns), (.invMixColumns, 0x15, invMixColumns)] →
    ∀ s : State,
      (s.status.busy = false → exec i s = .next { s with
        status := { s.status with busy := true, done := false, op := op, phase := .exec, round := 0 } }) ∧
      (s.status.busy = true → s.status.phase = .exec → exec i s = .next { s with
        state := transform s.state
        status := { s.status with busy := false, done := true, phase := .idle, round := 0 } })

/-- ADDROUNDKEY r completes (R96): accepted while BUSY = 0 and KS_VALID = 1, with ROUND = r; refused with ERR_NOKEY and
nothing else while KS_VALID = 0 (R125); its EXEC step XORs RK[ROUND] into STATE and completes. An index above 10 sets
ERR_ILLEGAL before KS_VALID is looked at (R129; log 11). -/
def Obligations.AddRoundKeyCompletes : Prop :=
  ∀ (r : BitVec 4) (s : State),
    (s.status.busy = false → r.toNat ≤ 10 →
      (s.status.ksValid = true → exec (.addRoundKey r) s = .next { s with
        status := { s.status with busy := true, done := false, op := 0x16, phase := .exec, round := r } }) ∧
      (s.status.ksValid = false → exec (.addRoundKey r) s = .next { s with
        status := { s.status with errNokey := true } })) ∧
    (s.status.busy = false → 10 < r.toNat → exec (.addRoundKey r) s = .next { s with
      status := { s.status with errIllegal := true } }) ∧
    (s.status.busy = true → s.status.phase = .exec → ∀ h : s.status.round.toNat < 11,
      exec (.addRoundKey r) s = .next { s with
        state := addRoundKey s.state s.rk[s.status.round.toNat]
        status := { s.status with busy := false, done := true, phase := .idle, round := 0 } })

/-- KEYEXPAND completes (R103): accepted while BUSY = 0, with KS_VALID cleared and RK[0] written; each KEYEXP step writes
one round key, and the tenth sets KS_VALID and completes in the same atomic step (R104). -/
def Obligations.KeyExpandCompletes : Prop :=
  ∀ s : State,
    (s.status.busy = false → exec .keyExpand s = .next { s with
      rk := s.rk.set 0 s.key
      status := { s.status with busy := true, done := false, ksValid := false, op := 0x20, phase := .keyExp, round := 1 } }) ∧
    (s.status.busy = true → s.status.phase = .keyExp →
      (∀ (r : Nat) (_ : 1 ≤ r) (_ : r < 10), s.status.round.toNat = r →
        exec .keyExpand s = .next { s with
          rk := s.rk.set r (nextKey s.rk[r - 1] r)
          status := { s.status with round := s.status.round + 1 } }) ∧
      (s.status.round = 10 → s.status.op = 0x20 → exec .keyExpand s = .next { s with
        rk := s.rk.set 10 (nextKey s.rk[9] 10)
        status := { s.status with ksValid := true, busy := false, done := true, phase := .idle, round := 0 } }))

/-- ENCRYPT completes (R118): acceptance with and without a valid schedule (R108), its KEYEXP steps (R104), and its steps
at (ENC, 0), (ENC, 1..9) and (ENC, 10), the last of which completes (R112, R113, R114). -/
def Obligations.EncryptCompletes : Prop :=
  ∀ s : State,
    (s.status.busy = false → s.status.ksValid = true → exec .encrypt s = .next { s with
      status := { s.status with busy := true, done := false, op := 0x30, phase := .enc, round := 0 } }) ∧
    (s.status.busy = false → s.status.ksValid = false → exec .encrypt s = .next { s with
      rk := s.rk.set 0 s.key
      status := { s.status with busy := true, done := false, op := 0x30, phase := .keyExp, round := 1 } }) ∧
    (s.status.busy = true → s.status.phase = .keyExp →
      (∀ (r : Nat) (_ : 1 ≤ r) (_ : r < 10), s.status.round.toNat = r → exec .encrypt s = .next { s with
        rk := s.rk.set r (nextKey s.rk[r - 1] r)
        status := { s.status with round := s.status.round + 1 } }) ∧
      (s.status.round = 10 → s.status.op = 0x30 → exec .encrypt s = .next { s with
        rk := s.rk.set 10 (nextKey s.rk[9] 10)
        status := { s.status with ksValid := true, phase := .enc, round := 0 } })) ∧
    (s.status.busy = true → s.status.phase = .enc →
      (s.status.round = 0 → exec .encrypt s = .next { s with
        state := addRoundKey s.state s.rk[0]
        status := { s.status with round := 1 } }) ∧
      (∀ (r : Nat) (_ : 1 ≤ r) (_ : r ≤ 9), s.status.round.toNat = r → exec .encrypt s = .next { s with
        state := addRoundKey (mixColumns (shiftRows (subBytes s.state))) s.rk[r]
        status := { s.status with round := s.status.round + 1 } }) ∧
      (s.status.round = 10 → exec .encrypt s = .next { s with
        state := addRoundKey (shiftRows (subBytes s.state)) s.rk[10]
        status := { s.status with busy := false, done := true, phase := .idle, round := 0 } }))

/-- DECRYPT completes (R119): acceptance with and without a valid schedule (R108), its KEYEXP steps (R104), and its steps
at (DEC, 10), (DEC, 9..1) and (DEC, 0), the last of which completes (R115, R116, R117). -/
def Obligations.DecryptCompletes : Prop :=
  ∀ s : State,
    (s.status.busy = false → s.status.ksValid = true → exec .decrypt s = .next { s with
      status := { s.status with busy := true, done := false, op := 0x31, phase := .dec, round := 10 } }) ∧
    (s.status.busy = false → s.status.ksValid = false → exec .decrypt s = .next { s with
      rk := s.rk.set 0 s.key
      status := { s.status with busy := true, done := false, op := 0x31, phase := .keyExp, round := 1 } }) ∧
    (s.status.busy = true → s.status.phase = .keyExp →
      (∀ (r : Nat) (_ : 1 ≤ r) (_ : r < 10), s.status.round.toNat = r → exec .decrypt s = .next { s with
        rk := s.rk.set r (nextKey s.rk[r - 1] r)
        status := { s.status with round := s.status.round + 1 } }) ∧
      (s.status.round = 10 → s.status.op = 0x31 → exec .decrypt s = .next { s with
        rk := s.rk.set 10 (nextKey s.rk[9] 10)
        status := { s.status with ksValid := true, phase := .dec, round := 10 } })) ∧
    (s.status.busy = true → s.status.phase = .dec →
      (s.status.round = 10 → exec .decrypt s = .next { s with
        state := addRoundKey s.state s.rk[10]
        status := { s.status with round := 9 } }) ∧
      (∀ (r : Nat) (_ : 1 ≤ r) (_ : r ≤ 9), s.status.round.toNat = r → exec .decrypt s = .next { s with
        state := invMixColumns (addRoundKey (invShiftRows (invSubBytes s.state)) s.rk[r])
        status := { s.status with round := s.status.round - 1 } }) ∧
      (s.status.round = 0 → exec .decrypt s = .next { s with
        state := addRoundKey (invShiftRows (invSubBytes s.state)) s.rk[0]
        status := { s.status with busy := false, done := true, phase := .idle, round := 0 } }))

/-- The engine's step at (KEYEXP, r), as the next listed move or with none listed (log 1): RK[r] <- NextKey(RK[r-1], r), then the next round, or after RK[10]
what STATUS.OP says, in one step (R104); in KEYEXP OP is one of those three, and the round keys below ROUND are those of
Expand(KEY), in every reachable state. -/
def Obligations.KeyExpansionStepFollowsTheRule : Prop :=
  (∀ (s : State) (ms : List Move) (r : Nat) (_ : 1 ≤ r) (_ : r ≤ 10),
    s.rst = false → (s.schedule = .engine :: ms ∨ (s.schedule = [] ∧ ms = [])) → s.status.busy = true → s.status.phase = .keyExp → s.status.round.toNat = r →
    s.status.op = 0x20 ∨ s.status.op = 0x30 ∨ s.status.op = 0x31 →
    step s = .next { s with
      schedule := ms
      rk := s.rk.set r (nextKey s.rk[r - 1] r)
      status :=
        if r < 10 then { s.status with round := s.status.round + 1 }
        else if s.status.op = 0x20 then
          { s.status with ksValid := true, busy := false, done := true, phase := .idle, round := 0 }
        else if s.status.op = 0x30 then { s.status with ksValid := true, phase := .enc, round := 0 }
        else { s.status with ksValid := true, phase := .dec, round := 10 } }) ∧
  (∀ s : State, Reachable s → s.status.phase = .keyExp →
    (s.status.op = 0x20 ∨ s.status.op = 0x30 ∨ s.status.op = 0x31) ∧
    ∀ (r : Nat) (h : r < 11), r < s.status.round.toNat → s.rk[r] = (expand s.key)[r])

/-! ## Whole commands, alone on the block -/

/-- A KEYEXPAND presented to an idle block and left alone (the engine then moves by log 1) ends, ten engine steps after its acceptance, with
RK = Expand(KEY), KS_VALID = 1, DONE = 1 and BUSY = 0, every other register unchanged (R103). -/
def Obligations.KeyExpandRunBuildsTheSchedule : Prop :=
  ∀ s : State, s.status.fsmLegal = true → s.rst = false → s.status.busy = false →
    s.schedule = [.host (.write 0x004 .bytes4 0x00000020)] →
    runSteps (1 + 10) s = .next { s with
      schedule := [], bus := .written, rk := expand s.key
      status := { s.status with
        busy := false, done := true, ksValid := true, op := 0x20, phase := .idle, round := 0 } }

/-- ENCRYPT presented to an idle block with STATE = M and KEY = K, and left alone (the engine then moves by log 1), ends with STATE = Encrypt(M, K);
DECRYPT with STATE = Decrypt(C, K). 11 engine steps follow acceptance with a valid schedule, 21 without (R121); RK is then
Expand(KEY), and every other register is unchanged (R118, R119). The premise on RK is the invariant of R33. -/
def Obligations.CipherRunsComputeTheCipherFunctions : Prop :=
  ∀ s : State, s.status.fsmLegal = true → s.rst = false → s.status.busy = false →
    (s.status.ksValid = true → s.rk = expand s.key) →
    let steps := if s.status.ksValid then 11 else 21
    let final (op : Byte) (result : ByteMatrix) : State := { s with
      schedule := [], bus := .written, state := result, rk := expand s.key
      status := { s.status with busy := false, done := true, ksValid := true, op := op, phase := .idle, round := 0 } }
    (s.schedule = [.host (.write 0x004 .bytes4 0x00000030)] →
      runSteps (1 + steps) s = .next (final 0x30 (encryptBlock s.state s.key))) ∧
    (s.schedule = [.host (.write 0x004 .bytes4 0x00000031)] →
      runSteps (1 + steps) s = .next (final 0x31 (decryptBlock s.state s.key)))

/-- With host transactions and engine steps interleaved in any order (R120, R49), the engine moving by log 1 once the moves
are used up: if ENCRYPT is accepted with STATE = M and
KEY = K, then at its completion, the first state with BUSY = 0 again, STATE = Encrypt(M, K); DECRYPT gives Decrypt(C, K).
Nothing but a reset event is kept out of the moves `ms`. -/
def Obligations.CipherResultHoldsUnderEveryInterleaving : Prop :=
  ∀ (s t : State) (ms : List Move) (k : Nat) (v : Word32),
    s.status.fsmLegal = true → s.rst = false → s.status.busy = false →
    (s.status.ksValid = true → s.rk = expand s.key) →
    v = 0x00000030 ∨ v = 0x00000031 → s.schedule = .host (.write 0x004 .bytes4 v) :: ms → Move.rstAssert ∉ ms →
    (∀ j : Nat, j < k → ∃ u, runSteps (1 + j) s = .next u ∧ u.status.busy = true) →
    runSteps (1 + k) s = .next t → t.status.busy = false →
    t.state = (if v = 0x00000030 then encryptBlock s.state s.key else decryptBlock s.state s.key) ∧
    t.rk = expand s.key ∧ t.key = s.key ∧ t.gfA = s.gfA ∧ t.gfB = s.gfB ∧ t.gfResult = s.gfResult ∧
    t.status.ksValid = true ∧ t.status.done = true ∧ t.status.op = v.extractLsb' 0 8

/-- The number of engine steps from acceptance to completion of every legal word, left alone (the engine then moves by
log 1), whatever the data (R121): BUSY = 1 before that many steps and BUSY = 0 with DONE = 1 at it. So every host program
reaches its end, at most 21 steps after its last move (R153, R154), if no transaction comes under reset (R152); the
observation there is that of R41, with the exact value of every register. -/
def Obligations.StepCountsAreFixed : Prop :=
  (∀ (s : State) (v : Word32), s.status.fsmLegal = true → s.rst = false → s.status.busy = false → legal v = true →
    s.schedule = [.host (.write 0x004 .bytes4 v)] →
    (v.extractLsb' 0 8 = 0x16 → s.status.ksValid = true) →
    let op : Byte := v.extractLsb' 0 8
    let count := if op = 0x20 then 10
      else if op = 0x30 ∨ op = 0x31 then (if s.status.ksValid then 11 else 21) else 1
    ∀ k : Nat, k ≤ count → ∃ t, runSteps (1 + k) s = .next t ∧
      (t.status.busy = true ↔ k < count) ∧ (t.status.done = true ↔ k = count)) ∧
  (∀ s : State, s.Inv → noHostUnderReset s.rst s.schedule = true →
    ∃ n t, n ≤ s.schedule.length + 21 ∧ EndsAt n s t) ∧
  (∀ (n : Nat) (s t : State), EndsAt n s t →
    (∀ off : BitVec 12, (memRead off t).2 = t) ∧
    t.observe 0x000 = 0x41455331 ∧ t.observe 0x008 = t.status.word ∧ t.observe 0x00C = t.irqen.setWidth 32 ∧
    t.observe 0x010 = t.gfA.setWidth 32 ∧ t.observe 0x014 = t.gfB.setWidth 32 ∧
    t.observe 0x018 = t.gfResult.setWidth 32 ∧
    (∀ (off : BitVec 12) (c : Fin 4), off.toNat = 0x020 + 4 * c.val → t.observe off = pack t.state c) ∧
    (∀ (off : BitVec 12) (c : Fin 4), off.toNat = 0x030 + 4 * c.val → t.observe off = pack t.key c) ∧
    (∀ (off : BitVec 12) (r : Fin 11) (c : Fin 4), off.toNat = 0x100 + 16 * r.val + 4 * c.val →
      t.observe off = pack t.rk[r] c))

/-! ## Frames: what a command leaves unchanged -/

/-- GFMUL, GFINV, SBOX and INVSBOX: whenever exec answers a next state, every register but GF_RESULT and STATUS is
unchanged, and of STATUS the error flags and KS_VALID are; while BUSY = 0 GF_RESULT is too, and while BUSY = 1 OP is. -/
def Obligations.ByteCommandsFrame : Prop :=
  ∀ (i : Instr) (s t : State), i ∈ [Instr.gfmul, .gfinv, .sbox, .invSbox] → exec i s = .next t →
    t = { s with gfResult := t.gfResult, status := t.status } ∧
    t.status.ksValid = s.status.ksValid ∧ t.status.errIllegal = s.status.errIllegal ∧
    t.status.errNokey = s.status.errNokey ∧ t.status.errBusywr = s.status.errBusywr ∧
    (s.status.busy = false → t.gfResult = s.gfResult) ∧ (s.status.busy = true → t.status.op = s.status.op)

/-- The seven state commands: whenever exec answers a next state, every register but STATE and STATUS is unchanged, RK and
KEY included; of STATUS KS_VALID and ERR_BUSYWR are, ERR_ILLEGAL and ERR_NOKEY but for ADDROUNDKEY; while BUSY = 0 STATE is
too, and while BUSY = 1 OP and every error flag are. -/
def Obligations.StateCommandsFrame : Prop :=
  ∀ (i : Instr) (s t : State),
    (i ∈ [Instr.subBytes, .invSubBytes, .shiftRows, .invShiftRows, .mixColumns, .invMixColumns] ∨
      ∃ r, i = .addRoundKey r) → exec i s = .next t →
    t = { s with state := t.state, status := t.status } ∧
    t.status.ksValid = s.status.ksValid ∧ t.status.errBusywr = s.status.errBusywr ∧
    ((∀ r, i ≠ .addRoundKey r) →
      t.status.errIllegal = s.status.errIllegal ∧ t.status.errNokey = s.status.errNokey) ∧
    (s.status.busy = false → t.state = s.state) ∧
    (s.status.busy = true → t.status.op = s.status.op ∧ t.status.errIllegal = s.status.errIllegal ∧
      t.status.errNokey = s.status.errNokey)

/-- KEYEXPAND: whenever exec answers a next state, every register but RK and
STATUS is unchanged, STATE and KEY included, the error flags are, and RK[j] is for every j but the one round key written:
0 at acceptance, ROUND at a KEYEXP step. -/
def Obligations.KeyExpandFrame : Prop :=
  ∀ s t : State, exec .keyExpand s = .next t →
    t = { s with rk := t.rk, status := t.status } ∧
    t.status.errIllegal = s.status.errIllegal ∧ t.status.errNokey = s.status.errNokey ∧
    t.status.errBusywr = s.status.errBusywr ∧
    (∀ (j : Nat) (h : j < 11), j ≠ (if s.status.busy then s.status.round.toNat else 0) → t.rk[j] = s.rk[j])

/-- ENCRYPT and DECRYPT: whenever exec answers a next state, every register but STATE, RK and STATUS is unchanged, KEY
included, the error flags are, RK[j] is for every j but 0 at acceptance and ROUND at a KEYEXP step, all of RK is at an ENC
or DEC step, and STATE is at acceptance and at a KEYEXP step. -/
def Obligations.CipherCommandsFrame : Prop :=
  ∀ (i : Instr) (s t : State), i = .encrypt ∨ i = .decrypt → exec i s = .next t →
    t = { s with state := t.state, rk := t.rk, status := t.status } ∧
    t.status.errIllegal = s.status.errIllegal ∧ t.status.errNokey = s.status.errNokey ∧
    t.status.errBusywr = s.status.errBusywr ∧
    (∀ (j : Nat) (h : j < 11), j ≠ (if s.status.busy then s.status.round.toNat else 0) → t.rk[j] = s.rk[j]) ∧
    (s.status.phase = .enc ∨ s.status.phase = .dec → s.status.busy = true → t.rk = s.rk ∧
      t.status.ksValid = s.status.ksValid) ∧
    (s.status.busy = false ∨ s.status.phase = .keyExp → t.state = s.state)

/-! ## Rules about the whole machine -/

/-- R126: while BUSY = 1 a host transaction, whatever it is, leaves the command in progress, its operands and its results
as they are: no data register, no round key, not KS_VALID, OP or the FSM pair. -/
def Obligations.HostCannotDisturbACommand : Prop :=
  ∀ (s t : State) (tr : Transaction) (ms : List Move),
    s.status.busy = true → s.schedule = .host tr :: ms → step s = .next t →
    t.gfA = s.gfA ∧ t.gfB = s.gfB ∧ t.gfResult = s.gfResult ∧ t.state = s.state ∧ t.key = s.key ∧ t.rk = s.rk ∧
    t.status.busy = true ∧ t.status.ksValid = s.status.ksValid ∧ t.status.phase = s.status.phase ∧
    t.status.round = s.status.round ∧ t.status.op = s.status.op

/-- R109: no transition depends on data. Two states that agree on STATUS, IRQEN, `rst` and the moves still to come, and
differ at will in GF_A, GF_B, GF_RESULT, STATE, KEY and RK, agree on them again after a step, and stop alike. -/
def Obligations.ControlDoesNotDependOnData : Prop :=
  ∀ s u : State, s.status = u.status → s.irqen = u.irqen → s.rst = u.rst → s.schedule = u.schedule →
    match step s with
    | .next t => ∃ w, step u = .next w ∧ t.status = w.status ∧ t.irqen = w.irqen ∧ t.rst = w.rst ∧
        t.schedule = w.schedule ∧ t.irq = w.irq
    | .fault f => step u = .fault f
    | .refused r => step u = .refused r

/-- GF_A, GF_B and KEY are written by the host and by reset only, never by a command (R14, R15, R18); they change at a
performed write of theirs while BUSY = 0, or at the reset event. -/
def Obligations.OnlyTheHostAndResetWriteOperands : Prop :=
  ∀ s t : State, step s = .next t → ¬ (∃ ms, s.schedule = .rstAssert :: ms) →
    let writtenAt (lo hi : Nat) := s.status.busy = false ∧
      ∃ ms off v, s.schedule = .host (.write off .bytes4 v) :: ms ∧ lo ≤ off.toNat ∧ off.toNat < hi
    (t.gfA ≠ s.gfA → writtenAt 0x010 0x014) ∧ (t.gfB ≠ s.gfB → writtenAt 0x014 0x018) ∧
    (t.key ≠ s.key → writtenAt 0x030 0x040)

/-- GF_RESULT is written by the four byte commands only, and RK by key expansion only (R16, R19): GF_RESULT changes at an
EXEC step with OP 0x01..0x04, RK at an accepted KEYEXPAND, ENCRYPT or DECRYPT or at a KEYEXP step, or either at reset. -/
def Obligations.OnlyTheirCommandsWriteResults : Prop :=
  ∀ s t : State, step s = .next t → ¬ (∃ ms, s.schedule = .rstAssert :: ms) →
    (t.gfResult ≠ s.gfResult → s.status.busy = true ∧ s.status.phase = .exec ∧
      s.status.op ∈ ([0x01, 0x02, 0x03, 0x04] : List Byte)) ∧
    (t.rk ≠ s.rk →
      (s.status.busy = true ∧ s.status.phase = .keyExp) ∨
      (s.status.busy = false ∧ ∃ ms v, s.schedule = .host (.write 0x004 .bytes4 v) :: ms ∧
        (v = 0x00000020 ∨ ((v = 0x00000030 ∨ v = 0x00000031) ∧ s.status.ksValid = false))))

/-- R25: KS_VALID becomes 1 only at the KEYEXP step that writes RK[10]; it becomes 0 only at an accepted KEYEXPAND, at a
KEY write performed while BUSY = 0, or at reset. -/
def Obligations.KsValidChangesOnlyAsListed : Prop :=
  ∀ s t : State, step s = .next t →
    (s.status.ksValid = false → t.status.ksValid = true →
      s.status.busy = true ∧ s.status.phase = .keyExp ∧ s.status.round = 10) ∧
    (s.status.ksValid = true → t.status.ksValid = false →
      (∃ ms, s.schedule = .rstAssert :: ms) ∨
      (s.status.busy = false ∧ ∃ ms off v, s.schedule = .host (.write off .bytes4 v) :: ms ∧
        ((off = 0x004 ∧ v = 0x00000020) ∨ (0x030 ≤ off.toNat ∧ off.toNat < 0x040))))

/-- R24: DONE becomes 1 only at completion, that is at an engine step that ends with BUSY = 0; it becomes 0 only at an
accepted command, at a STATUS write with bit 1 set, or at reset. -/
def Obligations.DoneChangesOnlyAsListed : Prop :=
  ∀ s t : State, step s = .next t →
    (s.status.done = false → t.status.done = true → s.status.busy = true ∧ t.status.busy = false) ∧
    (s.status.done = true → t.status.done = false →
      (∃ ms, s.schedule = .rstAssert :: ms) ∨
      (s.status.busy = false ∧ t.status.busy = true) ∨
      (∃ ms v, s.schedule = .host (.write 0x008 .bytes4 v) :: ms ∧ v.getLsbD 1 = true))
end

