-- ==== Sys2Proof/Laws/PerInstr.lean ====
section
/-! SUPPORT. Per command: its word has the fields that R55 and R57 give it, and the opcode map reads the command back from
them. -/

namespace Sys2Proof.Laws.Encoding

/-- The fields of the command's word, and the opcode map's answer on them. -/
def Statement (i : Instr) : Prop :=
  opcodeField (encode i) = opcodeOf i ∧ ridxField (encode i) = ridxOf i ∧ rsvdField (encode i) = 0 ∧
    opcodeMap (opcodeOf i) (ridxOf i) = some i

/-- The three fields of a word put together from its fields, whatever they are (R55). -/
theorem fields (op : Byte) (ridx : BitVec 4) :
    opcodeField ((0 : BitVec 20) ++ ridx ++ op) = op ∧ ridxField ((0 : BitVec 20) ++ ridx ++ op) = ridx ∧
      rsvdField ((0 : BitVec 20) ++ ridx ++ op) = 0 := by
  refine ⟨?_, ?_, ?_⟩ <;> apply BitVec.eq_of_getLsbD_eq <;> intro j hj
  · simp only [opcodeField, BitVec.getLsbD_extractLsb', hj]
    erw [BitVec.getLsbD_append]
    simp [hj]
  · have h : 8 + j - 8 = j := by omega
    simp only [ridxField, BitVec.getLsbD_extractLsb', hj]
    erw [BitVec.getLsbD_append, BitVec.getLsbD_append]
    simp [hj, h]
  · simp only [rsvdField, BitVec.getLsbD_extractLsb', hj]
    erw [BitVec.getLsbD_append, BitVec.getLsbD_append]
    have h : ¬ 12 + j < 8 := by omega
    have h' : ¬ 12 + j - 8 < 4 := by omega
    simp [h, h']

theorem gfmul : Statement .gfmul := ⟨(fields _ _).1, (fields _ _).2.1, (fields _ _).2.2, rfl⟩
theorem gfinv : Statement .gfinv := ⟨(fields _ _).1, (fields _ _).2.1, (fields _ _).2.2, rfl⟩
theorem sbox : Statement .sbox := ⟨(fields _ _).1, (fields _ _).2.1, (fields _ _).2.2, rfl⟩
theorem invSbox : Statement .invSbox := ⟨(fields _ _).1, (fields _ _).2.1, (fields _ _).2.2, rfl⟩
theorem subBytes : Statement .subBytes := ⟨(fields _ _).1, (fields _ _).2.1, (fields _ _).2.2, rfl⟩
theorem invSubBytes : Statement .invSubBytes := ⟨(fields _ _).1, (fields _ _).2.1, (fields _ _).2.2, rfl⟩
theorem shiftRows : Statement .shiftRows := ⟨(fields _ _).1, (fields _ _).2.1, (fields _ _).2.2, rfl⟩
theorem invShiftRows : Statement .invShiftRows := ⟨(fields _ _).1, (fields _ _).2.1, (fields _ _).2.2, rfl⟩
theorem mixColumns : Statement .mixColumns := ⟨(fields _ _).1, (fields _ _).2.1, (fields _ _).2.2, rfl⟩
theorem invMixColumns : Statement .invMixColumns := ⟨(fields _ _).1, (fields _ _).2.1, (fields _ _).2.2, rfl⟩
theorem addRoundKey (ridx : BitVec 4) : Statement (.addRoundKey ridx) :=
  ⟨(fields _ _).1, (fields _ _).2.1, (fields _ _).2.2, rfl⟩
theorem keyExpand : Statement .keyExpand := ⟨(fields _ _).1, (fields _ _).2.1, (fields _ _).2.2, rfl⟩
theorem encrypt : Statement .encrypt := ⟨(fields _ _).1, (fields _ _).2.1, (fields _ _).2.2, rfl⟩
theorem decrypt : Statement .decrypt := ⟨(fields _ _).1, (fields _ _).2.1, (fields _ _).2.2, rfl⟩

end Sys2Proof.Laws.Encoding
end

