-- ==== Sys2Proof/Laws/Decode.lean ====
section
/-! SUPPORT. What the decoder can answer, said once: a word is its three fields (R55), the opcode map read backwards
(R57), and when a word decodes. -/

namespace Sys2Proof

/-- A word is its three fields put together (R55). -/
theorem word_eq_fields (v : Word32) : v = rsvdField v ++ ridxField v ++ opcodeField v := by
  unfold rsvdField ridxField opcodeField
  apply BitVec.eq_of_getLsbD_eq
  intro k hk
  simp only [BitVec.getLsbD_append, BitVec.getLsbD_extractLsb']
  split
  · simp [*]
  · split
    · have e : 8 + (k - 8) = k := by omega
      have : k - 8 < 4 := by omega
      simp [e, this]
    · have e : 12 + (k - 8 - 4) = k := by omega
      have : k - 8 - 4 < 20 := by omega
      simp [e, this]

/-- The opcode map read backwards: the opcode is the command's, and an ADDROUNDKEY's index is RIDX (R57). -/
theorem opcodeMap_some {op : Byte} {r : BitVec 4} {i : Instr} :
    opcodeMap op r = some i ↔ opcodeOf i = op ∧ (op = 0x16 → ridxOf i = r) := by
  constructor
  · intro h
    unfold opcodeMap at h
    split at h <;>
      first
      | (next he => cases h; exact ⟨BitVec.eq_of_toNat_eq he.symm, fun _ => rfl⟩)
      | (next he => cases h; exact ⟨BitVec.eq_of_toNat_eq he.symm, fun ho => absurd (ho ▸ he) (by decide)⟩)
      | cases h
  · rintro ⟨rfl, h⟩
    cases i <;> first | rfl | (cases h rfl; rfl)

/-- When a word decodes, and to what (R58). -/
theorem decodeWord_ok {v : Word32} {i : Instr} :
    decodeWord v = .ok i ↔
      rsvdField v = 0 ∧ opcodeMap (opcodeField v) (ridxField v) = some i ∧ ridxField v = ridxOf i ∧ WellFormed i := by
  unfold decodeWord
  split
  next hr => simp only [reduceCtorEq, hr, false_and]
  next hr =>
    have hr : rsvdField v = 0 := by simpa using hr
    split
    next hm => simp only [reduceCtorEq, hm, false_and, and_false]
    next j hm =>
      rw [hm]
      split
      next hx =>
        refine ⟨fun h => (by cases h), ?_⟩
        rintro ⟨-, h, h', -⟩
        cases h
        exact absurd h' hx
      next hx =>
        have hx : ridxField v = ridxOf j := by simpa using hx
        split
        next hw =>
          constructor
          · intro h; cases h; exact ⟨hr, rfl, hx, hw⟩
          · rintro ⟨-, h, -, -⟩; cases h; rfl
        next hw =>
          refine ⟨fun h => (by cases h), ?_⟩
          rintro ⟨-, h, -, h'⟩
          cases h
          exact absurd h' hw

end Sys2Proof
end

