-- ==== Sys2Proof/Laws/State.lean ====
section
/-! SUPPORT. One lemma per field per update of State and of STATUS, all true by rfl, so that no later proof unfolds a
record update. They are stated `:= (rfl)`, which keeps simp from using them by definitional unfolding: the kernel would
otherwise compare whole states, the cipher's functions in them included. -/

namespace Sys2Proof.Machine

variable (s : State) (st : Status)

/-! ### State.setGfA -/

@[simp] theorem State.setGfA_gfA (v : Byte) : (s.setGfA v).gfA = v := (rfl)
@[simp] theorem State.setGfA_gfB (v : Byte) : (s.setGfA v).gfB = s.gfB := (rfl)
@[simp] theorem State.setGfA_gfResult (v : Byte) : (s.setGfA v).gfResult = s.gfResult := (rfl)
@[simp] theorem State.setGfA_state (v : Byte) : (s.setGfA v).state = s.state := (rfl)
@[simp] theorem State.setGfA_key (v : Byte) : (s.setGfA v).key = s.key := (rfl)
@[simp] theorem State.setGfA_rk (v : Byte) : (s.setGfA v).rk = s.rk := (rfl)
@[simp] theorem State.setGfA_status (v : Byte) : (s.setGfA v).status = s.status := (rfl)
@[simp] theorem State.setGfA_irqen (v : Byte) : (s.setGfA v).irqen = s.irqen := (rfl)
@[simp] theorem State.setGfA_rst (v : Byte) : (s.setGfA v).rst = s.rst := (rfl)
@[simp] theorem State.setGfA_schedule (v : Byte) : (s.setGfA v).schedule = s.schedule := (rfl)
@[simp] theorem State.setGfA_bus (v : Byte) : (s.setGfA v).bus = s.bus := (rfl)
@[simp] theorem State.setGfA_draws (v : Byte) : (s.setGfA v).draws = s.draws := (rfl)

/-! ### State.setGfB -/

@[simp] theorem State.setGfB_gfA (v : Byte) : (s.setGfB v).gfA = s.gfA := (rfl)
@[simp] theorem State.setGfB_gfB (v : Byte) : (s.setGfB v).gfB = v := (rfl)
@[simp] theorem State.setGfB_gfResult (v : Byte) : (s.setGfB v).gfResult = s.gfResult := (rfl)
@[simp] theorem State.setGfB_state (v : Byte) : (s.setGfB v).state = s.state := (rfl)
@[simp] theorem State.setGfB_key (v : Byte) : (s.setGfB v).key = s.key := (rfl)
@[simp] theorem State.setGfB_rk (v : Byte) : (s.setGfB v).rk = s.rk := (rfl)
@[simp] theorem State.setGfB_status (v : Byte) : (s.setGfB v).status = s.status := (rfl)
@[simp] theorem State.setGfB_irqen (v : Byte) : (s.setGfB v).irqen = s.irqen := (rfl)
@[simp] theorem State.setGfB_rst (v : Byte) : (s.setGfB v).rst = s.rst := (rfl)
@[simp] theorem State.setGfB_schedule (v : Byte) : (s.setGfB v).schedule = s.schedule := (rfl)
@[simp] theorem State.setGfB_bus (v : Byte) : (s.setGfB v).bus = s.bus := (rfl)
@[simp] theorem State.setGfB_draws (v : Byte) : (s.setGfB v).draws = s.draws := (rfl)

/-! ### State.setGfResult -/

@[simp] theorem State.setGfResult_gfA (v : Byte) : (s.setGfResult v).gfA = s.gfA := (rfl)
@[simp] theorem State.setGfResult_gfB (v : Byte) : (s.setGfResult v).gfB = s.gfB := (rfl)
@[simp] theorem State.setGfResult_gfResult (v : Byte) : (s.setGfResult v).gfResult = v := (rfl)
@[simp] theorem State.setGfResult_state (v : Byte) : (s.setGfResult v).state = s.state := (rfl)
@[simp] theorem State.setGfResult_key (v : Byte) : (s.setGfResult v).key = s.key := (rfl)
@[simp] theorem State.setGfResult_rk (v : Byte) : (s.setGfResult v).rk = s.rk := (rfl)
@[simp] theorem State.setGfResult_status (v : Byte) : (s.setGfResult v).status = s.status := (rfl)
@[simp] theorem State.setGfResult_irqen (v : Byte) : (s.setGfResult v).irqen = s.irqen := (rfl)
@[simp] theorem State.setGfResult_rst (v : Byte) : (s.setGfResult v).rst = s.rst := (rfl)
@[simp] theorem State.setGfResult_schedule (v : Byte) : (s.setGfResult v).schedule = s.schedule := (rfl)
@[simp] theorem State.setGfResult_bus (v : Byte) : (s.setGfResult v).bus = s.bus := (rfl)
@[simp] theorem State.setGfResult_draws (v : Byte) : (s.setGfResult v).draws = s.draws := (rfl)

/-! ### State.setState -/

@[simp] theorem State.setState_gfA (v : ByteMatrix) : (s.setState v).gfA = s.gfA := (rfl)
@[simp] theorem State.setState_gfB (v : ByteMatrix) : (s.setState v).gfB = s.gfB := (rfl)
@[simp] theorem State.setState_gfResult (v : ByteMatrix) : (s.setState v).gfResult = s.gfResult := (rfl)
@[simp] theorem State.setState_state (v : ByteMatrix) : (s.setState v).state = v := (rfl)
@[simp] theorem State.setState_key (v : ByteMatrix) : (s.setState v).key = s.key := (rfl)
@[simp] theorem State.setState_rk (v : ByteMatrix) : (s.setState v).rk = s.rk := (rfl)
@[simp] theorem State.setState_status (v : ByteMatrix) : (s.setState v).status = s.status := (rfl)
@[simp] theorem State.setState_irqen (v : ByteMatrix) : (s.setState v).irqen = s.irqen := (rfl)
@[simp] theorem State.setState_rst (v : ByteMatrix) : (s.setState v).rst = s.rst := (rfl)
@[simp] theorem State.setState_schedule (v : ByteMatrix) : (s.setState v).schedule = s.schedule := (rfl)
@[simp] theorem State.setState_bus (v : ByteMatrix) : (s.setState v).bus = s.bus := (rfl)
@[simp] theorem State.setState_draws (v : ByteMatrix) : (s.setState v).draws = s.draws := (rfl)

/-! ### State.setKey -/

@[simp] theorem State.setKey_gfA (v : ByteMatrix) : (s.setKey v).gfA = s.gfA := (rfl)
@[simp] theorem State.setKey_gfB (v : ByteMatrix) : (s.setKey v).gfB = s.gfB := (rfl)
@[simp] theorem State.setKey_gfResult (v : ByteMatrix) : (s.setKey v).gfResult = s.gfResult := (rfl)
@[simp] theorem State.setKey_state (v : ByteMatrix) : (s.setKey v).state = s.state := (rfl)
@[simp] theorem State.setKey_key (v : ByteMatrix) : (s.setKey v).key = v := (rfl)
@[simp] theorem State.setKey_rk (v : ByteMatrix) : (s.setKey v).rk = s.rk := (rfl)
@[simp] theorem State.setKey_status (v : ByteMatrix) : (s.setKey v).status = s.status := (rfl)
@[simp] theorem State.setKey_irqen (v : ByteMatrix) : (s.setKey v).irqen = s.irqen := (rfl)
@[simp] theorem State.setKey_rst (v : ByteMatrix) : (s.setKey v).rst = s.rst := (rfl)
@[simp] theorem State.setKey_schedule (v : ByteMatrix) : (s.setKey v).schedule = s.schedule := (rfl)
@[simp] theorem State.setKey_bus (v : ByteMatrix) : (s.setKey v).bus = s.bus := (rfl)
@[simp] theorem State.setKey_draws (v : ByteMatrix) : (s.setKey v).draws = s.draws := (rfl)

/-! ### State.setRk -/

@[simp] theorem State.setRk_gfA (r : Nat) (m : ByteMatrix) : (s.setRk r m).gfA = s.gfA := (rfl)
@[simp] theorem State.setRk_gfB (r : Nat) (m : ByteMatrix) : (s.setRk r m).gfB = s.gfB := (rfl)
@[simp] theorem State.setRk_gfResult (r : Nat) (m : ByteMatrix) : (s.setRk r m).gfResult = s.gfResult := (rfl)
@[simp] theorem State.setRk_state (r : Nat) (m : ByteMatrix) : (s.setRk r m).state = s.state := (rfl)
@[simp] theorem State.setRk_key (r : Nat) (m : ByteMatrix) : (s.setRk r m).key = s.key := (rfl)
@[simp] theorem State.setRk_rk (r : Nat) (m : ByteMatrix) : (s.setRk r m).rk = s.rk.setIfInBounds r m := (rfl)
@[simp] theorem State.setRk_status (r : Nat) (m : ByteMatrix) : (s.setRk r m).status = s.status := (rfl)
@[simp] theorem State.setRk_irqen (r : Nat) (m : ByteMatrix) : (s.setRk r m).irqen = s.irqen := (rfl)
@[simp] theorem State.setRk_rst (r : Nat) (m : ByteMatrix) : (s.setRk r m).rst = s.rst := (rfl)
@[simp] theorem State.setRk_schedule (r : Nat) (m : ByteMatrix) : (s.setRk r m).schedule = s.schedule := (rfl)
@[simp] theorem State.setRk_bus (r : Nat) (m : ByteMatrix) : (s.setRk r m).bus = s.bus := (rfl)
@[simp] theorem State.setRk_draws (r : Nat) (m : ByteMatrix) : (s.setRk r m).draws = s.draws := (rfl)

/-! ### State.setStatus -/

@[simp] theorem State.setStatus_gfA (v : Status) : (s.setStatus v).gfA = s.gfA := (rfl)
@[simp] theorem State.setStatus_gfB (v : Status) : (s.setStatus v).gfB = s.gfB := (rfl)
@[simp] theorem State.setStatus_gfResult (v : Status) : (s.setStatus v).gfResult = s.gfResult := (rfl)
@[simp] theorem State.setStatus_state (v : Status) : (s.setStatus v).state = s.state := (rfl)
@[simp] theorem State.setStatus_key (v : Status) : (s.setStatus v).key = s.key := (rfl)
@[simp] theorem State.setStatus_rk (v : Status) : (s.setStatus v).rk = s.rk := (rfl)
@[simp] theorem State.setStatus_status (v : Status) : (s.setStatus v).status = v := (rfl)
@[simp] theorem State.setStatus_irqen (v : Status) : (s.setStatus v).irqen = s.irqen := (rfl)
@[simp] theorem State.setStatus_rst (v : Status) : (s.setStatus v).rst = s.rst := (rfl)
@[simp] theorem State.setStatus_schedule (v : Status) : (s.setStatus v).schedule = s.schedule := (rfl)
@[simp] theorem State.setStatus_bus (v : Status) : (s.setStatus v).bus = s.bus := (rfl)
@[simp] theorem State.setStatus_draws (v : Status) : (s.setStatus v).draws = s.draws := (rfl)

/-! ### State.setIrqen -/

@[simp] theorem State.setIrqen_gfA (v : BitVec 2) : (s.setIrqen v).gfA = s.gfA := (rfl)
@[simp] theorem State.setIrqen_gfB (v : BitVec 2) : (s.setIrqen v).gfB = s.gfB := (rfl)
@[simp] theorem State.setIrqen_gfResult (v : BitVec 2) : (s.setIrqen v).gfResult = s.gfResult := (rfl)
@[simp] theorem State.setIrqen_state (v : BitVec 2) : (s.setIrqen v).state = s.state := (rfl)
@[simp] theorem State.setIrqen_key (v : BitVec 2) : (s.setIrqen v).key = s.key := (rfl)
@[simp] theorem State.setIrqen_rk (v : BitVec 2) : (s.setIrqen v).rk = s.rk := (rfl)
@[simp] theorem State.setIrqen_status (v : BitVec 2) : (s.setIrqen v).status = s.status := (rfl)
@[simp] theorem State.setIrqen_irqen (v : BitVec 2) : (s.setIrqen v).irqen = v := (rfl)
@[simp] theorem State.setIrqen_rst (v : BitVec 2) : (s.setIrqen v).rst = s.rst := (rfl)
@[simp] theorem State.setIrqen_schedule (v : BitVec 2) : (s.setIrqen v).schedule = s.schedule := (rfl)
@[simp] theorem State.setIrqen_bus (v : BitVec 2) : (s.setIrqen v).bus = s.bus := (rfl)
@[simp] theorem State.setIrqen_draws (v : BitVec 2) : (s.setIrqen v).draws = s.draws := (rfl)

/-! ### State.setRst -/

@[simp] theorem State.setRst_gfA (v : Bool) : (s.setRst v).gfA = s.gfA := (rfl)
@[simp] theorem State.setRst_gfB (v : Bool) : (s.setRst v).gfB = s.gfB := (rfl)
@[simp] theorem State.setRst_gfResult (v : Bool) : (s.setRst v).gfResult = s.gfResult := (rfl)
@[simp] theorem State.setRst_state (v : Bool) : (s.setRst v).state = s.state := (rfl)
@[simp] theorem State.setRst_key (v : Bool) : (s.setRst v).key = s.key := (rfl)
@[simp] theorem State.setRst_rk (v : Bool) : (s.setRst v).rk = s.rk := (rfl)
@[simp] theorem State.setRst_status (v : Bool) : (s.setRst v).status = s.status := (rfl)
@[simp] theorem State.setRst_irqen (v : Bool) : (s.setRst v).irqen = s.irqen := (rfl)
@[simp] theorem State.setRst_rst (v : Bool) : (s.setRst v).rst = v := (rfl)
@[simp] theorem State.setRst_schedule (v : Bool) : (s.setRst v).schedule = s.schedule := (rfl)
@[simp] theorem State.setRst_bus (v : Bool) : (s.setRst v).bus = s.bus := (rfl)
@[simp] theorem State.setRst_draws (v : Bool) : (s.setRst v).draws = s.draws := (rfl)

/-! ### State.setSchedule -/

@[simp] theorem State.setSchedule_gfA (v : List Move) : (s.setSchedule v).gfA = s.gfA := (rfl)
@[simp] theorem State.setSchedule_gfB (v : List Move) : (s.setSchedule v).gfB = s.gfB := (rfl)
@[simp] theorem State.setSchedule_gfResult (v : List Move) : (s.setSchedule v).gfResult = s.gfResult := (rfl)
@[simp] theorem State.setSchedule_state (v : List Move) : (s.setSchedule v).state = s.state := (rfl)
@[simp] theorem State.setSchedule_key (v : List Move) : (s.setSchedule v).key = s.key := (rfl)
@[simp] theorem State.setSchedule_rk (v : List Move) : (s.setSchedule v).rk = s.rk := (rfl)
@[simp] theorem State.setSchedule_status (v : List Move) : (s.setSchedule v).status = s.status := (rfl)
@[simp] theorem State.setSchedule_irqen (v : List Move) : (s.setSchedule v).irqen = s.irqen := (rfl)
@[simp] theorem State.setSchedule_rst (v : List Move) : (s.setSchedule v).rst = s.rst := (rfl)
@[simp] theorem State.setSchedule_schedule (v : List Move) : (s.setSchedule v).schedule = v := (rfl)
@[simp] theorem State.setSchedule_bus (v : List Move) : (s.setSchedule v).bus = s.bus := (rfl)
@[simp] theorem State.setSchedule_draws (v : List Move) : (s.setSchedule v).draws = s.draws := (rfl)

/-! ### State.setBus -/

@[simp] theorem State.setBus_gfA (v : BusResponse) : (s.setBus v).gfA = s.gfA := (rfl)
@[simp] theorem State.setBus_gfB (v : BusResponse) : (s.setBus v).gfB = s.gfB := (rfl)
@[simp] theorem State.setBus_gfResult (v : BusResponse) : (s.setBus v).gfResult = s.gfResult := (rfl)
@[simp] theorem State.setBus_state (v : BusResponse) : (s.setBus v).state = s.state := (rfl)
@[simp] theorem State.setBus_key (v : BusResponse) : (s.setBus v).key = s.key := (rfl)
@[simp] theorem State.setBus_rk (v : BusResponse) : (s.setBus v).rk = s.rk := (rfl)
@[simp] theorem State.setBus_status (v : BusResponse) : (s.setBus v).status = s.status := (rfl)
@[simp] theorem State.setBus_irqen (v : BusResponse) : (s.setBus v).irqen = s.irqen := (rfl)
@[simp] theorem State.setBus_rst (v : BusResponse) : (s.setBus v).rst = s.rst := (rfl)
@[simp] theorem State.setBus_schedule (v : BusResponse) : (s.setBus v).schedule = s.schedule := (rfl)
@[simp] theorem State.setBus_bus (v : BusResponse) : (s.setBus v).bus = v := (rfl)
@[simp] theorem State.setBus_draws (v : BusResponse) : (s.setBus v).draws = s.draws := (rfl)

/-! ### State.setDraws -/

@[simp] theorem State.setDraws_gfA (v : Nat) : (s.setDraws v).gfA = s.gfA := (rfl)
@[simp] theorem State.setDraws_gfB (v : Nat) : (s.setDraws v).gfB = s.gfB := (rfl)
@[simp] theorem State.setDraws_gfResult (v : Nat) : (s.setDraws v).gfResult = s.gfResult := (rfl)
@[simp] theorem State.setDraws_state (v : Nat) : (s.setDraws v).state = s.state := (rfl)
@[simp] theorem State.setDraws_key (v : Nat) : (s.setDraws v).key = s.key := (rfl)
@[simp] theorem State.setDraws_rk (v : Nat) : (s.setDraws v).rk = s.rk := (rfl)
@[simp] theorem State.setDraws_status (v : Nat) : (s.setDraws v).status = s.status := (rfl)
@[simp] theorem State.setDraws_irqen (v : Nat) : (s.setDraws v).irqen = s.irqen := (rfl)
@[simp] theorem State.setDraws_rst (v : Nat) : (s.setDraws v).rst = s.rst := (rfl)
@[simp] theorem State.setDraws_schedule (v : Nat) : (s.setDraws v).schedule = s.schedule := (rfl)
@[simp] theorem State.setDraws_bus (v : Nat) : (s.setDraws v).bus = s.bus := (rfl)
@[simp] theorem State.setDraws_draws (v : Nat) : (s.setDraws v).draws = v := (rfl)

/-! ### Status.goto -/

@[simp] theorem Status.goto_busy (p : Phase) (r : BitVec 4) : (st.goto p r).busy = st.busy := (rfl)
@[simp] theorem Status.goto_done (p : Phase) (r : BitVec 4) : (st.goto p r).done = st.done := (rfl)
@[simp] theorem Status.goto_ksValid (p : Phase) (r : BitVec 4) : (st.goto p r).ksValid = st.ksValid := (rfl)
@[simp] theorem Status.goto_errIllegal (p : Phase) (r : BitVec 4) : (st.goto p r).errIllegal = st.errIllegal := (rfl)
@[simp] theorem Status.goto_errNokey (p : Phase) (r : BitVec 4) : (st.goto p r).errNokey = st.errNokey := (rfl)
@[simp] theorem Status.goto_errBusywr (p : Phase) (r : BitVec 4) : (st.goto p r).errBusywr = st.errBusywr := (rfl)
@[simp] theorem Status.goto_round (p : Phase) (r : BitVec 4) : (st.goto p r).round = r := (rfl)
@[simp] theorem Status.goto_phase (p : Phase) (r : BitVec 4) : (st.goto p r).phase = p := (rfl)
@[simp] theorem Status.goto_op (p : Phase) (r : BitVec 4) : (st.goto p r).op = st.op := (rfl)

/-! ### Status.accepted -/

@[simp] theorem Status.accepted_busy (op : Byte) (p : Phase) (r : BitVec 4) : (st.accepted op p r).busy = true := (rfl)
@[simp] theorem Status.accepted_done (op : Byte) (p : Phase) (r : BitVec 4) : (st.accepted op p r).done = false := (rfl)
@[simp] theorem Status.accepted_ksValid (op : Byte) (p : Phase) (r : BitVec 4) : (st.accepted op p r).ksValid = st.ksValid := (rfl)
@[simp] theorem Status.accepted_errIllegal (op : Byte) (p : Phase) (r : BitVec 4) : (st.accepted op p r).errIllegal = st.errIllegal := (rfl)
@[simp] theorem Status.accepted_errNokey (op : Byte) (p : Phase) (r : BitVec 4) : (st.accepted op p r).errNokey = st.errNokey := (rfl)
@[simp] theorem Status.accepted_errBusywr (op : Byte) (p : Phase) (r : BitVec 4) : (st.accepted op p r).errBusywr = st.errBusywr := (rfl)
@[simp] theorem Status.accepted_round (op : Byte) (p : Phase) (r : BitVec 4) : (st.accepted op p r).round = r := (rfl)
@[simp] theorem Status.accepted_phase (op : Byte) (p : Phase) (r : BitVec 4) : (st.accepted op p r).phase = p := (rfl)
@[simp] theorem Status.accepted_op (op : Byte) (p : Phase) (r : BitVec 4) : (st.accepted op p r).op = op := (rfl)

/-! ### Status.completed -/

@[simp] theorem Status.completed_busy : (st.completed).busy = false := (rfl)
@[simp] theorem Status.completed_done : (st.completed).done = true := (rfl)
@[simp] theorem Status.completed_ksValid : (st.completed).ksValid = st.ksValid := (rfl)
@[simp] theorem Status.completed_errIllegal : (st.completed).errIllegal = st.errIllegal := (rfl)
@[simp] theorem Status.completed_errNokey : (st.completed).errNokey = st.errNokey := (rfl)
@[simp] theorem Status.completed_errBusywr : (st.completed).errBusywr = st.errBusywr := (rfl)
@[simp] theorem Status.completed_round : (st.completed).round = 0 := (rfl)
@[simp] theorem Status.completed_phase : (st.completed).phase = .idle := (rfl)
@[simp] theorem Status.completed_op : (st.completed).op = st.op := (rfl)

/-! ### Status.withKsValid -/

@[simp] theorem Status.withKsValid_busy (b : Bool) : (st.withKsValid b).busy = st.busy := (rfl)
@[simp] theorem Status.withKsValid_done (b : Bool) : (st.withKsValid b).done = st.done := (rfl)
@[simp] theorem Status.withKsValid_ksValid (b : Bool) : (st.withKsValid b).ksValid = b := (rfl)
@[simp] theorem Status.withKsValid_errIllegal (b : Bool) : (st.withKsValid b).errIllegal = st.errIllegal := (rfl)
@[simp] theorem Status.withKsValid_errNokey (b : Bool) : (st.withKsValid b).errNokey = st.errNokey := (rfl)
@[simp] theorem Status.withKsValid_errBusywr (b : Bool) : (st.withKsValid b).errBusywr = st.errBusywr := (rfl)
@[simp] theorem Status.withKsValid_round (b : Bool) : (st.withKsValid b).round = st.round := (rfl)
@[simp] theorem Status.withKsValid_phase (b : Bool) : (st.withKsValid b).phase = st.phase := (rfl)
@[simp] theorem Status.withKsValid_op (b : Bool) : (st.withKsValid b).op = st.op := (rfl)

/-! ### Status.w1c -/

@[simp] theorem Status.w1c_busy (v : Word32) : (st.w1c v).busy = st.busy := (rfl)
@[simp] theorem Status.w1c_done (v : Word32) : (st.w1c v).done = (st.done && !v.getLsbD 1) := (rfl)
@[simp] theorem Status.w1c_ksValid (v : Word32) : (st.w1c v).ksValid = st.ksValid := (rfl)
@[simp] theorem Status.w1c_errIllegal (v : Word32) : (st.w1c v).errIllegal = (st.errIllegal && !v.getLsbD 3) := (rfl)
@[simp] theorem Status.w1c_errNokey (v : Word32) : (st.w1c v).errNokey = (st.errNokey && !v.getLsbD 4) := (rfl)
@[simp] theorem Status.w1c_errBusywr (v : Word32) : (st.w1c v).errBusywr = (st.errBusywr && !v.getLsbD 5) := (rfl)
@[simp] theorem Status.w1c_round (v : Word32) : (st.w1c v).round = st.round := (rfl)
@[simp] theorem Status.w1c_phase (v : Word32) : (st.w1c v).phase = st.phase := (rfl)
@[simp] theorem Status.w1c_op (v : Word32) : (st.w1c v).op = st.op := (rfl)

/-! ### Status.raise -/

@[simp] theorem Status.raise_busy (e : ErrorFlag) : (st.raise e).busy = st.busy := by cases e <;> rfl
@[simp] theorem Status.raise_done (e : ErrorFlag) : (st.raise e).done = st.done := by cases e <;> rfl
@[simp] theorem Status.raise_ksValid (e : ErrorFlag) : (st.raise e).ksValid = st.ksValid := by cases e <;> rfl
@[simp] theorem Status.raise_errIllegal (e : ErrorFlag) : (st.raise e).errIllegal = (st.errIllegal || e == .illegal) := by
  cases e <;> simp [Status.raise]
@[simp] theorem Status.raise_errNokey (e : ErrorFlag) : (st.raise e).errNokey = (st.errNokey || e == .nokey) := by
  cases e <;> simp [Status.raise]
@[simp] theorem Status.raise_errBusywr (e : ErrorFlag) : (st.raise e).errBusywr = (st.errBusywr || e == .busywr) := by
  cases e <;> simp [Status.raise]
@[simp] theorem Status.raise_round (e : ErrorFlag) : (st.raise e).round = st.round := by cases e <;> rfl
@[simp] theorem Status.raise_phase (e : ErrorFlag) : (st.raise e).phase = st.phase := by cases e <;> rfl
@[simp] theorem Status.raise_op (e : ErrorFlag) : (st.raise e).op = st.op := by cases e <;> rfl

/-! ### The named operations of Machine/Ops.lean, as updates -/

@[simp] theorem raise_gfA (e : ErrorFlag) : (raise e s).gfA = s.gfA := (rfl)
@[simp] theorem raise_gfB (e : ErrorFlag) : (raise e s).gfB = s.gfB := (rfl)
@[simp] theorem raise_gfResult (e : ErrorFlag) : (raise e s).gfResult = s.gfResult := (rfl)
@[simp] theorem raise_state (e : ErrorFlag) : (raise e s).state = s.state := (rfl)
@[simp] theorem raise_key (e : ErrorFlag) : (raise e s).key = s.key := (rfl)
@[simp] theorem raise_rk (e : ErrorFlag) : (raise e s).rk = s.rk := (rfl)
@[simp] theorem raise_status (e : ErrorFlag) : (raise e s).status = s.status.raise e := (rfl)
@[simp] theorem raise_irqen (e : ErrorFlag) : (raise e s).irqen = s.irqen := (rfl)
@[simp] theorem raise_rst (e : ErrorFlag) : (raise e s).rst = s.rst := (rfl)
@[simp] theorem raise_schedule (e : ErrorFlag) : (raise e s).schedule = s.schedule := (rfl)
@[simp] theorem raise_bus (e : ErrorFlag) : (raise e s).bus = s.bus := (rfl)
@[simp] theorem raise_draws (e : ErrorFlag) : (raise e s).draws = s.draws := (rfl)

@[simp] theorem statusW1c_gfA (v : Word32) : (statusW1c v s).gfA = s.gfA := (rfl)
@[simp] theorem statusW1c_gfB (v : Word32) : (statusW1c v s).gfB = s.gfB := (rfl)
@[simp] theorem statusW1c_gfResult (v : Word32) : (statusW1c v s).gfResult = s.gfResult := (rfl)
@[simp] theorem statusW1c_state (v : Word32) : (statusW1c v s).state = s.state := (rfl)
@[simp] theorem statusW1c_key (v : Word32) : (statusW1c v s).key = s.key := (rfl)
@[simp] theorem statusW1c_rk (v : Word32) : (statusW1c v s).rk = s.rk := (rfl)
@[simp] theorem statusW1c_status (v : Word32) : (statusW1c v s).status = s.status.w1c v := (rfl)
@[simp] theorem statusW1c_irqen (v : Word32) : (statusW1c v s).irqen = s.irqen := (rfl)
@[simp] theorem statusW1c_rst (v : Word32) : (statusW1c v s).rst = s.rst := (rfl)
@[simp] theorem statusW1c_schedule (v : Word32) : (statusW1c v s).schedule = s.schedule := (rfl)
@[simp] theorem statusW1c_bus (v : Word32) : (statusW1c v s).bus = s.bus := (rfl)
@[simp] theorem statusW1c_draws (v : Word32) : (statusW1c v s).draws = s.draws := (rfl)

@[simp] theorem gotoFsm_gfA (p : Phase) (r : BitVec 4) : (gotoFsm p r s).gfA = s.gfA := (rfl)
@[simp] theorem gotoFsm_gfB (p : Phase) (r : BitVec 4) : (gotoFsm p r s).gfB = s.gfB := (rfl)
@[simp] theorem gotoFsm_gfResult (p : Phase) (r : BitVec 4) : (gotoFsm p r s).gfResult = s.gfResult := (rfl)
@[simp] theorem gotoFsm_state (p : Phase) (r : BitVec 4) : (gotoFsm p r s).state = s.state := (rfl)
@[simp] theorem gotoFsm_key (p : Phase) (r : BitVec 4) : (gotoFsm p r s).key = s.key := (rfl)
@[simp] theorem gotoFsm_rk (p : Phase) (r : BitVec 4) : (gotoFsm p r s).rk = s.rk := (rfl)
@[simp] theorem gotoFsm_status (p : Phase) (r : BitVec 4) : (gotoFsm p r s).status = s.status.goto p r := (rfl)
@[simp] theorem gotoFsm_irqen (p : Phase) (r : BitVec 4) : (gotoFsm p r s).irqen = s.irqen := (rfl)
@[simp] theorem gotoFsm_rst (p : Phase) (r : BitVec 4) : (gotoFsm p r s).rst = s.rst := (rfl)
@[simp] theorem gotoFsm_schedule (p : Phase) (r : BitVec 4) : (gotoFsm p r s).schedule = s.schedule := (rfl)
@[simp] theorem gotoFsm_bus (p : Phase) (r : BitVec 4) : (gotoFsm p r s).bus = s.bus := (rfl)
@[simp] theorem gotoFsm_draws (p : Phase) (r : BitVec 4) : (gotoFsm p r s).draws = s.draws := (rfl)

@[simp] theorem accept_gfA (op : Byte) (p : Phase) (r : BitVec 4) : (accept op p r s).gfA = s.gfA := (rfl)
@[simp] theorem accept_gfB (op : Byte) (p : Phase) (r : BitVec 4) : (accept op p r s).gfB = s.gfB := (rfl)
@[simp] theorem accept_gfResult (op : Byte) (p : Phase) (r : BitVec 4) : (accept op p r s).gfResult = s.gfResult := (rfl)
@[simp] theorem accept_state (op : Byte) (p : Phase) (r : BitVec 4) : (accept op p r s).state = s.state := (rfl)
@[simp] theorem accept_key (op : Byte) (p : Phase) (r : BitVec 4) : (accept op p r s).key = s.key := (rfl)
@[simp] theorem accept_rk (op : Byte) (p : Phase) (r : BitVec 4) : (accept op p r s).rk = s.rk := (rfl)
@[simp] theorem accept_status (op : Byte) (p : Phase) (r : BitVec 4) : (accept op p r s).status = s.status.accepted op p r := (rfl)
@[simp] theorem accept_irqen (op : Byte) (p : Phase) (r : BitVec 4) : (accept op p r s).irqen = s.irqen := (rfl)
@[simp] theorem accept_rst (op : Byte) (p : Phase) (r : BitVec 4) : (accept op p r s).rst = s.rst := (rfl)
@[simp] theorem accept_schedule (op : Byte) (p : Phase) (r : BitVec 4) : (accept op p r s).schedule = s.schedule := (rfl)
@[simp] theorem accept_bus (op : Byte) (p : Phase) (r : BitVec 4) : (accept op p r s).bus = s.bus := (rfl)
@[simp] theorem accept_draws (op : Byte) (p : Phase) (r : BitVec 4) : (accept op p r s).draws = s.draws := (rfl)

@[simp] theorem complete_gfA : (complete s).gfA = s.gfA := (rfl)
@[simp] theorem complete_gfB : (complete s).gfB = s.gfB := (rfl)
@[simp] theorem complete_gfResult : (complete s).gfResult = s.gfResult := (rfl)
@[simp] theorem complete_state : (complete s).state = s.state := (rfl)
@[simp] theorem complete_key : (complete s).key = s.key := (rfl)
@[simp] theorem complete_rk : (complete s).rk = s.rk := (rfl)
@[simp] theorem complete_status : (complete s).status = s.status.completed := (rfl)
@[simp] theorem complete_irqen : (complete s).irqen = s.irqen := (rfl)
@[simp] theorem complete_rst : (complete s).rst = s.rst := (rfl)
@[simp] theorem complete_schedule : (complete s).schedule = s.schedule := (rfl)
@[simp] theorem complete_bus : (complete s).bus = s.bus := (rfl)
@[simp] theorem complete_draws : (complete s).draws = s.draws := (rfl)

@[simp] theorem setKsValid_gfA (b : Bool) : (setKsValid b s).gfA = s.gfA := (rfl)
@[simp] theorem setKsValid_gfB (b : Bool) : (setKsValid b s).gfB = s.gfB := (rfl)
@[simp] theorem setKsValid_gfResult (b : Bool) : (setKsValid b s).gfResult = s.gfResult := (rfl)
@[simp] theorem setKsValid_state (b : Bool) : (setKsValid b s).state = s.state := (rfl)
@[simp] theorem setKsValid_key (b : Bool) : (setKsValid b s).key = s.key := (rfl)
@[simp] theorem setKsValid_rk (b : Bool) : (setKsValid b s).rk = s.rk := (rfl)
@[simp] theorem setKsValid_status (b : Bool) : (setKsValid b s).status = s.status.withKsValid b := (rfl)
@[simp] theorem setKsValid_irqen (b : Bool) : (setKsValid b s).irqen = s.irqen := (rfl)
@[simp] theorem setKsValid_rst (b : Bool) : (setKsValid b s).rst = s.rst := (rfl)
@[simp] theorem setKsValid_schedule (b : Bool) : (setKsValid b s).schedule = s.schedule := (rfl)
@[simp] theorem setKsValid_bus (b : Bool) : (setKsValid b s).bus = s.bus := (rfl)
@[simp] theorem setKsValid_draws (b : Bool) : (setKsValid b s).draws = s.draws := (rfl)

/-! ### resetEvent -/

@[simp] theorem resetEvent_gfA : (resetEvent s).gfA = 0 := (rfl)
@[simp] theorem resetEvent_gfB : (resetEvent s).gfB = 0 := (rfl)
@[simp] theorem resetEvent_gfResult : (resetEvent s).gfResult = 0 := (rfl)
@[simp] theorem resetEvent_state : (resetEvent s).state = ByteMatrix.zero := (rfl)
@[simp] theorem resetEvent_key : (resetEvent s).key = ByteMatrix.zero := (rfl)
@[simp] theorem resetEvent_rk : (resetEvent s).rk = Vector.replicate 11 ByteMatrix.zero := (rfl)
@[simp] theorem resetEvent_status : (resetEvent s).status = Status.reset := (rfl)
@[simp] theorem resetEvent_irqen : (resetEvent s).irqen = 0 := (rfl)
@[simp] theorem resetEvent_rst : (resetEvent s).rst = s.rst := (rfl)
@[simp] theorem resetEvent_schedule : (resetEvent s).schedule = s.schedule := (rfl)
@[simp] theorem resetEvent_bus : (resetEvent s).bus = s.bus := (rfl)
@[simp] theorem resetEvent_draws : (resetEvent s).draws = s.draws := (rfl)

end Sys2Proof.Machine
end

