-- ==== Sys2Proof/Laws/Ops.lean ====
section
/-! SUPPORT. One lemma per shared operation that says once everything it can do, so that proofs cite it instead of
unfolding: commands, engine steps, the register map, host transactions, and the step of the machine. -/

namespace Sys2Proof.Machine

variable {s t : State}

/-! ## Commands -/

theorem singleStep_next {op : Byte} {f : State → State} (h : singleStep op f s = .next t) :
    (s.status.busy = false ∧ t = accept op .exec 0 s) ∨
      (s.status.busy = true ∧ s.status.phase = .exec ∧ t = complete (f s)) := by
  unfold singleStep at h
  split at h
  next hb =>
    split at h
    next hp => cases h; exact .inr ⟨hb, hp, rfl⟩
    next => cases h
  next hb => cases h; exact .inl ⟨by simpa using hb, rfl⟩

theorem singleStep_idle {op : Byte} {f : State → State} (h : s.status.busy = false) :
    singleStep op f s = .next (accept op .exec 0 s) := by simp [singleStep, h]

theorem singleStep_exec {op : Byte} {f : State → State} (h : s.status.busy = true) (hp : s.status.phase = .exec) :
    singleStep op f s = .next (complete (f s)) := by simp [singleStep, h, hp]

theorem roundKey?_of_lt {x : BitVec 4} (h : x.toNat < 11) : roundKey? s x = some s.rk[x.toNat] := by
  simp [roundKey?, h]

theorem roundKey?_some {x : BitVec 4} {k : ByteMatrix} (h : roundKey? s x = some k) :
    ∃ hx : x.toNat < 11, s.rk[x.toNat] = k := by
  simpa [roundKey?, Vector.getElem?_eq_some_iff] using h

/-- A round key read after RK[r] is written, at r and elsewhere. -/
theorem setRk_getElem (r j : Nat) (m : ByteMatrix) (s : State) (hj : j < 11) :
    (s.setRk r m).rk[j] = if r = j then m else s.rk[j] := by
  simp [State.setRk, Vector.getElem_setIfInBounds]

theorem execAddRoundKey_next {r : BitVec 4} (h : execAddRoundKey r s = .next t) :
    (s.status.busy = true ∧ s.status.phase = .exec ∧ ∃ k, roundKey? s s.status.round = some k ∧
        t = complete (s.setState (addRoundKey s.state k))) ∨
      (s.status.busy = false ∧ 10 < r.toNat ∧ t = raise .illegal s) ∨
      (s.status.busy = false ∧ r.toNat ≤ 10 ∧ s.status.ksValid = true ∧ t = accept 0x16 .exec r s) ∨
      (s.status.busy = false ∧ r.toNat ≤ 10 ∧ s.status.ksValid = false ∧ t = raise .nokey s) := by
  unfold execAddRoundKey at h
  split at h
  next hb =>
    split at h
    next hp =>
      split at h
      next k hk => cases h; exact .inl ⟨hb, hp, k, hk, rfl⟩
      next => cases h
    next => cases h
  next hb =>
    have hb' : s.status.busy = false := by simpa using hb
    split at h
    next hr => cases h; exact .inr (.inl ⟨hb', hr, rfl⟩)
    next hr =>
      split at h
      next hk => cases h; exact .inr (.inr (.inl ⟨hb', by omega, hk, rfl⟩))
      next hk => cases h; exact .inr (.inr (.inr ⟨hb', by omega, by simpa using hk, rfl⟩))

theorem finishExpansion_next (h : finishExpansion s = .next t) :
    (s.status.op = 0x20 ∧ t = complete (setKsValid true s)) ∨
      (s.status.op = 0x30 ∧ t = gotoFsm .enc 0 (setKsValid true s)) ∨
      (s.status.op = 0x31 ∧ t = gotoFsm .dec 10 (setKsValid true s)) := by
  unfold finishExpansion at h
  split at h
  next he => cases h; exact .inl ⟨BitVec.eq_of_toNat_eq he, rfl⟩
  next he => cases h; exact .inr (.inl ⟨BitVec.eq_of_toNat_eq he, rfl⟩)
  next he => cases h; exact .inr (.inr ⟨BitVec.eq_of_toNat_eq he, rfl⟩)
  next => cases h

/-- The key schedule's step writes exactly one round key, the one that ROUND names. -/
theorem keyExpStep_next (h : keyExpStep s = .next t) :
    ∃ kprev, roundKey? s (s.status.round - 1) = some kprev ∧ 1 ≤ s.status.round.toNat ∧
      ((s.status.round.toNat < 10 ∧ t = gotoFsm .keyExp (s.status.round + 1)
          (s.setRk s.status.round.toNat (nextKey kprev s.status.round.toNat))) ∨
        (s.status.round = 10 ∧ finishExpansion (s.setRk 10 (nextKey kprev 10)) = .next t)) := by
  unfold keyExpStep at h
  simp only at h
  split at h
  next => cases h
  next k hk =>
    split at h
    next => cases h
    next hr =>
      refine ⟨k, hk, by omega, ?_⟩
      split at h
      next hl => cases h; exact .inl ⟨hl, rfl⟩
      next hl =>
        have e : s.status.round = 10 := BitVec.eq_of_toNat_eq (by simp; omega)
        exact .inr ⟨e, by simpa [e] using h⟩

theorem encStep_next (h : encStep s = .next t) :
    ∃ k, roundKey? s s.status.round = some k ∧
      ((s.status.round = 0 ∧ t = gotoFsm .enc 1 (s.setState (addRoundKey s.state k))) ∨
        (0 < s.status.round.toNat ∧ s.status.round.toNat < 10 ∧
          t = gotoFsm .enc (s.status.round + 1) (s.setState (encRound s.status.round.toNat k s.state))) ∨
        (s.status.round = 10 ∧ t = complete (s.setState (encRound 10 k s.state)))) := by
  unfold encStep at h
  simp only at h
  split at h
  next => cases h
  next k hk =>
    refine ⟨k, hk, ?_⟩
    obtain ⟨hx, -⟩ := roundKey?_some hk
    split at h
    next h0 => cases h; exact .inl ⟨BitVec.eq_of_toNat_eq (by simpa using h0), rfl⟩
    next h0 =>
      split at h
      next hl => cases h; exact .inr (.inl ⟨by omega, hl, rfl⟩)
      next hl =>
        have e : s.status.round = 10 := BitVec.eq_of_toNat_eq (by simp; omega)
        cases h; exact .inr (.inr ⟨e, by simp [e]⟩)

theorem decStep_next (h : decStep s = .next t) :
    ∃ k, roundKey? s s.status.round = some k ∧
      ((s.status.round = 10 ∧ t = gotoFsm .dec 9 (s.setState (addRoundKey s.state k))) ∨
        (0 < s.status.round.toNat ∧ s.status.round.toNat < 10 ∧
          t = gotoFsm .dec (s.status.round - 1) (s.setState (decRound s.status.round.toNat k s.state))) ∨
        (s.status.round = 0 ∧ t = complete (s.setState (decRound 0 k s.state)))) := by
  unfold decStep at h
  simp only at h
  split at h
  next => cases h
  next k hk =>
    refine ⟨k, hk, ?_⟩
    obtain ⟨hx, -⟩ := roundKey?_some hk
    split at h
    next h0 => cases h; exact .inl ⟨BitVec.eq_of_toNat_eq (by simpa using h0), rfl⟩
    next h0 =>
      split at h
      next hl => cases h; exact .inr (.inl ⟨hl, by omega, rfl⟩)
      next hl =>
        have e : s.status.round = 0 := BitVec.eq_of_toNat_eq (by simp; omega)
        cases h; exact .inr (.inr ⟨e, by simp [e]⟩)

theorem execKeyExpand_next (h : execKeyExpand s = .next t) :
    (s.status.busy = true ∧ s.status.phase = .keyExp ∧ keyExpStep s = .next t) ∨
      (s.status.busy = false ∧ t = startExpansion 0x20 (setKsValid false s)) := by
  unfold execKeyExpand at h
  split at h
  next hb =>
    split at h
    next hp => exact .inl ⟨hb, hp, h⟩
    next => cases h
  next hb => cases h; exact .inr ⟨by simpa using hb, rfl⟩

theorem execEncrypt_next (h : execEncrypt s = .next t) :
    (s.status.busy = true ∧ s.status.phase = .keyExp ∧ keyExpStep s = .next t) ∨
      (s.status.busy = true ∧ s.status.phase = .enc ∧ encStep s = .next t) ∨
      (s.status.busy = false ∧ s.status.ksValid = true ∧ t = accept 0x30 .enc 0 s) ∨
      (s.status.busy = false ∧ s.status.ksValid = false ∧ t = startExpansion 0x30 s) := by
  unfold execEncrypt at h
  split at h
  next hb =>
    split at h
    next hp => exact .inl ⟨hb, hp, h⟩
    next hp => exact .inr (.inl ⟨hb, hp, h⟩)
    next => cases h
  next hb =>
    split at h
    next hk => cases h; exact .inr (.inr (.inl ⟨by simpa using hb, hk, rfl⟩))
    next hk => cases h; exact .inr (.inr (.inr ⟨by simpa using hb, by simpa using hk, rfl⟩))

theorem execDecrypt_next (h : execDecrypt s = .next t) :
    (s.status.busy = true ∧ s.status.phase = .keyExp ∧ keyExpStep s = .next t) ∨
      (s.status.busy = true ∧ s.status.phase = .dec ∧ decStep s = .next t) ∨
      (s.status.busy = false ∧ s.status.ksValid = true ∧ t = accept 0x31 .dec 10 s) ∨
      (s.status.busy = false ∧ s.status.ksValid = false ∧ t = startExpansion 0x31 s) := by
  unfold execDecrypt at h
  split at h
  next hb =>
    split at h
    next hp => exact .inl ⟨hb, hp, h⟩
    next hp => exact .inr (.inl ⟨hb, hp, h⟩)
    next => cases h
  next hb =>
    split at h
    next hk => cases h; exact .inr (.inr (.inl ⟨by simpa using hb, hk, rfl⟩))
    next hk => cases h; exact .inr (.inr (.inr ⟨by simpa using hb, by simpa using hk, rfl⟩))

/-! ### exec, command by command; the ten single-step commands without an operand are one shared operation -/

theorem exec_gfmul : exec .gfmul s = singleStep 0x01 (fun s => s.setGfResult (multiply s.gfA s.gfB)) s := rfl
theorem exec_gfinv : exec .gfinv s = singleStep 0x02 (fun s => s.setGfResult (inverse s.gfA)) s := rfl
theorem exec_sbox : exec .sbox s = singleStep 0x03 (fun s => s.setGfResult (forwardSbox s.gfA)) s := rfl
theorem exec_invSbox : exec .invSbox s = singleStep 0x04 (fun s => s.setGfResult (inverseSbox s.gfA)) s := rfl
theorem exec_subBytes : exec .subBytes s = singleStep 0x10 (fun s => s.setState (subBytes s.state)) s := rfl
theorem exec_invSubBytes : exec .invSubBytes s = singleStep 0x11 (fun s => s.setState (invSubBytes s.state)) s := rfl
theorem exec_shiftRows : exec .shiftRows s = singleStep 0x12 (fun s => s.setState (shiftRows s.state)) s := rfl
theorem exec_invShiftRows : exec .invShiftRows s = singleStep 0x13 (fun s => s.setState (invShiftRows s.state)) s := rfl
theorem exec_mixColumns : exec .mixColumns s = singleStep 0x14 (fun s => s.setState (mixColumns s.state)) s := rfl
theorem exec_invMixColumns : exec .invMixColumns s = singleStep 0x15 (fun s => s.setState (invMixColumns s.state)) s := rfl
theorem exec_addRoundKey {r : BitVec 4} : exec (.addRoundKey r) s = execAddRoundKey r s := rfl
theorem exec_keyExpand : exec .keyExpand s = execKeyExpand s := rfl
theorem exec_encrypt : exec .encrypt s = execEncrypt s := rfl
theorem exec_decrypt : exec .decrypt s = execDecrypt s := rfl

/-- What no command changes: the operand registers, IRQEN, the reset line, and the environment's fields. -/
structure SameEnvironment (s t : State) : Prop where
  gfA : t.gfA = s.gfA
  gfB : t.gfB = s.gfB
  key : t.key = s.key
  irqen : t.irqen = s.irqen
  rst : t.rst = s.rst
  schedule : t.schedule = s.schedule
  bus : t.bus = s.bus
  draws : t.draws = s.draws

theorem SameEnvironment.refl (s : State) : SameEnvironment s s := ⟨rfl, rfl, rfl, rfl, rfl, rfl, rfl, rfl⟩

theorem SameEnvironment.status {st : Status} (h : SameEnvironment s t) : SameEnvironment s (t.setStatus st) :=
  ⟨h.1, h.2, h.3, h.4, h.5, h.6, h.7, h.8⟩

theorem SameEnvironment.result {v : Byte} (h : SameEnvironment s t) : SameEnvironment s (t.setGfResult v) :=
  ⟨h.1, h.2, h.3, h.4, h.5, h.6, h.7, h.8⟩

theorem SameEnvironment.state {m : ByteMatrix} (h : SameEnvironment s t) : SameEnvironment s (t.setState m) :=
  ⟨h.1, h.2, h.3, h.4, h.5, h.6, h.7, h.8⟩

theorem SameEnvironment.roundKey {r : Nat} {m : ByteMatrix} (h : SameEnvironment s t) : SameEnvironment s (t.setRk r m) :=
  ⟨h.1, h.2, h.3, h.4, h.5, h.6, h.7, h.8⟩

theorem singleStep_keeps_environment {op : Byte} {f : State → State} (h : singleStep op f s = .next t)
    (hf : SameEnvironment s (f s)) : SameEnvironment s t := by
  rcases singleStep_next h with ⟨-, rfl⟩ | ⟨-, -, rfl⟩
  · exact (SameEnvironment.refl s).status
  · exact hf.status

theorem keyExpStep_keeps_environment (h : keyExpStep s = .next t) : SameEnvironment s t := by
  obtain ⟨k, -, -, ⟨-, rfl⟩ | ⟨-, hf⟩⟩ := keyExpStep_next h
  · exact (SameEnvironment.refl s).roundKey.status
  · rcases finishExpansion_next hf with ⟨-, rfl⟩ | ⟨-, rfl⟩ | ⟨-, rfl⟩ <;>
      exact (SameEnvironment.refl s).roundKey.status.status

/-- No command touches the environment, at any of its transitions. -/
theorem exec_keeps_environment {i : Instr} (h : exec i s = .next t) : SameEnvironment s t := by
  have same := SameEnvironment.refl s
  cases i with
  | gfmul => rw [exec_gfmul] at h; exact singleStep_keeps_environment h same.result
  | gfinv => rw [exec_gfinv] at h; exact singleStep_keeps_environment h same.result
  | sbox => rw [exec_sbox] at h; exact singleStep_keeps_environment h same.result
  | invSbox => rw [exec_invSbox] at h; exact singleStep_keeps_environment h same.result
  | subBytes => rw [exec_subBytes] at h; exact singleStep_keeps_environment h same.state
  | invSubBytes => rw [exec_invSubBytes] at h; exact singleStep_keeps_environment h same.state
  | shiftRows => rw [exec_shiftRows] at h; exact singleStep_keeps_environment h same.state
  | invShiftRows => rw [exec_invShiftRows] at h; exact singleStep_keeps_environment h same.state
  | mixColumns => rw [exec_mixColumns] at h; exact singleStep_keeps_environment h same.state
  | invMixColumns => rw [exec_invMixColumns] at h; exact singleStep_keeps_environment h same.state
  | addRoundKey r =>
    rw [exec_addRoundKey] at h
    rcases execAddRoundKey_next h with ⟨-, -, k, -, rfl⟩ | ⟨-, -, rfl⟩ | ⟨-, -, -, rfl⟩ | ⟨-, -, -, rfl⟩
    · exact same.state.status
    all_goals exact same.status
  | keyExpand =>
    rw [exec_keyExpand] at h
    rcases execKeyExpand_next h with ⟨-, -, h⟩ | ⟨-, rfl⟩
    · exact keyExpStep_keeps_environment h
    · exact same.status.roundKey.status
  | encrypt =>
    rw [exec_encrypt] at h
    rcases execEncrypt_next h with ⟨-, -, h⟩ | ⟨-, -, h⟩ | ⟨-, -, rfl⟩ | ⟨-, -, rfl⟩
    · exact keyExpStep_keeps_environment h
    · obtain ⟨k, -, ⟨-, rfl⟩ | ⟨-, -, rfl⟩ | ⟨-, rfl⟩⟩ := encStep_next h <;> exact same.state.status
    · exact same.status
    · exact same.roundKey.status
  | decrypt =>
    rw [exec_decrypt] at h
    rcases execDecrypt_next h with ⟨-, -, h⟩ | ⟨-, -, h⟩ | ⟨-, -, rfl⟩ | ⟨-, -, rfl⟩
    · exact keyExpStep_keeps_environment h
    · obtain ⟨k, -, ⟨-, rfl⟩ | ⟨-, -, rfl⟩ | ⟨-, rfl⟩⟩ := decStep_next h <;> exact same.state.status
    · exact same.status
    · exact same.roundKey.status

/-! ## The register map -/

theorem regAt_stateW {off : BitVec 12} {c : Fin 4} (h : off.toNat = 0x020 + 4 * c.val) : regAt off = .stateW c := by
  have hc := c.isLt
  unfold regAt
  repeat rw [if_neg (by omega)]
  rw [dif_pos (by omega)]
  congr 1
  exact Fin.ext (by simp only; omega)

theorem regAt_keyW {off : BitVec 12} {c : Fin 4} (h : off.toNat = 0x030 + 4 * c.val) : regAt off = .keyW c := by
  have hc := c.isLt
  unfold regAt
  repeat rw [if_neg (by omega)]
  rw [dif_neg (by omega), dif_pos (by omega)]
  congr 1
  exact Fin.ext (by simp only; omega)

theorem regAt_rkW {off : BitVec 12} {r : Fin 11} {c : Fin 4} (h : off.toNat = 0x100 + 16 * r.val + 4 * c.val) :
    regAt off = .rkW r c := by
  have hr := r.isLt
  have hc := c.isLt
  unfold regAt
  repeat rw [if_neg (by omega)]
  rw [dif_neg (by omega), dif_neg (by omega), dif_pos (by omega)]
  congr 1
  · exact Fin.ext (by simp only; omega)
  · exact Fin.ext (by simp only; omega)

theorem regAt_reserved {off : BitVec 12} (ha : off.toNat % 4 = 0)
    (h : off.toNat = 0x01C ∨ (0x040 ≤ off.toNat ∧ off.toNat ≤ 0x0FC) ∨ 0x1B0 ≤ off.toNat) : regAt off = .reserved := by
  unfold regAt
  repeat rw [if_neg (by omega)]
  rw [dif_neg (by omega), dif_neg (by omega), dif_neg (by omega)]

/-- Which offsets name which register: the register map read backwards, on aligned offsets. -/
theorem regAt_cases (off : BitVec 12) (ha : off.toNat % 4 = 0) :
    (regAt off = .id ∧ off = 0x000) ∨ (regAt off = .cmd ∧ off = 0x004) ∨ (regAt off = .status ∧ off = 0x008) ∨
      (regAt off = .irqen ∧ off = 0x00C) ∨ (regAt off = .gfA ∧ off = 0x010) ∨ (regAt off = .gfB ∧ off = 0x014) ∨
      (regAt off = .gfResult ∧ off = 0x018) ∨
      (∃ c : Fin 4, regAt off = .stateW c ∧ off.toNat = 0x020 + 4 * c.val) ∨
      (∃ c : Fin 4, regAt off = .keyW c ∧ off.toNat = 0x030 + 4 * c.val) ∨
      (∃ (r : Fin 11) (c : Fin 4), regAt off = .rkW r c ∧ off.toNat = 0x100 + 16 * r.val + 4 * c.val) ∨
      (regAt off = .reserved ∧
        (off.toNat = 0x01C ∨ (0x040 ≤ off.toNat ∧ off.toNat ≤ 0x0FC) ∨ 0x1B0 ≤ off.toNat)) := by
  have named : ∀ n : Nat, n < 4096 → off.toNat = n → off = BitVec.ofNat 12 n := by
    intro n hn h
    exact BitVec.eq_of_toNat_eq (by simp [h, Nat.mod_eq_of_lt hn])
  by_cases hl : off.toNat < 0x01C
  · have : off.toNat = 0x000 ∨ off.toNat = 0x004 ∨ off.toNat = 0x008 ∨ off.toNat = 0x00C ∨ off.toNat = 0x010 ∨
        off.toNat = 0x014 ∨ off.toNat = 0x018 := by omega
    rcases this with h | h | h | h | h | h | h <;> simp [regAt, named _ (by decide) h]
  · iterate 7 right
    by_cases h2 : 0x020 ≤ off.toNat ∧ off.toNat < 0x030
    · exact .inl ⟨⟨(off.toNat - 0x020) / 4, by omega⟩, regAt_stateW (by simp only; omega), by simp only; omega⟩
    right
    by_cases h3 : 0x030 ≤ off.toNat ∧ off.toNat < 0x040
    · exact .inl ⟨⟨(off.toNat - 0x030) / 4, by omega⟩, regAt_keyW (by simp only; omega), by simp only; omega⟩
    right
    by_cases h4 : 0x100 ≤ off.toNat ∧ off.toNat < 0x1B0
    · exact .inl ⟨⟨(off.toNat - 0x100) / 16, by omega⟩, ⟨(off.toNat - 0x100) % 16 / 4, by omega⟩,
        regAt_rkW (by simp only; omega), by simp only; omega⟩
    · exact .inr ⟨regAt_reserved ha (by omega), by omega⟩

/-! ## Host transactions and the step of the machine -/

theorem performed_read {off : BitVec 12} {size : AccessSize} :
    (Transaction.read off size).performed = true ↔ size = .bytes4 ∧ off.toNat % 4 = 0 := by
  simp [Transaction.performed]

theorem performed_write {off : BitVec 12} {size : AccessSize} {v : Word32} :
    (Transaction.write off size v).performed = true ↔ size = .bytes4 ∧ off.toNat % 4 = 0 := by
  simp [Transaction.performed]

/-- A read leaves the state alone, but for the draw counter of a result register read while BUSY = 1 (R41, R47). -/
theorem memRead_state (off : BitVec 12) (s : State) :
    (memRead off s).2 = s ∨ (s.status.busy = true ∧ (memRead off s).2 = s.setDraws (s.draws + 1)) := by
  have result (v : Word32) : (readResult v s).2 = s ∨ (s.status.busy = true ∧ (readResult v s).2 = s.setDraws (s.draws + 1)) := by
    unfold readResult
    split
    next h => exact .inr ⟨h, rfl⟩
    next => exact .inl rfl
  unfold memRead
  split <;> first | exact .inl rfl | exact result _

theorem transact_read {off : BitVec 12} (ha : off.toNat % 4 = 0) :
    transact (.read off .bytes4) s = .next (hostRead off s) := by
  simp [transact, performed_read, ha]

theorem transact_write {off : BitVec 12} {v : Word32} (ha : off.toNat % 4 = 0) :
    transact (.write off .bytes4 v) s = memWrite off v (s.setBus .written) := by
  simp [transact, performed_write, ha]

theorem transact_unperformed {tr : Transaction} (h : tr.performed = false) :
    transact tr s = .next (s.setBus (.error 0)) := by
  simp [transact, h]

/-- Everything a host transaction can do. -/
theorem transact_next {tr : Transaction} (h : transact tr s = .next t) :
    (tr.performed = false ∧ t = s.setBus (.error 0)) ∨
      (∃ off, tr = .read off .bytes4 ∧ off.toNat % 4 = 0 ∧ t = hostRead off s) ∨
      (∃ off v, tr = .write off .bytes4 v ∧ off.toNat % 4 = 0 ∧ memWrite off v (s.setBus .written) = .next t) := by
  unfold transact at h
  split at h
  next hp =>
    split at h
    next off size =>
      obtain ⟨rfl, ha⟩ := performed_read.mp hp
      cases h; exact .inr (.inl ⟨off, rfl, ha, rfl⟩)
    next off size v =>
      obtain ⟨rfl, ha⟩ := performed_write.mp hp
      exact .inr (.inr ⟨off, v, rfl, ha, h⟩)
  next hp => cases h; exact .inl ⟨by simpa using hp, rfl⟩

/-- Everything a performed write can do: raise one error, run a command, update one register, or nothing (R42). -/
theorem memWrite_next {off : BitVec 12} {v : Word32} (ha : off.toNat % 4 = 0) (h : memWrite off v s = .next t) :
    (s.status.busy = true ∧ (off = 0x004 ∨ off = 0x010 ∨ off = 0x014 ∨ (0x020 ≤ off.toNat ∧ off.toNat < 0x040)) ∧
        t = raise .busywr s) ∨
      (s.status.busy = false ∧ off = 0x004 ∧ ∃ e, decodeWord v = .error e ∧ t = raise .illegal s) ∨
      (s.status.busy = false ∧ off = 0x004 ∧ ∃ i, decodeWord v = .ok i ∧ exec i s = .next t) ∨
      (off = 0x008 ∧ t = statusW1c v s) ∨
      (off = 0x00C ∧ t = s.setIrqen (v.extractLsb' 0 2)) ∨
      (s.status.busy = false ∧ off = 0x010 ∧ t = s.setGfA (byteOperand v)) ∨
      (s.status.busy = false ∧ off = 0x014 ∧ t = s.setGfB (byteOperand v)) ∨
      (s.status.busy = false ∧ ∃ c : Fin 4, off.toNat = 0x020 + 4 * c.val ∧ t = s.setState (unpack v c s.state)) ∨
      (s.status.busy = false ∧ ∃ c : Fin 4, off.toNat = 0x030 + 4 * c.val ∧ t = writeKeyWord v c s) ∨
      t = s := by
  have operand {f : State → State} (h : Host.Outcome.next (writeOperand f s) = (.next t : Host.Outcome State Fault Refusal)) :
      (s.status.busy = true ∧ t = raise .busywr s) ∨ (s.status.busy = false ∧ t = f s) := by
    unfold writeOperand at h
    split at h
    next hb => cases h; exact .inl ⟨hb, rfl⟩
    next hb => cases h; exact .inr ⟨by simpa using hb, rfl⟩
  rcases regAt_cases off ha with ⟨hr, ho⟩ | ⟨hr, ho⟩ | ⟨hr, ho⟩ | ⟨hr, ho⟩ | ⟨hr, ho⟩ | ⟨hr, ho⟩ | ⟨hr, ho⟩ |
    ⟨c, hr, ho⟩ | ⟨c, hr, ho⟩ | ⟨r, c, hr, ho⟩ | ⟨hr, ho⟩ <;> simp only [memWrite, hr] at h
  · cases h; iterate 9 right
    rfl
  · unfold writeCmd acceptWord at h
    split at h
    next hb => cases h; exact .inl ⟨hb, .inl ho, rfl⟩
    next hb =>
      have hb' : s.status.busy = false := by simpa using hb
      split at h
      next i hd => exact .inr (.inr (.inl ⟨hb', ho, i, hd, h⟩))
      next e hd => cases h; exact .inr (.inl ⟨hb', ho, e, hd, rfl⟩)
  · cases h; exact .inr (.inr (.inr (.inl ⟨ho, rfl⟩)))
  · cases h; exact .inr (.inr (.inr (.inr (.inl ⟨ho, rfl⟩))))
  · rcases operand h with ⟨hb, rfl⟩ | ⟨hb, rfl⟩
    · exact .inl ⟨hb, .inr (.inl ho), rfl⟩
    · iterate 5 right
      exact .inl ⟨hb, ho, rfl⟩
  · rcases operand h with ⟨hb, rfl⟩ | ⟨hb, rfl⟩
    · exact .inl ⟨hb, .inr (.inr (.inl ho)), rfl⟩
    · iterate 6 right
      exact .inl ⟨hb, ho, rfl⟩
  · cases h; iterate 9 right
    rfl
  · rcases operand h with ⟨hb, rfl⟩ | ⟨hb, rfl⟩
    · exact .inl ⟨hb, .inr (.inr (.inr ⟨by omega, by omega⟩)), rfl⟩
    · iterate 7 right
      exact .inl ⟨hb, c, ho, rfl⟩
  · rcases operand h with ⟨hb, rfl⟩ | ⟨hb, rfl⟩
    · exact .inl ⟨hb, .inr (.inr (.inr ⟨by omega, by omega⟩)), rfl⟩
    · iterate 8 right
      exact .inl ⟨hb, c, ho, rfl⟩
  · cases h; iterate 9 right
    rfl
  · cases h; iterate 9 right
    rfl

theorem engineTurn_next (h : engineTurn s = .next t) :
    (s.status.busy = true ∧ s.rst = false ∧ ∃ i, commandInProgress s.status = some i ∧ exec i s = .next t) ∨
      ((s.status.busy = false ∨ s.rst = true) ∧ t = s) := by
  unfold engineTurn at h
  split at h
  next hb =>
    obtain ⟨hb, hr⟩ : s.status.busy = true ∧ s.rst = false := by simpa using hb
    unfold engineStep at h
    split at h
    next i hi => exact .inl ⟨hb, hr, i, hi, h⟩
    next => cases h
  next hb =>
    cases h
    refine .inr ⟨?_, rfl⟩
    cases hbusy : s.status.busy <;> cases hrst : s.rst <;> simp_all

/-- Everything a step can do: the engine's move (asked for or, with no move listed, by default), a host transaction, or an
edge of the reset line; and only at a legal FSM state. -/
theorem step_next (h : step s = .next t) : s.status.fsmLegal = true ∧
    ((s.schedule = [] ∧ engineTurn s = .next t) ∨
      (∃ ms, s.schedule = .engine :: ms ∧ engineTurn (s.setSchedule ms) = .next t) ∨
      (∃ tr ms, s.schedule = .host tr :: ms ∧ s.rst = false ∧ transact tr (s.setSchedule ms) = .next t) ∨
      (∃ ms, s.schedule = .rstAssert :: ms ∧ t = resetEvent ((s.setSchedule ms).setRst true)) ∨
      (∃ ms, s.schedule = .rstRelease :: ms ∧ t = (s.setSchedule ms).setRst false)) := by
  unfold step advance at h
  split at h
  next hl =>
    refine ⟨hl, ?_⟩
    split at h
    next hs => exact .inl ⟨hs, h⟩
    next ms hs => exact .inr (.inl ⟨ms, hs, h⟩)
    next tr ms hs =>
      unfold hostTurn at h
      split at h
      next => cases h
      next hr => exact .inr (.inr (.inl ⟨tr, ms, hs, by simpa using hr, h⟩))
    next ms hs => cases h; exact .inr (.inr (.inr (.inl ⟨ms, hs, rfl⟩)))
    next ms hs => cases h; exact .inr (.inr (.inr (.inr ⟨ms, hs, rfl⟩)))
  next => cases h

theorem step_host {tr : Transaction} {ms : List Move} (hl : s.status.fsmLegal = true) (hr : s.rst = false)
    (hs : s.schedule = .host tr :: ms) : step s = transact tr (s.setSchedule ms) := by
  simp [step, advance, hl, hs, hostTurn, hr]

theorem step_engine {ms : List Move} (hl : s.status.fsmLegal = true) (hs : s.schedule = .engine :: ms) :
    step s = engineTurn (s.setSchedule ms) := by
  simp [step, advance, hl, hs]

theorem step_quiet (hl : s.status.fsmLegal = true) (hs : s.schedule = []) : step s = engineTurn s := by
  simp [step, advance, hl, hs]

theorem engineTurn_busy (hb : s.status.busy = true) (hr : s.rst = false) : engineTurn s = engineStep s := by
  simp [engineTurn, hb, hr]

end Sys2Proof.Machine
end

