-- ==== Sys2Proof/Laws/Field.lean ====
section
/-! SUPPORT. Field arithmetic made quick to evaluate: multiply on natural numbers, and the 256-entry tables of
40_field_arithmetic.md section 3 and 41_sbox.md section 4, which the model's procedures are proved to give (R69, R78). -/

namespace Sys2Proof.Machine

/-! ## multiply on natural numbers -/

/-- One step of the accumulation: XOR of `b << i` if bit i of `a` is set, the source's first description of multiply
(90_conflicts.md C1). -/
def clmulStepNat (a b acc i : Nat) : Nat :=
  bif Nat.beq (Nat.land (Nat.shiftRight a i) 1) 1 then Nat.xor acc (Nat.shiftLeft b i) else acc

/-- One step of the reduction by 0x11B. -/
def reduceStepNat (acc p : Nat) : Nat :=
  bif Nat.beq (Nat.land (Nat.shiftRight acc p) 1) 1 then Nat.xor acc (Nat.shiftLeft 0x11B (p - 8)) else acc

/-- multiply on natural numbers, for quick evaluation. -/
def multiplyNat (a b : Nat) : Nat :=
  [14, 13, 12, 11, 10, 9, 8].foldl reduceStepNat ([0, 1, 2, 3, 4, 5, 6, 7].foldl (clmulStepNat a b) 0)

theorem testBit_eq_shift (n i : Nat) : Nat.beq (Nat.land (Nat.shiftRight n i) 1) 1 = n.testBit i := by
  have h : Nat.land (Nat.shiftRight n i) 1 = (n >>> i) % 2 := Nat.and_one_is_mod _
  rw [h, Nat.testBit_eq_decide_div_mod_eq, Nat.shiftRight_eq_div_pow]
  rcases Nat.mod_two_eq_zero_or_one (n / 2 ^ i) with h | h <;> rw [h] <;> rfl

/-- The inner loop of R64 for row `i`: XOR of `b << i`. -/
theorem clmul_inner (b : Byte) (i : Nat) (hi : i < 8) (acc : BitVec 16) :
    [0, 1, 2, 3, 4, 5, 6, 7].foldl (init := acc) (fun acc j =>
      if b.getLsbD j then acc ^^^ ((1 : BitVec 16) <<< (i + j)) else acc) = acc ^^^ (b.setWidth 16 <<< i) := by
  have zero : ∀ (b : Byte) (i : Fin 8), [0, 1, 2, 3, 4, 5, 6, 7].foldl (init := (0 : BitVec 16)) (fun acc j =>
      if b.getLsbD j then acc ^^^ ((1 : BitVec 16) <<< (i.val + j)) else acc) = b.setWidth 16 <<< i.val := by
    decide +kernel
  have shift : ∀ (l : List Nat) (acc : BitVec 16), l.foldl (init := acc) (fun acc j =>
      if b.getLsbD j then acc ^^^ ((1 : BitVec 16) <<< (i + j)) else acc) =
      acc ^^^ l.foldl (init := 0) (fun acc j =>
        if b.getLsbD j then acc ^^^ ((1 : BitVec 16) <<< (i + j)) else acc) := by
    intro l
    induction l with
    | nil => simp
    | cons j l ih =>
      intro acc
      rw [List.foldl_cons, List.foldl_cons, ih, ih (if b.getLsbD j then (0 : BitVec 16) ^^^ _ else 0)]
      split <;> simp [BitVec.xor_assoc]
  rw [shift, zero b ⟨i, hi⟩]

/-- The accumulation of R64 row by row, on natural numbers. -/
theorem clmul_toNat_step (a b : Byte) (acc : BitVec 16) (i : Nat) (hi : i < 8) :
    ([0, 1, 2, 3, 4, 5, 6, 7].foldl (init := acc) (fun acc j =>
      if a.getLsbD i && b.getLsbD j then acc ^^^ ((1 : BitVec 16) <<< (i + j)) else acc)).toNat =
      clmulStepNat a.toNat b.toNat acc.toNat i := by
  have hb : b.toNat <<< i < 2 ^ 16 := by
    rw [Nat.shiftLeft_eq]
    calc b.toNat * 2 ^ i ≤ 255 * 2 ^ 7 := Nat.mul_le_mul (by omega) (Nat.pow_le_pow_right (by decide) (by omega))
      _ < 2 ^ 16 := by decide
  have row : (b.setWidth 16 <<< i).toNat = b.toNat <<< i := by
    have hb' : b.toNat % 2 ^ 16 = b.toNat := Nat.mod_eq_of_lt (by omega)
    rw [BitVec.toNat_shiftLeft, BitVec.toNat_setWidth, hb', Nat.mod_eq_of_lt hb]
  rw [clmulStepNat, testBit_eq_shift, BitVec.testBit_toNat]
  cases a.getLsbD i
  · simp
  · simp only [Bool.true_and, cond_true]
    rw [clmul_inner b i hi, BitVec.toNat_xor, row]
    rfl

/-- One reduction step of R64, on natural numbers. -/
theorem reduce_toNat_step (acc : BitVec 16) (p : Nat) (hp : 8 ≤ p ∧ p < 15) :
    (if acc.getLsbD p then acc ^^^ ((0x11B : BitVec 16) <<< (p - 8)) else acc).toNat = reduceStepNat acc.toNat p := by
  have row : ((0x11B : BitVec 16) <<< (p - 8)).toNat = 0x11B <<< (p - 8) := by
    obtain ⟨q, rfl⟩ : ∃ q, p = 8 + q := ⟨p - 8, by omega⟩
    rw [Nat.add_sub_cancel_left]
    have : q < 7 := by omega
    interval_cases q <;> rfl
  rw [reduceStepNat, testBit_eq_shift, BitVec.testBit_toNat]
  cases acc.getLsbD p
  · rfl
  · simp only [cond_true, if_true, BitVec.toNat_xor, row]
    rfl

/-- Folds whose steps agree through toNat agree through toNat. -/
theorem foldl_toNat (f : BitVec 16 → Nat → BitVec 16) (g : Nat → Nat → Nat) (l : List Nat)
    (h : ∀ acc, ∀ i ∈ l, (f acc i).toNat = g acc.toNat i) (acc : BitVec 16) :
    (l.foldl f acc).toNat = l.foldl g acc.toNat := by
  induction l generalizing acc with
  | nil => rfl
  | cons i l ih =>
    rw [List.foldl_cons, List.foldl_cons, ih (fun acc j hj => h acc j (List.mem_cons_of_mem _ hj)),
      h acc i List.mem_cons_self]

/-- multiply is multiplyNat on the bytes' numbers. -/
theorem multiply_toNat (a b : Byte) : (multiply a b).toNat = multiplyNat a.toNat b.toNat % 256 := by
  have rows : (clmul a b).toNat = [0, 1, 2, 3, 4, 5, 6, 7].foldl (clmulStepNat a.toNat b.toNat) 0 :=
    foldl_toNat _ _ _ (fun acc i hi => clmul_toNat_step a b acc i (by fin_cases hi <;> decide)) 0
  have steps (acc : BitVec 16) : (reduce acc).toNat = [14, 13, 12, 11, 10, 9, 8].foldl reduceStepNat acc.toNat :=
    foldl_toNat _ _ _ (fun acc p hp => reduce_toNat_step acc p (by fin_cases hp <;> decide)) acc
  rw [multiply, BitVec.toNat_setWidth, steps, rows]
  rfl

/-! ## The tables -/

/-- inverse on natural numbers, for quick evaluation. -/
def inverseLoopNat : Nat → Nat → Nat → Nat
  | 0, acc, _ => acc
  | n + 1, acc, sq => inverseLoopNat n (multiplyNat acc sq % 256) (multiplyNat sq sq % 256)

theorem inverseLoop_toNat (n : Nat) (acc sq : Byte) :
    (inverseLoop n (acc, sq)).1.toNat = inverseLoopNat n acc.toNat sq.toNat := by
  induction n generalizing acc sq with
  | zero => rfl
  | succ n ih => rw [inverseLoop, ih, inverseLoopNat, multiply_toNat, multiply_toNat]

theorem inverse_toNat (a : Byte) :
    (inverse a).toNat = inverseLoopNat 7 1 (multiplyNat a.toNat a.toNat % 256) := by
  rw [inverse, inverseLoop_toNat, multiply_toNat]
  rfl

/-- The table of `inverse(16 hi + lo)`, row by row (40_field_arithmetic.md section 3). -/
def inverseTable : List Nat :=
  [0x00, 0x01, 0x8D, 0xF6, 0xCB, 0x52, 0x7B, 0xD1, 0xE8, 0x4F, 0x29, 0xC0, 0xB0, 0xE1, 0xE5, 0xC7] ++
    [0x74, 0xB4, 0xAA, 0x4B, 0x99, 0x2B, 0x60, 0x5F, 0x58, 0x3F, 0xFD, 0xCC, 0xFF, 0x40, 0xEE, 0xB2] ++
    [0x3A, 0x6E, 0x5A, 0xF1, 0x55, 0x4D, 0xA8, 0xC9, 0xC1, 0x0A, 0x98, 0x15, 0x30, 0x44, 0xA2, 0xC2] ++
    [0x2C, 0x45, 0x92, 0x6C, 0xF3, 0x39, 0x66, 0x42, 0xF2, 0x35, 0x20, 0x6F, 0x77, 0xBB, 0x59, 0x19] ++
    [0x1D, 0xFE, 0x37, 0x67, 0x2D, 0x31, 0xF5, 0x69, 0xA7, 0x64, 0xAB, 0x13, 0x54, 0x25, 0xE9, 0x09] ++
    [0xED, 0x5C, 0x05, 0xCA, 0x4C, 0x24, 0x87, 0xBF, 0x18, 0x3E, 0x22, 0xF0, 0x51, 0xEC, 0x61, 0x17] ++
    [0x16, 0x5E, 0xAF, 0xD3, 0x49, 0xA6, 0x36, 0x43, 0xF4, 0x47, 0x91, 0xDF, 0x33, 0x93, 0x21, 0x3B] ++
    [0x79, 0xB7, 0x97, 0x85, 0x10, 0xB5, 0xBA, 0x3C, 0xB6, 0x70, 0xD0, 0x06, 0xA1, 0xFA, 0x81, 0x82] ++
    [0x83, 0x7E, 0x7F, 0x80, 0x96, 0x73, 0xBE, 0x56, 0x9B, 0x9E, 0x95, 0xD9, 0xF7, 0x02, 0xB9, 0xA4] ++
    [0xDE, 0x6A, 0x32, 0x6D, 0xD8, 0x8A, 0x84, 0x72, 0x2A, 0x14, 0x9F, 0x88, 0xF9, 0xDC, 0x89, 0x9A] ++
    [0xFB, 0x7C, 0x2E, 0xC3, 0x8F, 0xB8, 0x65, 0x48, 0x26, 0xC8, 0x12, 0x4A, 0xCE, 0xE7, 0xD2, 0x62] ++
    [0x0C, 0xE0, 0x1F, 0xEF, 0x11, 0x75, 0x78, 0x71, 0xA5, 0x8E, 0x76, 0x3D, 0xBD, 0xBC, 0x86, 0x57] ++
    [0x0B, 0x28, 0x2F, 0xA3, 0xDA, 0xD4, 0xE4, 0x0F, 0xA9, 0x27, 0x53, 0x04, 0x1B, 0xFC, 0xAC, 0xE6] ++
    [0x7A, 0x07, 0xAE, 0x63, 0xC5, 0xDB, 0xE2, 0xEA, 0x94, 0x8B, 0xC4, 0xD5, 0x9D, 0xF8, 0x90, 0x6B] ++
    [0xB1, 0x0D, 0xD6, 0xEB, 0xC6, 0x0E, 0xCF, 0xAD, 0x08, 0x4E, 0xD7, 0xE3, 0x5D, 0x50, 0x1E, 0xB3] ++
    [0x5B, 0x23, 0x38, 0x34, 0x68, 0x46, 0x03, 0x8C, 0xDD, 0x9C, 0x7D, 0xA0, 0xCD, 0x1A, 0x41, 0x1C]

/-- R69: the procedure of R67 gives the table. -/
theorem inverse_eq_table (a : Byte) : inverse a = BitVec.ofNat 8 (inverseTable.getD a.toNat 0) := by
  have table : (List.range 256).map (fun n => inverseLoopNat 7 1 (multiplyNat n n % 256)) = inverseTable := by
    decide +kernel
  have ha : a.toNat < 256 := a.isLt
  apply BitVec.eq_of_toNat_eq
  rw [← table, inverse_toNat]
  rw [BitVec.toNat_ofNat, List.getD_eq_getElem _ _ (by simpa using ha), List.getElem_map, List.getElem_range]
  rw [← inverse_toNat]
  exact (Nat.mod_eq_of_lt (inverse a).isLt).symm

/-- The table of forward_sbox (41_sbox.md section 4). -/
def forwardSboxTable : List Nat :=
  [0x63, 0x7C, 0x77, 0x7B, 0xF2, 0x6B, 0x6F, 0xC5, 0x30, 0x01, 0x67, 0x2B, 0xFE, 0xD7, 0xAB, 0x76] ++
    [0xCA, 0x82, 0xC9, 0x7D, 0xFA, 0x59, 0x47, 0xF0, 0xAD, 0xD4, 0xA2, 0xAF, 0x9C, 0xA4, 0x72, 0xC0] ++
    [0xB7, 0xFD, 0x93, 0x26, 0x36, 0x3F, 0xF7, 0xCC, 0x34, 0xA5, 0xE5, 0xF1, 0x71, 0xD8, 0x31, 0x15] ++
    [0x04, 0xC7, 0x23, 0xC3, 0x18, 0x96, 0x05, 0x9A, 0x07, 0x12, 0x80, 0xE2, 0xEB, 0x27, 0xB2, 0x75] ++
    [0x09, 0x83, 0x2C, 0x1A, 0x1B, 0x6E, 0x5A, 0xA0, 0x52, 0x3B, 0xD6, 0xB3, 0x29, 0xE3, 0x2F, 0x84] ++
    [0x53, 0xD1, 0x00, 0xED, 0x20, 0xFC, 0xB1, 0x5B, 0x6A, 0xCB, 0xBE, 0x39, 0x4A, 0x4C, 0x58, 0xCF] ++
    [0xD0, 0xEF, 0xAA, 0xFB, 0x43, 0x4D, 0x33, 0x85, 0x45, 0xF9, 0x02, 0x7F, 0x50, 0x3C, 0x9F, 0xA8] ++
    [0x51, 0xA3, 0x40, 0x8F, 0x92, 0x9D, 0x38, 0xF5, 0xBC, 0xB6, 0xDA, 0x21, 0x10, 0xFF, 0xF3, 0xD2] ++
    [0xCD, 0x0C, 0x13, 0xEC, 0x5F, 0x97, 0x44, 0x17, 0xC4, 0xA7, 0x7E, 0x3D, 0x64, 0x5D, 0x19, 0x73] ++
    [0x60, 0x81, 0x4F, 0xDC, 0x22, 0x2A, 0x90, 0x88, 0x46, 0xEE, 0xB8, 0x14, 0xDE, 0x5E, 0x0B, 0xDB] ++
    [0xE0, 0x32, 0x3A, 0x0A, 0x49, 0x06, 0x24, 0x5C, 0xC2, 0xD3, 0xAC, 0x62, 0x91, 0x95, 0xE4, 0x79] ++
    [0xE7, 0xC8, 0x37, 0x6D, 0x8D, 0xD5, 0x4E, 0xA9, 0x6C, 0x56, 0xF4, 0xEA, 0x65, 0x7A, 0xAE, 0x08] ++
    [0xBA, 0x78, 0x25, 0x2E, 0x1C, 0xA6, 0xB4, 0xC6, 0xE8, 0xDD, 0x74, 0x1F, 0x4B, 0xBD, 0x8B, 0x8A] ++
    [0x70, 0x3E, 0xB5, 0x66, 0x48, 0x03, 0xF6, 0x0E, 0x61, 0x35, 0x57, 0xB9, 0x86, 0xC1, 0x1D, 0x9E] ++
    [0xE1, 0xF8, 0x98, 0x11, 0x69, 0xD9, 0x8E, 0x94, 0x9B, 0x1E, 0x87, 0xE9, 0xCE, 0x55, 0x28, 0xDF] ++
    [0x8C, 0xA1, 0x89, 0x0D, 0xBF, 0xE6, 0x42, 0x68, 0x41, 0x99, 0x2D, 0x0F, 0xB0, 0x54, 0xBB, 0x16]

/-- The table of inverse_sbox (41_sbox.md section 4). -/
def inverseSboxTable : List Nat :=
  [0x52, 0x09, 0x6A, 0xD5, 0x30, 0x36, 0xA5, 0x38, 0xBF, 0x40, 0xA3, 0x9E, 0x81, 0xF3, 0xD7, 0xFB] ++
    [0x7C, 0xE3, 0x39, 0x82, 0x9B, 0x2F, 0xFF, 0x87, 0x34, 0x8E, 0x43, 0x44, 0xC4, 0xDE, 0xE9, 0xCB] ++
    [0x54, 0x7B, 0x94, 0x32, 0xA6, 0xC2, 0x23, 0x3D, 0xEE, 0x4C, 0x95, 0x0B, 0x42, 0xFA, 0xC3, 0x4E] ++
    [0x08, 0x2E, 0xA1, 0x66, 0x28, 0xD9, 0x24, 0xB2, 0x76, 0x5B, 0xA2, 0x49, 0x6D, 0x8B, 0xD1, 0x25] ++
    [0x72, 0xF8, 0xF6, 0x64, 0x86, 0x68, 0x98, 0x16, 0xD4, 0xA4, 0x5C, 0xCC, 0x5D, 0x65, 0xB6, 0x92] ++
    [0x6C, 0x70, 0x48, 0x50, 0xFD, 0xED, 0xB9, 0xDA, 0x5E, 0x15, 0x46, 0x57, 0xA7, 0x8D, 0x9D, 0x84] ++
    [0x90, 0xD8, 0xAB, 0x00, 0x8C, 0xBC, 0xD3, 0x0A, 0xF7, 0xE4, 0x58, 0x05, 0xB8, 0xB3, 0x45, 0x06] ++
    [0xD0, 0x2C, 0x1E, 0x8F, 0xCA, 0x3F, 0x0F, 0x02, 0xC1, 0xAF, 0xBD, 0x03, 0x01, 0x13, 0x8A, 0x6B] ++
    [0x3A, 0x91, 0x11, 0x41, 0x4F, 0x67, 0xDC, 0xEA, 0x97, 0xF2, 0xCF, 0xCE, 0xF0, 0xB4, 0xE6, 0x73] ++
    [0x96, 0xAC, 0x74, 0x22, 0xE7, 0xAD, 0x35, 0x85, 0xE2, 0xF9, 0x37, 0xE8, 0x1C, 0x75, 0xDF, 0x6E] ++
    [0x47, 0xF1, 0x1A, 0x71, 0x1D, 0x29, 0xC5, 0x89, 0x6F, 0xB7, 0x62, 0x0E, 0xAA, 0x18, 0xBE, 0x1B] ++
    [0xFC, 0x56, 0x3E, 0x4B, 0xC6, 0xD2, 0x79, 0x20, 0x9A, 0xDB, 0xC0, 0xFE, 0x78, 0xCD, 0x5A, 0xF4] ++
    [0x1F, 0xDD, 0xA8, 0x33, 0x88, 0x07, 0xC7, 0x31, 0xB1, 0x12, 0x10, 0x59, 0x27, 0x80, 0xEC, 0x5F] ++
    [0x60, 0x51, 0x7F, 0xA9, 0x19, 0xB5, 0x4A, 0x0D, 0x2D, 0xE5, 0x7A, 0x9F, 0x93, 0xC9, 0x9C, 0xEF] ++
    [0xA0, 0xE0, 0x3B, 0x4D, 0xAE, 0x2A, 0xF5, 0xB0, 0xC8, 0xEB, 0xBB, 0x3C, 0x83, 0x53, 0x99, 0x61] ++
    [0x17, 0x2B, 0x04, 0x7E, 0xBA, 0x77, 0xD6, 0x26, 0xE1, 0x69, 0x14, 0x63, 0x55, 0x21, 0x0C, 0x7D]

/-- R78: forward_sbox, the composition of R75, gives the table. -/
theorem forwardSbox_eq_table (a : Byte) : forwardSbox a = BitVec.ofNat 8 (forwardSboxTable.getD a.toNat 0) := by
  have table : ∀ a : Byte, affine (BitVec.ofNat 8 (inverseTable.getD a.toNat 0)) =
      BitVec.ofNat 8 (forwardSboxTable.getD a.toNat 0) := by decide +kernel
  rw [forwardSbox, inverse_eq_table, table]

/-- R78: inverse_sbox, the composition of R76, gives the table. -/
theorem inverseSbox_eq_table (a : Byte) : inverseSbox a = BitVec.ofNat 8 (inverseSboxTable.getD a.toNat 0) := by
  have table : ∀ a : Byte, BitVec.ofNat 8 (inverseTable.getD (inverseAffine a).toNat 0) =
      BitVec.ofNat 8 (inverseSboxTable.getD a.toNat 0) := by decide +kernel
  rw [inverseSbox, inverse_eq_table, table]

end Sys2Proof.Machine
end

