-- ==== Sys2Proof/Laws/Runs.lean ====
section
/-! SUPPORT. What runs are proved with: a step and a run, what a step does to the list of moves and to the reset line, the
engine steps that a command still needs, and that a command refuses nothing. -/

namespace Sys2Proof.Machine

variable {s t : State}

/-! ## Runs -/

theorem runSteps_zero : runSteps 0 s = .next s := rfl

/-- A run of any machine behind the host's interface, one step taken off its front. -/
theorem run_succ_of_next {M : Host.Core} {n : Nat} {s t : M.State} (h : M.step s = .next t) :
    M.run (n + 1) s = M.run n t := by
  rw [Host.Core.run, h]

theorem runSteps_succ {n : Nat} (h : step s = .next t) : runSteps (n + 1) s = runSteps n t :=
  run_succ_of_next (M := Sys2Proof.core) h

/-- The end of a program, from the end of what is left of it after one step that was not yet the end. -/
theorem EndsAt.succ {n : Nat} {u : State} (h : step s = .next u) (hn : s.ended = false) (he : EndsAt n u t) :
    EndsAt (n + 1) s t := by
  obtain ⟨run, last, first⟩ := he
  refine ⟨by rw [runSteps_succ h]; exact run, last, ?_⟩
  intro k hk
  cases k with
  | zero => exact ⟨s, rfl, hn⟩
  | succ k => rw [runSteps_succ h]; exact first k (by omega)

theorem ended_iff : s.ended = true ↔ s.hostDone = true ∧ s.status.busy = false := by simp [State.ended]

/-! ## What a step does to the environment -/

/-- A host transaction uses up no move and leaves the reset line alone. -/
theorem transact_environment {x : Transaction} (h : transact x s = .next t) : t.schedule = s.schedule ∧ t.rst = s.rst := by
  rcases transact_next h with ⟨-, rfl⟩ | ⟨off, rfl, -, rfl⟩ | ⟨off, v, rfl, ha, h⟩
  · simp
  · rcases memRead_state off s with e | ⟨-, e⟩ <;> simp [hostRead, e]
  · rcases memWrite_next ha h with ⟨-, -, rfl⟩ | ⟨-, -, e, -, rfl⟩ | ⟨-, -, i, -, h⟩ | ⟨-, rfl⟩ | ⟨-, rfl⟩ | ⟨-, -, rfl⟩ |
      ⟨-, -, rfl⟩ | ⟨-, c, -, rfl⟩ | ⟨hb, c, -, rfl⟩ | rfl
    all_goals try simp [writeKeyWord]
    simpa using ⟨(exec_keeps_environment h).schedule, (exec_keeps_environment h).rst⟩

/-- So does the engine's move. -/
theorem engineTurn_environment (h : engineTurn s = .next t) : t.schedule = s.schedule ∧ t.rst = s.rst := by
  rcases engineTurn_next h with ⟨-, -, i, -, h⟩ | ⟨-, rfl⟩
  · exact ⟨(exec_keeps_environment h).schedule, (exec_keeps_environment h).rst⟩
  · exact ⟨rfl, rfl⟩

/-- A step uses up the first move, if there is one. -/
theorem step_schedule (h : step s = .next t) :
    (s.schedule = [] ∧ t.schedule = []) ∨ ∃ m, s.schedule = m :: t.schedule := by
  obtain ⟨-, ⟨hs, h⟩ | ⟨ms, hs, h⟩ | ⟨x, ms, hs, -, h⟩ | ⟨ms, hs, rfl⟩ | ⟨ms, hs, rfl⟩⟩ := step_next h
  · exact .inl ⟨hs, by rw [(engineTurn_environment h).1, hs]⟩
  · exact .inr ⟨.engine, by rw [(engineTurn_environment h).1, hs]; simp⟩
  · exact .inr ⟨.host x, by rw [(transact_environment h).1, hs]; simp⟩
  · exact .inr ⟨.rstAssert, by rw [hs]; simp⟩
  · exact .inr ⟨.rstRelease, by rw [hs]; simp⟩

/-- Only an edge moves the reset line. -/
theorem step_rst (h : step s = .next t) :
    t.rst = match s.schedule with | .rstAssert :: _ => true | .rstRelease :: _ => false | _ => s.rst := by
  obtain ⟨-, ⟨hs, h⟩ | ⟨ms, hs, h⟩ | ⟨x, ms, hs, -, h⟩ | ⟨ms, hs, rfl⟩ | ⟨ms, hs, rfl⟩⟩ := step_next h <;> simp only [hs]
  · exact (engineTurn_environment h).2
  · rw [(engineTurn_environment h).2]; simp
  · rw [(transact_environment h).2]; simp
  · simp
  · simp

/-- A step leaves a host that respects reset doing so. -/
theorem step_noHostUnderReset (h : step s = .next t) (ho : noHostUnderReset s.rst s.schedule = true) :
    noHostUnderReset t.rst t.schedule = true := by
  have r := step_rst h
  rcases step_schedule h with ⟨-, b⟩ | ⟨m, a⟩
  · rw [b]; cases t.rst <;> rfl
  · rw [a] at ho r
    cases m <;> simp [noHostUnderReset] at ho r <;> first | (simp_all; done) | (rw [r]; exact ho.2)

/-! ## The engine steps a command still needs -/

/-- The engine steps until completion, at each FSM state (R109, R121); 0 while idle. -/
def engineStepsLeft (st : Status) : Nat :=
  match st.phase with
  | .idle => 0
  | .exec => 1
  | .keyExp => 11 - st.round.toNat + (if st.op = 0x20 then 0 else 11)
  | .enc => 11 - st.round.toNat
  | .dec => 1 + st.round.toNat
  | .unused5 => 0
  | .unused6 => 0
  | .unused7 => 0

theorem engineStepsLeft_le (h : s.Inv) : engineStepsLeft s.status ≤ 21 := by
  have hl := h.fsmLegal
  unfold engineStepsLeft
  cases hp : s.status.phase <;> simp only [Status.fsmLegal, hp] at hl <;> simp at hl ⊢
  · split <;> omega
  · omega
  · omega

theorem engineStepsLeft_eq_zero (h : s.Inv) (hz : engineStepsLeft s.status = 0) : s.status.busy = false := by
  have hl := h.fsmLegal
  have hb := h.busyIff
  unfold engineStepsLeft at hz
  cases hp : s.status.phase <;> simp only [Status.fsmLegal, hp] at hl hz hb <;> simp at hl hz hb
  · exact hb
  · omega
  · omega

theorem keyExpStep_engineStepsLeft (hp : s.status.phase = .keyExp) (h : keyExpStep s = .next t) :
    engineStepsLeft t.status < engineStepsLeft s.status ∨ t.status.busy = false := by
  obtain ⟨k, -, h1, ⟨hl, rfl⟩ | ⟨he, hf⟩⟩ := keyExpStep_next h
  · left
    simp only [engineStepsLeft, hp, gotoFsm_status, Status.goto_phase, Status.goto_round, Status.goto_op,
      BitVec.toNat_add]
    simp; omega
  · rcases finishExpansion_next hf with ⟨ho, rfl⟩ | ⟨ho, rfl⟩ | ⟨ho, rfl⟩
    · right; simp
    · left; simp at ho; simp [engineStepsLeft, hp, he, ho]
    · left; simp at ho; simp [engineStepsLeft, hp, he, ho]

/-- An engine step brings the command in progress nearer to its completion, or completes it. -/
theorem exec_engineStepsLeft {i : Instr} (hb : s.status.busy = true) (h : exec i s = .next t) :
    engineStepsLeft t.status < engineStepsLeft s.status ∨ t.status.busy = false := by
  have single : ∀ op f, singleStep op f s = .next t →
      engineStepsLeft t.status < engineStepsLeft s.status ∨ t.status.busy = false := by
    intro op f h
    rcases singleStep_next h with ⟨h, -⟩ | ⟨-, -, rfl⟩
    · simp_all
    · right; simp
  cases i with
  | gfmul => rw [exec_gfmul] at h; exact single _ _ h
  | gfinv => rw [exec_gfinv] at h; exact single _ _ h
  | sbox => rw [exec_sbox] at h; exact single _ _ h
  | invSbox => rw [exec_invSbox] at h; exact single _ _ h
  | subBytes => rw [exec_subBytes] at h; exact single _ _ h
  | invSubBytes => rw [exec_invSubBytes] at h; exact single _ _ h
  | shiftRows => rw [exec_shiftRows] at h; exact single _ _ h
  | invShiftRows => rw [exec_invShiftRows] at h; exact single _ _ h
  | mixColumns => rw [exec_mixColumns] at h; exact single _ _ h
  | invMixColumns => rw [exec_invMixColumns] at h; exact single _ _ h
  | addRoundKey r =>
    rw [exec_addRoundKey] at h
    rcases execAddRoundKey_next h with ⟨-, -, k, -, rfl⟩ | ⟨h, -, rfl⟩ | ⟨h, -, -, rfl⟩ | ⟨h, -, -, rfl⟩
    · right; simp
    all_goals simp_all
  | keyExpand =>
    rw [exec_keyExpand] at h
    rcases execKeyExpand_next h with ⟨-, hp, h⟩ | ⟨h, -⟩
    · exact keyExpStep_engineStepsLeft hp h
    · simp_all
  | encrypt =>
    rw [exec_encrypt] at h
    rcases execEncrypt_next h with ⟨-, hp, h⟩ | ⟨-, hp, h⟩ | ⟨h, -, rfl⟩ | ⟨h, -, rfl⟩
    · exact keyExpStep_engineStepsLeft hp h
    · obtain ⟨k, -, ⟨h0, rfl⟩ | ⟨h0, hl, rfl⟩ | ⟨-, rfl⟩⟩ := encStep_next h
      · left; simp [engineStepsLeft, hp, h0]
      · left; simp [engineStepsLeft, hp, BitVec.toNat_add]; omega
      · right; simp
    all_goals simp_all
  | decrypt =>
    rw [exec_decrypt] at h
    rcases execDecrypt_next h with ⟨-, hp, h⟩ | ⟨-, hp, h⟩ | ⟨h, -, rfl⟩ | ⟨h, -, rfl⟩
    · exact keyExpStep_engineStepsLeft hp h
    · obtain ⟨k, -, ⟨h0, rfl⟩ | ⟨h0, hl, rfl⟩ | ⟨-, rfl⟩⟩ := decStep_next h
      · left; simp [engineStepsLeft, hp, h0]
      · left; simp [engineStepsLeft, hp, BitVec.toNat_sub]; omega
      · right; simp
    all_goals simp_all

/-! ## Commands that stop -/

/-- While BUSY = 0 every command answers a next state. -/
theorem exec_idle_next (i : Instr) (hb : s.status.busy = false) : ∃ t, exec i s = .next t := by
  cases i with
  | gfmul => rw [exec_gfmul]; exact ⟨_, singleStep_idle hb⟩
  | gfinv => rw [exec_gfinv]; exact ⟨_, singleStep_idle hb⟩
  | sbox => rw [exec_sbox]; exact ⟨_, singleStep_idle hb⟩
  | invSbox => rw [exec_invSbox]; exact ⟨_, singleStep_idle hb⟩
  | subBytes => rw [exec_subBytes]; exact ⟨_, singleStep_idle hb⟩
  | invSubBytes => rw [exec_invSubBytes]; exact ⟨_, singleStep_idle hb⟩
  | shiftRows => rw [exec_shiftRows]; exact ⟨_, singleStep_idle hb⟩
  | invShiftRows => rw [exec_invShiftRows]; exact ⟨_, singleStep_idle hb⟩
  | mixColumns => rw [exec_mixColumns]; exact ⟨_, singleStep_idle hb⟩
  | invMixColumns => rw [exec_invMixColumns]; exact ⟨_, singleStep_idle hb⟩
  | addRoundKey r =>
    rw [exec_addRoundKey]
    simp only [execAddRoundKey, hb, Bool.false_eq_true, if_false]
    split
    · exact ⟨_, rfl⟩
    · split <;> exact ⟨_, rfl⟩
  | keyExpand =>
    rw [exec_keyExpand]
    simp only [execKeyExpand, hb, Bool.false_eq_true, if_false]
    exact ⟨_, rfl⟩
  | encrypt =>
    rw [exec_encrypt]
    simp only [execEncrypt, hb, Bool.false_eq_true, if_false]
    split <;> exact ⟨_, rfl⟩
  | decrypt =>
    rw [exec_decrypt]
    simp only [execDecrypt, hb, Bool.false_eq_true, if_false]
    split <;> exact ⟨_, rfl⟩

/-- No command refuses: what stops one is a fault. -/
theorem exec_not_refused (i : Instr) (r : Refusal) : exec i s ≠ .refused r := by
  have e : ∀ op f, singleStep op f s ≠ .refused r := by
    intro op f
    unfold singleStep
    split
    · split <;> nofun
    · nofun
  have fe : ∀ u, finishExpansion u ≠ .refused r := by
    intro u
    unfold finishExpansion
    split <;> nofun
  have ke : keyExpStep s ≠ .refused r := by
    unfold keyExpStep
    simp only
    split
    · nofun
    · split
      · nofun
      · split
        · nofun
        · exact fe _
  cases i with
  | gfmul => rw [exec_gfmul]; exact e _ _
  | gfinv => rw [exec_gfinv]; exact e _ _
  | sbox => rw [exec_sbox]; exact e _ _
  | invSbox => rw [exec_invSbox]; exact e _ _
  | subBytes => rw [exec_subBytes]; exact e _ _
  | invSubBytes => rw [exec_invSubBytes]; exact e _ _
  | shiftRows => rw [exec_shiftRows]; exact e _ _
  | invShiftRows => rw [exec_invShiftRows]; exact e _ _
  | mixColumns => rw [exec_mixColumns]; exact e _ _
  | invMixColumns => rw [exec_invMixColumns]; exact e _ _
  | addRoundKey k =>
    rw [exec_addRoundKey]
    unfold execAddRoundKey
    split
    · split
      · split <;> nofun
      · nofun
    · split
      · nofun
      · split <;> nofun
  | keyExpand =>
    rw [exec_keyExpand]
    unfold execKeyExpand
    split
    · split
      · exact ke
      · nofun
    · nofun
  | encrypt =>
    rw [exec_encrypt]
    unfold execEncrypt
    split
    · split
      · exact ke
      · unfold encStep
        simp only
        split
        · nofun
        · split
          · nofun
          · split <;> nofun
      · nofun
    · split <;> nofun
  | decrypt =>
    rw [exec_decrypt]
    unfold execDecrypt
    split
    · split
      · exact ke
      · unfold decStep
        simp only
        split
        · nofun
        · split
          · nofun
          · split <;> nofun
      · nofun
    · split <;> nofun

end Sys2Proof.Machine
end

