-- ==== Sys2Proof/Tests/Slice0.lean ====
section
/-! SUPPORT. Tests of single steps, with expected values from spec/95_test_vectors.md and the tables of 30_encoding.md, and
one witness for the hypotheses of each statement of Certificates/Slice0/Obligations.lean that has hypotheses. -/

namespace Sys2Proof.Tests

open Sys2Proof.Machine

-- One theorem after another: checked side by side, so many kernel evaluations need a thread each.
set_option Elab.async false

/-! ## Helpers -/

/-- A matrix from its flat form: byte b[0] is the most significant of the 32 hex digits (95, conventions; R9). -/
def flat (n : Nat) : ByteMatrix :=
  ByteMatrix.ofBlock (Vector.ofFn fun k => BitVec.ofNat 8 (n >>> (8 * (15 - k.val))))

/-- What `f` reads from the next state of an outcome; none for a stop. -/
def field {α : Type} (o : Host.Outcome State Fault Refusal) (f : State → α) : Option α :=
  match o with
  | .next t => some (f t)
  | .fault _ => none
  | .refused _ => none

theorem next_of_field {α : Type} {o : Host.Outcome State Fault Refusal} {f : State → α} {v : α}
    (h : field o f = some v) : ∃ t, o = .next t ∧ f t = v := by
  cases o with
  | next t => exact ⟨t, rfl, by simpa [field] using h⟩
  | fault r => cases h
  | refused r => cases h

/-- Reset, with command `op` just accepted to (EXEC, 0). -/
def inExec (op : Byte) : State := accept op .exec 0 State.reset

/-- Reset, with command `op` in progress at (phase, round) and KS_VALID as given. -/
def inPhase (op : Byte) (phase : Phase) (round : BitVec 4) (ks : Bool) : State :=
  setKsValid ks (accept op phase round State.reset)

/-- Reset with a valid schedule claimed: the all-zero KEY's RK is not looked at by the tests that use it. -/
def keyed : State := setKsValid true State.reset

def hostWrite (off : BitVec 12) (v : Word32) : Move := .host (.write off .bytes4 v)
def hostRead4 (off : BitVec 12) : Move := .host (.read off .bytes4)

/-! ## Well-formedness: the only check is the round-key index (R58) -/

theorem test_wellFormed_index_10 : WellFormed (.addRoundKey 10) := by decide
theorem test_illFormed_index_11 : ¬ WellFormed (.addRoundKey 11) := by decide
theorem test_illFormed_index_15 : ¬ WellFormed (.addRoundKey 15) := by decide

/-! ## Decoding: each word written bit by bit as RSVD (20 bits), RIDX (4), OPCODE (8) from R55 and R57 -/

theorem test_decode_gfmul : decodeWord 0b00000000000000000000000000000001 = .ok .gfmul := by decide
theorem test_decode_gfinv : decodeWord 0b00000000000000000000000000000010 = .ok .gfinv := by decide
theorem test_decode_sbox : decodeWord 0b00000000000000000000000000000011 = .ok .sbox := by decide
theorem test_decode_invSbox : decodeWord 0b00000000000000000000000000000100 = .ok .invSbox := by decide
theorem test_decode_subBytes : decodeWord 0b00000000000000000000000000010000 = .ok .subBytes := by decide
theorem test_decode_invSubBytes : decodeWord 0b00000000000000000000000000010001 = .ok .invSubBytes := by decide
theorem test_decode_shiftRows : decodeWord 0b00000000000000000000000000010010 = .ok .shiftRows := by decide
theorem test_decode_invShiftRows : decodeWord 0b00000000000000000000000000010011 = .ok .invShiftRows := by decide
theorem test_decode_mixColumns : decodeWord 0b00000000000000000000000000010100 = .ok .mixColumns := by decide
theorem test_decode_invMixColumns : decodeWord 0b00000000000000000000000000010101 = .ok .invMixColumns := by decide
theorem test_decode_addRoundKey_5 : decodeWord 0b00000000000000000000010100010110 = .ok (.addRoundKey 5) := by decide
theorem test_decode_addRoundKey_10 : decodeWord 0b00000000000000000000101000010110 = .ok (.addRoundKey 10) := by decide
theorem test_decode_keyExpand : decodeWord 0b00000000000000000000000000100000 = .ok .keyExpand := by decide
theorem test_decode_encrypt : decodeWord 0b00000000000000000000000000110000 = .ok .encrypt := by decide
theorem test_decode_decrypt : decodeWord 0b00000000000000000000000000110001 = .ok .decrypt := by decide

/-- V-CMD's illegal words, each rejected by name. -/
theorem test_decode_illegal_words :
    decodeWord 0x00000000 = .error .unassignedOpcode ∧ decodeWord 0x00000005 = .error .unassignedOpcode ∧
    decodeWord 0x00000017 = .error .unassignedOpcode ∧ decodeWord 0x00000021 = .error .unassignedOpcode ∧
    decodeWord 0x00000032 = .error .unassignedOpcode ∧ decodeWord 0x000000FF = .error .unassignedOpcode ∧
    decodeWord 0x00000B16 = .error .ridxOutOfRange ∧ decodeWord 0x00000F16 = .error .ridxOutOfRange ∧
    decodeWord 0x00000101 = .error .ridxNotZero ∧ decodeWord 0x00001030 = .error .reservedBits ∧
    decodeWord 0x80000016 = .error .reservedBits := by decide

theorem test_encode_addRoundKey_10 : encode (.addRoundKey 10) = 0x00000A16 := by decide
theorem test_encode_decrypt : encode .decrypt = 0x00000031 := by decide

/-- The opcode table's bits are the command word's own. -/
theorem test_decodeTableWord : decodeTableWord 32 0x00000416 = some (.addRoundKey 4) := by decide

/-! ## The byte commands (P1, V-MUL, V-INV, V-SB) -/

/-- V-MUL: 57 • 83 = C1 (the OR reading gives 47). -/
theorem test_gfmul_standard :
    field (exec .gfmul { inExec 0x01 with gfA := 0x57, gfB := 0x83 }) (·.gfResult) = some 0xC1 := by decide +kernel

/-- V-MUL: FF • FF = 13, all bits and both reductions. -/
theorem test_gfmul_all_bits :
    field (exec .gfmul { inExec 0x01 with gfA := 0xFF, gfB := 0xFF }) (·.gfResult) = some 0x13 := by decide +kernel

/-- P1: inverse(53) = CA. -/
theorem test_gfinv_53 : field (exec .gfinv { inExec 0x02 with gfA := 0x53 }) (·.gfResult) = some 0xCA := by decide +kernel

/-- R67: inverse(0) = 0 by convention, and it completes like any other. -/
theorem test_gfinv_zero :
    field (exec .gfinv { inExec 0x02 with gfResult := 0x77 }) (fun t => (t.gfResult, t.status.word)) =
      some (0x00, 0x00020002) := by decide +kernel

/-- P1: forward_sbox(CA) = 74. -/
theorem test_sbox_ca : field (exec .sbox { inExec 0x03 with gfA := 0xCA }) (·.gfResult) = some 0x74 := by decide +kernel

/-- P1: inverse_sbox(74) = CA, and STATUS at P1's end. -/
theorem test_invSbox_74 :
    field (exec .invSbox { inExec 0x04 with gfA := 0x74 }) (fun t => (t.gfResult, t.status.word)) =
      some (0xCA, 0x00040002) := by decide +kernel

/-- V-SB: inverse_sbox(63) = 00. -/
theorem test_invSbox_63 :
    field (exec .invSbox { inExec 0x04 with gfA := 0x63, gfResult := 0x11 }) (·.gfResult) = some 0x00 := by decide +kernel

/-! ## The state commands (S4, V-SR, V-MC, V-ST) -/

/-- V-ST's s0, the known-answer state after the initial AddRoundKey. -/
def s0 : ByteMatrix := flat 0x001f0e543c4e08596e221b0b4774311a

/-- The flat form and the words of s0 (V-ST). -/
theorem test_flat_words :
    [pack s0 0, pack s0 1, pack s0 2, pack s0 3] = [0x540E1F00, 0x59084E3C, 0x0B1B226E, 0x1A317447] := by decide +kernel

/-- V-ENC1: SB of s0. -/
theorem subBytes_s0 : subBytes s0 = flat 0x63c0ab20eb2f30cb9f93af2ba092c7a2 := by decide +kernel

theorem test_subBytes :
    field (exec .subBytes { inExec 0x10 with state := s0 }) (·.state) =
      some (flat 0x63c0ab20eb2f30cb9f93af2ba092c7a2) := by
  rw [← subBytes_s0]; rfl

/-- S4, backwards: InvSubBytes of the source's example. -/
theorem test_invSubBytes :
    field (exec .invSubBytes { inExec 0x11 with state := flat 0x6384c4ddadbedec1f1aae4980492d50d }) (·.state) =
      some (flat 0x004f88c9185a9cdd2b62aee23074b5f3) := by decide +kernel

/-- V-SR. -/
theorem test_shiftRows :
    field (exec .shiftRows { inExec 0x12 with state := flat 0x000102030405060708090a0b0c0d0e0f }) (·.state) =
      some (flat 0x00050a0f04090e03080d02070c01060b) := by decide +kernel

/-- V-SR. -/
theorem test_invShiftRows :
    field (exec .invShiftRows { inExec 0x13 with state := flat 0x000102030405060708090a0b0c0d0e0f }) (·.state) =
      some (flat 0x000d0a0704010e0b0805020f0c090603) := by decide +kernel

/-- V-MC: the standard column, a unit, the reducing column and an all-equal one. -/
theorem test_mixColumns :
    field (exec .mixColumns { inExec 0x14 with state := flat 0xdb135345010000008000000001010101 }) (·.state) =
      some (flat 0x8e4da1bc020101031b80809b01010101) := by decide +kernel

/-- V-MC. -/
theorem test_invMixColumns :
    field (exec .invMixColumns { inExec 0x15 with state := flat 0xdb1353450100000080000000d4d4d4d5 }) (·.state) =
      some (flat 0x32a41d550e090d0b41ecdaf7ddd9dfda) := by decide +kernel

/-- V-KS1's RK[1] and RK[10]. -/
def rk1 : ByteMatrix := flat 0xe232fcf191129188b159e4e6d679a293
def rk10 : ByteMatrix := flat 0x28fddef86da4244accc0a4fe3b316f26

/-- V-ST: ARK(s0, RK[1]), with the index taken from ROUND. -/
theorem test_addRoundKey_round_1 :
    field (exec (.addRoundKey 1) { inPhase 0x16 .exec 1 true with state := s0, rk := State.reset.rk.set 1 rk1 }) (·.state) =
      some (flat 0xe22df2a5ad5c99d1df7bffed910d9389) := by decide +kernel

/-- V-ERR: ADDROUNDKEY 0 while KS_VALID = 0 sets ERR_NOKEY and nothing else (R125). -/
theorem test_addRoundKey_no_key :
    field (exec (.addRoundKey 0) State.reset) (fun t => (t.status.word, t.state)) =
      some (0x00000010, State.reset.state) := by decide +kernel

/-! ## KEYEXPAND (V-KS1, V-ERR) -/

/-- The known-answer key (S6). -/
def katKey : ByteMatrix := flat 0x5468617473206d79204b756e67204675

/-- Acceptance: RK[0] is KEY, KS_VALID is cleared, and the FSM is at (KEYEXP, 1) (R103, R108). -/
theorem test_keyExpand_accepted :
    field (exec .keyExpand { keyed with key := katKey }) (fun t => (t.rk[0], t.status.word)) =
      some (katKey, 0x00202101) := by decide +kernel

/-- V-KS1: the first KEYEXP step writes RK[1]. -/
theorem test_keyExpand_step_1 :
    field (exec .keyExpand { inPhase 0x20 .keyExp 1 false with rk := State.reset.rk.set 0 katKey })
      (fun t => (t.rk[1], t.status.word)) = some (rk1, 0x00202201) := by decide +kernel

/-! ## ENCRYPT and DECRYPT (V-ENC1, V-DEC1, V-FSM) -/

/-- V-ENC1: Round[1] from s0. -/
theorem test_encrypt_round_1 :
    field (exec .encrypt { inPhase 0x30 .enc 1 true with state := s0, rk := State.reset.rk.set 1 rk1 }) (·.state) =
      some (flat 0x5847088b15b61cba59d4e2e8cd39dfce) := by
  have h : addRoundKey (mixColumns (shiftRows (flat 0x63c0ab20eb2f30cb9f93af2ba092c7a2))) rk1 =
      flat 0x5847088b15b61cba59d4e2e8cd39dfce := by decide +kernel
  rw [← h, ← subBytes_s0]; rfl

/-- V-ENC1: Round[10] has no MixColumns, and completes. -/
theorem test_encrypt_round_10 :
    field (exec .encrypt { inPhase 0x30 .enc 10 true with
        state := flat 0x09668b78a2d19a65f0fce6c47b3b3089, rk := State.reset.rk.set 10 rk10 })
      (fun t => (t.state, t.status.word)) =
      some (flat 0x29c3505f571420f6402299b31a02d73a, 0x00300006) := by decide +kernel

/-- V-FSM: DECRYPT accepted with a valid schedule goes to (DEC, 10). -/
theorem test_decrypt_accepted : field (exec .decrypt keyed) (·.status.word) = some 0x00314A05 := by decide +kernel

/-- V-DEC1: the last round has no InvMixColumns, and completes. -/
theorem test_decrypt_round_0 :
    field (exec .decrypt { inPhase 0x31 .dec 0 true with
        state := flat 0x632fafa2eb93c7209f92abcba0c0302b, rk := State.reset.rk.set 0 katKey })
      (fun t => (t.state, t.status.word)) =
      some (flat 0x54776f204f6e65204e696e652054776f, 0x00310006) := by decide +kernel

/-! ## Steps: host transactions, errors, reset (V-ERR, V-IRQ, V-FSM, P2, P3) -/

/-- V-FSM, through the placing of an instruction: ENCRYPT is the first thing that happens after reset. -/
theorem test_step_runs_the_placed_word :
    field (step (State.reset.withFetchWord 32 0x00000030)) (·.status.word) = some 0x00302101 := by decide +kernel

/-- V-ERR: ADDROUNDKEY 11 while KS_VALID = 0 sets ERR_ILLEGAL only. -/
theorem test_step_illegal_before_nokey :
    field (step (State.reset.setSchedule [hostWrite 0x004 0x00000B16])) (·.status.word) = some 0x00000008 := by
  decide +kernel

/-- V-ERR: a KEY write while BUSY = 1 is dropped. -/
theorem test_step_key_write_dropped :
    field (step ((inPhase 0x20 .keyExp 1 false).setSchedule [hostWrite 0x030 0xDEADBEEF]))
      (fun t => (t.status.word, t.key)) = some (0x00202121, ByteMatrix.zero) := by decide +kernel

/-- V-ERR: W1C of DONE and all errors. -/
theorem test_step_w1c :
    field (step ((setKsValid true (raise .busywr (complete (inPhase 0x20 .keyExp 10 false)))).setSchedule
      [hostWrite 0x008 0x0000003A])) (·.status.word) = some 0x00200004 := by decide +kernel

/-- V-ERR: a one-byte write to GF_A, and a misaligned read, are bus errors. -/
theorem test_step_bus_errors :
    field (step (State.reset.setSchedule [.host (.write 0x010 .bytes1 0x55)])) (fun t => (t.gfA, t.bus)) =
        some (0x00, .error 0) ∧
      field (step (State.reset.setSchedule [.host (.read 0x011 .bytes4)])) (·.bus) = some (.error 0) := by decide +kernel

/-- P2's first key word lands in column 0, row 0 lowest, and the ID reads as R20 says. -/
theorem test_step_key_word_and_id :
    field (step (State.reset.setSchedule [hostWrite 0x030 0x74616854])) (·.key.c0) = some ⟨0x54, 0x68, 0x61, 0x74⟩ ∧
      field (step (State.reset.setSchedule [hostRead4 0x000])) (·.bus) = some (.data 0x41455331) := by decide +kernel

/-- P3: a KEY write of the old value still clears KS_VALID. -/
theorem test_step_key_write_clears_ksValid :
    field (step (keyed.setSchedule [hostWrite 0x03C 0x00000000])) (·.status.word) = some 0x00000000 := by decide +kernel

/-- P2's last RK read: RK10_W0 is at 0x1A0. -/
theorem test_step_rk_read :
    field (step ({ keyed with rk := State.reset.rk.set 10 rk10 }.setSchedule [hostRead4 0x1A0])) (·.bus) =
      some (.data 0xF8DEFD28) := by decide +kernel

/-- V-IRQ. -/
theorem test_irq :
    let done : State := complete (inPhase 0x30 .enc 10 true)
    let nokey : State := raise .nokey State.reset
    [(done.setIrqen 0).irq, (done.setIrqen 1).irq, (nokey.setIrqen 2).irq, (nokey.setIrqen 1).irq,
      ((inPhase 0x30 .keyExp 1 false).setIrqen 3).irq] = [false, true, true, false, false] := by decide +kernel

/-- R141: reset abandons a command in progress. -/
theorem test_step_reset_abandons :
    field (step ((raise .busywr (inPhase 0x30 .enc 5 true)).setSchedule [.rstAssert])) (fun t => (t.status.word, t.rst)) =
      some (0x00000000, true) := by decide +kernel

/-- R34, R133: an FSM pair outside the table is a fault. -/
theorem test_step_illegal_fsm : step (inPhase 0x20 .keyExp 11 false) = .fault .illegalFsmState := by rfl

/-! ## Witnesses: for each statement with hypotheses, states and operands that meet them, one per clause, at the
boundary values of the ranges -/

/-- A state between moves: legal FSM pair, `rst` released, the host's write next. -/
def writing (s : State) (off : BitVec 12) (v : Word32) : State := s.setSchedule [hostWrite off v]

/-- The same with the host's read next. -/
def reading (s : State) (off : BitVec 12) : State := s.setSchedule [hostRead4 off]

/-- Idle, with DONE, an error flag and a valid schedule. -/
def idleFlags : State := setKsValid true (raise .illegal (complete (inExec 0x01)))

/-- KEYEXPAND accepted after reset: at (KEYEXP, 1). -/
def expanding : State := startExpansion 0x20 State.reset

theorem test_witness_DecodeOfEncodeIsTheCommand :
    WellFormed (.addRoundKey 0) ∧ WellFormed (.addRoundKey 10) ∧ WellFormed .decrypt := by decide

theorem test_witness_DecodedWordIsTheCommandsWord :
    decodeWord 0x00000001 = .ok .gfmul ∧ decodeWord 0x00000A16 = .ok (.addRoundKey 10) := by decide

theorem test_witness_ResetEventClearsTheRegisters :
    (∃ s : State, s.status.fsmLegal = true ∧ s.status.busy = true ∧ s.schedule = .rstAssert :: [.engine]) ∧
      (∃ s : State, s.status.fsmLegal = true ∧ s.schedule = .rstRelease :: []) ∧
      (∃ s : State, s.status.fsmLegal = true ∧ s.rst = true ∧ s.schedule = []) ∧
      (∃ s : State, s.status.fsmLegal = true ∧ s.rst = true ∧ s.schedule = .engine :: []) ∧
      (∃ s : State, s.status.fsmLegal = true ∧ s.rst = true ∧ s.schedule = hostRead4 0x000 :: []) :=
  ⟨⟨expanding.setSchedule [.rstAssert, .engine], rfl, rfl, rfl⟩, ⟨State.reset.setSchedule [.rstRelease], rfl, rfl⟩,
    ⟨State.reset.setRst true, rfl, rfl, rfl⟩, ⟨(State.reset.setRst true).setSchedule [.engine], rfl, rfl, rfl⟩,
    ⟨(State.reset.setRst true).setSchedule [hostRead4 0x000], rfl, rfl, rfl⟩⟩

/-- A busy state that meets the invariant. -/
theorem expanding_inv : expanding.Inv where
  busyIff := by decide
  fsmLegal := by decide
  opFits := by decide
  schedule := by intro h; cases h
  expanding := by
    intro _
    refine ⟨rfl, fun r h hr => ?_⟩
    have hr : r < 1 := hr
    obtain rfl : r = 0 := by omega
    rfl
  cipherKeyed := by decide
  addRoundKeyKeyed := by decide
  busyNotDone := by decide
  underReset := by decide

theorem test_witness_EveryStepKeepsTheInvariant : ∃ s t : State, s.Inv ∧ step s = .next t ∧ t.status.round = 2 := by
  obtain ⟨t, h, hf⟩ := next_of_field (o := step expanding) (f := (·.status.round)) (v := 2) (by decide +kernel)
  exact ⟨expanding, t, expanding_inv, h, hf⟩

theorem test_witness_NoStepFromTheInvariantFaults : ∃ s : State, s.Inv ∧ s.rst = false ∧ s.status.busy = true :=
  ⟨expanding, expanding_inv, rfl, rfl⟩

/-- The reset state with the line asserted and a host transaction next meets the invariant and is refused. -/
theorem test_witness_NoStepFromTheInvariantFaults_refused :
    ∃ s : State, s.Inv ∧ step s = .refused .hostUnderReset := by
  refine ⟨(State.reset.setRst true).setSchedule [hostRead4 0x000], ?_, rfl⟩
  exact
    { busyIff := by decide, fsmLegal := by decide, opFits := by decide, schedule := nofun
      expanding := nofun, cipherKeyed := by decide, addRoundKeyKeyed := by decide
      busyNotDone := by decide, underReset := fun _ => rfl }

/-- W1C of 0x38 with an error flag set, and two clean entries, DONE set in one. -/
theorem test_witness_ResetMeetsTheInvariant :
    (∀ ms, ∃ s : State, s.status.fsmLegal = true ∧ s.rst = false ∧ s.status.busy = false ∧ s.status.errPending = true ∧
      s.schedule = .host (.write 0x008 .bytes4 0x00000038) :: ms) ∧
      State.reset.cleanEntry = true ∧ (complete (inExec 0x01)).cleanEntry = true :=
  ⟨fun ms => ⟨idleFlags.setSchedule (hostWrite 0x008 0x00000038 :: ms), rfl, rfl, rfl, rfl, rfl⟩, rfl, rfl⟩

/-- R144: a command in flight, an error flag, or a recorded fault is no clean entry. -/
theorem test_cleanEntry_needs_all_three :
    expanding.cleanEntry = false ∧ idleFlags.cleanEntry = false ∧
      ({ State.reset with status := { Status.reset with round := 1 } }).cleanEntry = false := by decide

/-- A reachable busy state. -/
theorem test_witness_ReachableBusyIffPhaseNotIdle : ∃ s : State, Reachable s ∧ s.status.busy = true := by
  obtain ⟨t, h, hf⟩ := next_of_field (o := runSteps 1 (State.reset.setSchedule [hostWrite 0x004 0x00000020]))
    (f := (·.status.busy)) (v := true) (by decide +kernel)
  exact ⟨t, ⟨_, _, h⟩, hf⟩

/-- A reachable state with a valid schedule: KEYEXPAND and its ten steps. -/
theorem test_witness_ReachableValidScheduleIsExpandOfKey :
    ∃ s : State, Reachable s ∧ s.status.ksValid = true ∧ 10 < 11 := by
  obtain ⟨t, h, hf⟩ := next_of_field (o := runSteps 11 (State.reset.setSchedule [hostWrite 0x004 0x00000020]))
    (f := (·.status.ksValid)) (v := true) (by decide +kernel)
  exact ⟨t, ⟨_, _, h⟩, hf, by decide⟩

theorem test_witness_ReachableFsmPairIsInTheTable :
    Reachable State.reset ∧ (inPhase 0x20 .keyExp 11 false).status.fsmLegal = false ∧
      10 < (inPhase 0x30 .enc 11 true).status.round.toNat ∧ (inPhase 0 .unused5 0 true).status.phase = .unused5 ∧
      (inPhase 0 .unused7 0 true).status.phase = .unused7 ∧
      ((inPhase 0 .idle 1 true).status.phase = .idle ∧ (inPhase 0 .idle 1 true).status.round ≠ 0) ∧
      ((inPhase 0x20 .keyExp 0 false).status.phase = .keyExp ∧ (inPhase 0x20 .keyExp 0 false).status.round = 0) :=
  ⟨⟨[], 0, rfl⟩, by decide⟩

theorem test_witness_UnperformedTransactionIsABusError :
    (AccessSize.bytes1 ≠ .bytes4 ∧ (0xFFF : BitVec 12).toNat % 4 ≠ 0) ∧
      ∀ m ∈ [Move.host (.read 0x010 .bytes2), .host (.write 0x004 .bytes1 0x30), hostRead4 0x001, hostWrite 0xFFF 0],
        (expanding.setSchedule [m]).status.fsmLegal = true ∧ (expanding.setSchedule [m]).rst = false ∧
          (expanding.setSchedule [m]).schedule = m :: [] := by decide

theorem test_witness_HostReadReturnsTheRegister :
    (∀ off : BitVec 12, (reading State.reset off).status.fsmLegal = true ∧ (reading State.reset off).rst = false ∧
      (reading State.reset off).schedule = .host (.read off .bytes4) :: [] ∧
      (reading State.reset off).status.busy = false) ∧
      (∀ off : BitVec 12, (reading expanding off).status.fsmLegal = true ∧ (reading expanding off).rst = false ∧
        (reading expanding off).schedule = .host (.read off .bytes4) :: [] ∧
        (reading expanding off).status.busy = true) ∧
      (0x020 : BitVec 12).toNat = 0x020 + 4 * (0 : Fin 4).val ∧ (0x02C : BitVec 12).toNat = 0x020 + 4 * (3 : Fin 4).val ∧
      (0x030 : BitVec 12).toNat = 0x030 + 4 * (0 : Fin 4).val ∧ (0x03C : BitVec 12).toNat = 0x030 + 4 * (3 : Fin 4).val ∧
      (0x100 : BitVec 12).toNat = 0x100 + 16 * (0 : Fin 11).val + 4 * (0 : Fin 4).val ∧
      (0x1AC : BitVec 12).toNat = 0x100 + 16 * (10 : Fin 11).val + 4 * (3 : Fin 4).val ∧
      (∀ off ∈ ([0x01C, 0x040, 0x0FC, 0x1B0, 0xFFC] : List (BitVec 12)), off.toNat % 4 = 0 ∧
        (off.toNat = 0x01C ∨ (0x040 ≤ off.toNat ∧ off.toNat ≤ 0x0FC) ∨ 0x1B0 ≤ off.toNat)) :=
  ⟨fun _ => ⟨rfl, rfl, rfl, rfl⟩, fun _ => ⟨rfl, rfl, rfl, rfl⟩, by decide⟩

theorem test_witness_HostWriteUpdatesTheRegister :
    (∀ (off : BitVec 12) (v : Word32), (writing idleFlags off v).status.fsmLegal = true ∧
      (writing idleFlags off v).rst = false ∧ (writing idleFlags off v).status.busy = false ∧
      (writing idleFlags off v).schedule = .host (.write off .bytes4 v) :: []) ∧
      (0x020 : BitVec 12).toNat = 0x020 + 4 * (0 : Fin 4).val ∧ (0x02C : BitVec 12).toNat = 0x020 + 4 * (3 : Fin 4).val ∧
      (0x030 : BitVec 12).toNat = 0x030 + 4 * (0 : Fin 4).val ∧ (0x03C : BitVec 12).toNat = 0x030 + 4 * (3 : Fin 4).val :=
  ⟨fun _ _ => ⟨rfl, rfl, rfl, rfl⟩, by decide⟩

theorem test_witness_WriteWhileBusyIsDroppedAndFlagged :
    (∀ (off : BitVec 12) (v : Word32), (writing expanding off v).status.fsmLegal = true ∧
      (writing expanding off v).rst = false ∧ (writing expanding off v).status.busy = true ∧
      (writing expanding off v).schedule = .host (.write off .bytes4 v) :: []) ∧
      (0x020 : BitVec 12).toNat = 0x020 + 4 * (0 : Fin 4).val ∧
      (0x03C : BitVec 12).toNat = 0x030 + 4 * (3 : Fin 4).val :=
  ⟨fun _ _ => ⟨rfl, rfl, rfl, rfl⟩, by decide⟩

theorem test_witness_WriteToAReadOnlyRegisterIsIgnored :
    (∀ (off : BitVec 12) (v : Word32), (writing expanding off v).status.fsmLegal = true ∧
      (writing expanding off v).rst = false ∧ (writing expanding off v).schedule = .host (.write off .bytes4 v) :: []) ∧
      (0x100 : BitVec 12).toNat = 0x100 + 16 * (0 : Fin 11).val + 4 * (0 : Fin 4).val ∧
      (0x1AC : BitVec 12).toNat = 0x100 + 16 * (10 : Fin 11).val + 4 * (3 : Fin 4).val :=
  ⟨fun _ _ => ⟨rfl, rfl, rfl⟩, by decide⟩

/-- The clauses: a reserved offset read and written; a read of a register with reserved bits; two words that differ in
reserved bits only. -/
theorem test_witness_ReservedSpaceReadsZeroAndIgnoresWrites :
    (∀ (off : BitVec 12) (v : Word32), (writing State.reset off v).status.fsmLegal = true ∧
      (writing State.reset off v).rst = false ∧ (writing State.reset off v).schedule = .host (.write off .bytes4 v) :: [] ∧
      (reading State.reset off).status.fsmLegal = true ∧ (reading State.reset off).rst = false ∧
      (reading State.reset off).schedule = .host (.read off .bytes4) :: []) ∧
      (∀ off ∈ ([0x01C, 0x040, 0x0FC, 0x1B0, 0xFFC] : List (BitVec 12)), off.toNat % 4 = 0 ∧
        (off.toNat = 0x01C ∨ (0x040 ≤ off.toNat ∧ off.toNat ≤ 0x0FC) ∨ 0x1B0 ≤ off.toNat)) ∧
      (∃ t, step (reading State.reset 0x008) = .next t ∧ t.bus = .data 0) ∧
      (∃ t, step (reading State.reset 0x00C) = .next t ∧ t.bus = .data 0) ∧
      (∃ t, step (reading State.reset 0x018) = .next t ∧ t.bus = .data 0) ∧
      (0xFF0080FF : Word32) &&& 0x00FF7F3F = 0x0000003F &&& 0x00FF7F3F ∧
      (0xFFFFFFFE : Word32) &&& 0x3 = 0x2 &&& 0x3 ∧ (0x12345678 : Word32) &&& 0xFF = 0x78 &&& 0xFF :=
  ⟨fun _ _ => ⟨rfl, rfl, rfl, rfl, rfl, rfl⟩, by decide, ⟨_, rfl, rfl⟩, ⟨_, rfl, rfl⟩, ⟨_, rfl, rfl⟩, by decide⟩

theorem test_witness_StatusWriteClearsTheFlagsWrittenOne :
    ∀ v : Word32, (writing idleFlags 0x008 v).status.fsmLegal = true ∧ (writing idleFlags 0x008 v).rst = false ∧
      (writing idleFlags 0x008 v).schedule = .host (.write 0x008 .bytes4 v) :: [] := fun _ => ⟨rfl, rfl, rfl⟩

theorem test_witness_PackAndUnpackFollowTheLanes : (3 : Fin 4) ≠ 0 ∧ (0 : Fin 4) ≠ 3 := by decide

theorem test_witness_WindowAddressesAreBasePlusOffset :
    (0xFFC : BitVec 12).toNat % 4 = 0 ∧ 4 * (3 : Fin 4).val + (3 : Fin 4).val = (15 : Fin 16).val ∧
      4 * (0 : Fin 4).val + (0 : Fin 4).val = (0 : Fin 16).val := by decide

/-- A read, a transaction not performed, each of the three errors, and a STATUS write: all answer a next state. -/
theorem test_witness_OneTransactionSetsAtMostOneError :
    (∃ t, step (expanding.setSchedule [.host (.read 0x008 .bytes4)]) = .next t) ∧
      (∃ t, step (expanding.setSchedule [.host (.write 0x011 .bytes4 0)]) = .next t ∧ t.bus = .error 0) ∧
      (∃ t, step (writing expanding 0x03C 0) = .next t ∧ t.status.errBusywr = true) ∧
      (∃ t, step (writing State.reset 0x004 0) = .next t ∧ t.status.errIllegal = true) ∧
      (∃ t, step (writing State.reset 0x004 0xA16) = .next t ∧ t.status.errNokey = true) ∧
      (∃ t, step (writing idleFlags 0x008 0) = .next t ∧ t.status.errIllegal = true) :=
  ⟨⟨_, rfl⟩, ⟨_, rfl, rfl⟩, ⟨_, rfl, rfl⟩, ⟨_, rfl, rfl⟩, ⟨_, rfl, rfl⟩, ⟨_, rfl, rfl⟩⟩

theorem test_witness_IrqIsEnabledDoneOrEnabledError :
    (∀ v : Word32, ∃ s : State, s.status.fsmLegal = true ∧ s.rst = false ∧ s.irq = true ∧
      s.schedule = .host (.write 0x008 .bytes4 v) :: []) ∧
      (∀ b ∈ [1, 3, 4, 5], (0x0000003A : Word32).getLsbD b = true) ∧ (0x00000020 : Word32).getLsbD 5 = true :=
  ⟨fun v => ⟨writing (idleFlags.setIrqen 3) 0x008 v, rfl, rfl,
    show (idleFlags.setIrqen 3).irq = true by decide, rfl⟩, by decide, by decide⟩

theorem test_witness_IrqIsEnabledDoneOrEnabledError_accepted :
    ∃ t, step (writing idleFlags 0x004 0x01) = .next t ∧ idleFlags.status.busy = false ∧ t.status.busy = true :=
  ⟨_, rfl, rfl, rfl⟩

/-- Each flag set, and each cleared by its bit. -/
theorem test_witness_ErrorFlagsChangeOnlyAsListed :
    (∃ t, step (writing State.reset 0x004 0) = .next t ∧ t.status.errIllegal = true) ∧
      (∃ t, step (writing State.reset 0x004 0x016) = .next t ∧ t.status.errNokey = true) ∧
      (∃ t, step (writing expanding 0x004 0) = .next t ∧ t.status.errBusywr = true) ∧
      (∃ t, step (writing (raise .illegal State.reset) 0x008 0x08) = .next t ∧ t.status.errIllegal = false) ∧
      (∃ t, step (writing (raise .nokey State.reset) 0x008 0x10) = .next t ∧ t.status.errNokey = false) ∧
      (∃ t, step ((raise .busywr expanding).setSchedule [.rstAssert]) = .next t ∧ t.status.errBusywr = false) :=
  ⟨⟨_, rfl, rfl⟩, ⟨_, rfl, rfl⟩, ⟨_, rfl, rfl⟩, ⟨_, rfl, rfl⟩, ⟨_, rfl, rfl⟩, ⟨_, rfl, rfl⟩⟩

theorem test_witness_CmdWriteRunsTheDecodedCommand :
    let s := writing idleFlags 0x004 0x00000A16
    s.status.fsmLegal = true ∧ s.rst = false ∧ s.status.busy = false ∧ decodeWord 0x00000A16 = .ok (.addRoundKey 10) ∧
      s.schedule = .host (.write 0x004 .bytes4 0x00000A16) :: [] := by decide

theorem test_witness_EngineMoveRunsTheCommandInProgress :
    ∀ ms ∈ [[], [Move.engine]],
      let s := (inPhase 0x16 .exec 10 true).setSchedule ms
      s.status.fsmLegal = true ∧ s.rst = false ∧ s.status.busy = true ∧ opcodeOf (.addRoundKey 10) = s.status.op ∧
        s.status.op = 0x16 ∧ ridxOf (.addRoundKey 10) = s.status.round ∧ s.schedule = ms := by decide

theorem test_witness_EngineMoveRunsTheCommandInProgress_idle :
    ∀ ms, ∃ s u : State, s.status.fsmLegal = true ∧ s.rst = false ∧ s.status.busy = false ∧ s.schedule = [] ∧
      u.status.fsmLegal = true ∧ u.rst = false ∧ u.status.busy = false ∧ u.schedule = .engine :: ms :=
  fun ms => ⟨idleFlags, idleFlags.setSchedule (.engine :: ms), rfl, rfl, rfl, rfl, rfl, rfl, rfl, rfl⟩

/-- The nonzero operands of the inverse laws, with the product that makes the inner hypothesis of the field laws true. -/
theorem test_witness_MultiplyHasTheFieldLaws_InverseIsTheFieldInverse :
    (0x01 : Byte) ≠ 0 ∧ (0xFF : Byte) ≠ 0 ∧ multiply 0xFF 0x1C = 1 := by decide +kernel

/-- The index ranges of the round constant and of the schedule. -/
theorem test_witness_RoundConstantsFollowTheRecurrence_ScheduleFollowsTheRecursion :
    1 < 2 ∧ (1 ≤ 1 ∧ 1 ≤ 10) ∧ (1 ≤ 10 ∧ 10 ≤ 10) ∧ 0 < 10 ∧ 9 < 10 := by decide

theorem test_witness_CmdWriteAcceptsOrRejectsEveryWord :
    ∀ v : Word32, (writing idleFlags 0x004 v).status.fsmLegal = true ∧ (writing idleFlags 0x004 v).rst = false ∧
      (writing idleFlags 0x004 v).status.busy = false ∧
      (writing idleFlags 0x004 v).schedule = .host (.write 0x004 .bytes4 v) :: [] := fun _ => ⟨rfl, rfl, rfl, rfl⟩

/-- Its branches: an illegal word, and a legal one of each kind. -/
theorem test_witness_CmdWriteAcceptsOrRejectsEveryWord_branches :
    legal 0xB16 = false ∧ legal 0x016 = true ∧ legal 0xA16 = true ∧ legal 0x20 = true ∧ legal 0x30 = true ∧
      legal 0x31 = true ∧ legal 0x15 = true := by decide

theorem test_witness_ByteCommandsComplete :
    State.reset.status.busy = false ∧ (inExec 0x01).status.busy = true ∧ (inExec 0x01).status.phase = .exec := by decide

theorem test_witness_StateCommandsComplete :
    idleFlags.status.busy = false ∧ (inExec 0x15).status.busy = true ∧ (inExec 0x15).status.phase = .exec := by decide

theorem test_witness_AddRoundKeyCompletes :
    State.reset.status.busy = false ∧ State.reset.status.ksValid = false ∧ keyed.status.busy = false ∧
      keyed.status.ksValid = true ∧ (10 : BitVec 4).toNat ≤ 10 ∧ 10 < (11 : BitVec 4).toNat ∧
      (inPhase 0x16 .exec 10 true).status.busy = true ∧ (inPhase 0x16 .exec 10 true).status.phase = .exec ∧
      (inPhase 0x16 .exec 10 true).status.round.toNat < 11 := by decide

theorem test_witness_KeyExpandCompletes :
    State.reset.status.busy = false ∧
      ∀ r ∈ ([1, 9, 10] : List (BitVec 4)), (inPhase 0x20 .keyExp r false).status.busy = true ∧
        (inPhase 0x20 .keyExp r false).status.phase = .keyExp ∧ (inPhase 0x20 .keyExp r false).status.op = 0x20 ∧
        (inPhase 0x20 .keyExp r false).status.round = r := by decide

theorem test_witness_EncryptCompletes :
    State.reset.status.busy = false ∧ State.reset.status.ksValid = false ∧ keyed.status.busy = false ∧
      keyed.status.ksValid = true ∧
      (∀ r ∈ ([1, 9, 10] : List (BitVec 4)), (inPhase 0x30 .keyExp r false).status.busy = true ∧
        (inPhase 0x30 .keyExp r false).status.phase = .keyExp ∧ (inPhase 0x30 .keyExp r false).status.op = 0x30 ∧
        (inPhase 0x30 .keyExp r false).status.round = r) ∧
      (∀ r ∈ ([0, 1, 9, 10] : List (BitVec 4)), (inPhase 0x30 .enc r true).status.busy = true ∧
        (inPhase 0x30 .enc r true).status.phase = .enc ∧ (inPhase 0x30 .enc r true).status.round = r) := by decide

theorem test_witness_DecryptCompletes :
    State.reset.status.busy = false ∧ State.reset.status.ksValid = false ∧ keyed.status.busy = false ∧
      keyed.status.ksValid = true ∧
      (∀ r ∈ ([1, 9, 10] : List (BitVec 4)), (inPhase 0x31 .keyExp r false).status.busy = true ∧
        (inPhase 0x31 .keyExp r false).status.phase = .keyExp ∧ (inPhase 0x31 .keyExp r false).status.op = 0x31 ∧
        (inPhase 0x31 .keyExp r false).status.round = r) ∧
      (∀ r ∈ ([0, 1, 9, 10] : List (BitVec 4)), (inPhase 0x31 .dec r true).status.busy = true ∧
        (inPhase 0x31 .dec r true).status.phase = .dec ∧ (inPhase 0x31 .dec r true).status.round = r) := by decide

theorem test_witness_KeyExpansionStepFollowsTheRule :
    ∀ op ∈ ([0x20, 0x30, 0x31] : List Byte), ∀ r ∈ ([1, 9, 10] : List (BitVec 4)),
      let s := inPhase op .keyExp r false
      1 ≤ r.toNat ∧ r.toNat ≤ 10 ∧ s.rst = false ∧ s.schedule = [] ∧ s.status.busy = true ∧
        s.status.phase = .keyExp ∧ s.status.round.toNat = r.toNat ∧
        (s.status.op = 0x20 ∨ s.status.op = 0x30 ∨ s.status.op = 0x31) := by decide

theorem test_witness_KeyExpansionStepFollowsTheRule_listed :
    ∀ ms, ∃ s : State, s.rst = false ∧ s.schedule = .engine :: ms ∧ s.status.busy = true ∧ s.status.phase = .keyExp ∧
      s.status.round.toNat = 10 ∧ s.status.op = 0x31 :=
  fun ms => ⟨(inPhase 0x31 .keyExp 10 false).setSchedule (.engine :: ms), rfl, rfl, rfl, rfl, rfl, rfl⟩

theorem test_witness_KeyExpansionStepFollowsTheRule_reachable : ∃ s : State, Reachable s ∧ s.status.phase = .keyExp ∧
    0 < s.status.round.toNat := by
  obtain ⟨t, h, hf⟩ := next_of_field (o := runSteps 1 (State.reset.setSchedule [hostWrite 0x004 0x00000020]))
    (f := fun t => (t.status.phase, t.status.round)) (v := (.keyExp, 1)) (by decide +kernel)
  have hp := congrArg Prod.fst hf
  have hr := congrArg Prod.snd hf
  simp only at hp hr
  exact ⟨t, ⟨_, _, h⟩, hp, by rw [hr]; decide⟩

theorem test_witness_KeyExpandRunBuildsTheSchedule :
    let s := writing idleFlags 0x004 0x00000020
    s.status.fsmLegal = true ∧ s.rst = false ∧ s.status.busy = false ∧
      s.schedule = [.host (.write 0x004 .bytes4 0x00000020)] := by decide

/-- Both commands, without a schedule and with the schedule of KEY in RK. -/
theorem test_witness_CipherRunsComputeTheCipherFunctions :
    ∀ v ∈ ([0x00000030, 0x00000031] : List Word32),
      (∃ s : State, s.status.fsmLegal = true ∧ s.rst = false ∧ s.status.busy = false ∧ s.status.ksValid = false ∧
        s.schedule = [.host (.write 0x004 .bytes4 v)]) ∧
      (∃ s : State, s.status.fsmLegal = true ∧ s.rst = false ∧ s.status.busy = false ∧ s.status.ksValid = true ∧
        s.rk = expand s.key ∧ s.schedule = [.host (.write 0x004 .bytes4 v)]) := by
  intro v _
  exact ⟨⟨writing State.reset 0x004 v, rfl, rfl, rfl, rfl, rfl⟩,
    ⟨{ writing keyed 0x004 v with rk := expand keyed.key }, rfl, rfl, rfl, rfl, rfl, rfl⟩⟩

/-- ENCRYPT without a schedule, with host transactions between its 21 engine steps, one of them a dropped KEY write. -/
theorem test_witness_CipherResultHoldsUnderEveryInterleaving :
    ∃ (s t : State) (ms : List Move) (k : Nat), s.status.fsmLegal = true ∧ s.rst = false ∧ s.status.busy = false ∧
      s.status.ksValid = false ∧ s.schedule = .host (.write 0x004 .bytes4 0x00000030) :: ms ∧ Move.rstAssert ∉ ms ∧
      (∀ j : Nat, j < k → ∃ u, runSteps (1 + j) s = .next u ∧ u.status.busy = true) ∧
      runSteps (1 + k) s = .next t ∧ t.status.busy = false := by
  let ms := [Move.engine, hostWrite 0x030 0xDEADBEEF, .engine, hostRead4 0x020]
  let s := State.reset.setSchedule (hostWrite 0x004 0x00000030 :: ms)
  obtain ⟨t, h, hf⟩ := next_of_field (o := runSteps (1 + 23) s) (f := (·.status.busy)) (v := false) (by decide +kernel)
  have busy : ∀ j : Fin 23, field (runSteps (1 + j.val) s) (·.status.busy) = some true := by decide +kernel
  exact ⟨s, t, ms, 23, rfl, rfl, rfl, rfl, rfl, by decide, fun j hj => next_of_field (busy ⟨j, hj⟩), h, hf⟩

/-- DECRYPT with the schedule of KEY in RK, and a listed engine move and a misaligned write among its 11 steps. -/
theorem test_witness_CipherResultHoldsUnderEveryInterleaving_decrypt :
    ∃ (s t : State) (ms : List Move) (k : Nat), s.status.fsmLegal = true ∧ s.rst = false ∧ s.status.busy = false ∧
      (s.status.ksValid = true ∧ s.rk = expand s.key) ∧ s.schedule = .host (.write 0x004 .bytes4 0x00000031) :: ms ∧
      Move.rstAssert ∉ ms ∧ (∀ j : Nat, j < k → ∃ u, runSteps (1 + j) s = .next u ∧ u.status.busy = true) ∧
      runSteps (1 + k) s = .next t ∧ t.status.busy = false := by
  let ms := [Move.engine, hostWrite 0x021 0xDEADBEEF]
  let s := { keyed with rk := expand keyed.key, schedule := hostWrite 0x004 0x00000031 :: ms }
  obtain ⟨t, h, hf⟩ := next_of_field (o := runSteps (1 + 12) s) (f := (·.status.busy)) (v := false) (by decide +kernel)
  have busy : ∀ j : Fin 12, field (runSteps (1 + j.val) s) (·.status.busy) = some true := by decide +kernel
  exact ⟨s, t, ms, 12, rfl, rfl, rfl, ⟨rfl, rfl⟩, rfl, by decide, fun j hj => next_of_field (busy ⟨j, hj⟩), h, hf⟩

/-- A program at its start in a state that meets the invariant, with no transaction under reset; and an end, ten engine
steps later. -/
theorem test_witness_StepCountsAreFixed_end :
    (expanding.Inv ∧ noHostUnderReset expanding.rst expanding.schedule = true) ∧ ∃ t, EndsAt 10 expanding t := by
  obtain ⟨t, h, hf⟩ := next_of_field (o := runSteps 10 expanding) (f := State.ended) (v := true) (by decide +kernel)
  have first : ∀ j : Fin 10, field (runSteps j.val expanding) State.ended = some false := by decide +kernel
  exact ⟨⟨expanding_inv, rfl⟩, t, h, hf, fun k hk => next_of_field (first ⟨k, hk⟩)⟩

/-- R152: a transaction under reset is what the host must not issue; one after the release is allowed. -/
theorem test_noHostUnderReset :
    noHostUnderReset false [.rstAssert, hostRead4 0x008] = false ∧
      noHostUnderReset true [.engine, .rstRelease, hostRead4 0x008] = true := by decide

theorem test_witness_StepCountsAreFixed :
    (∀ v : Word32, (writing keyed 0x004 v).status.fsmLegal = true ∧ (writing keyed 0x004 v).rst = false ∧
      (writing keyed 0x004 v).status.busy = false ∧ (writing keyed 0x004 v).status.ksValid = true ∧
      (writing keyed 0x004 v).schedule = [.host (.write 0x004 .bytes4 v)]) ∧
      legal 0x01 = true ∧ legal 0xA16 = true ∧ legal 0x20 = true ∧ legal 0x31 = true ∧ 0 ≤ 1 ∧ 21 ≤ 21 :=
  ⟨fun _ => ⟨rfl, rfl, rfl, rfl, rfl⟩, by decide⟩

theorem test_witness_ByteCommandsFrame :
    (∃ t, exec .invSbox State.reset = .next t ∧ t.status.busy = true) ∧
      (∃ t, exec .gfmul (inExec 0x01) = .next t ∧ t.status.done = true) := ⟨⟨_, rfl, rfl⟩, ⟨_, rfl, rfl⟩⟩

theorem test_witness_StateCommandsFrame :
    (∃ t, exec .shiftRows State.reset = .next t ∧ t.status.busy = true) ∧
      (∃ t, exec (.addRoundKey 10) State.reset = .next t ∧ t.status.errNokey = true) ∧
      (∃ t, exec (.addRoundKey 10) (inPhase 0x16 .exec 10 true) = .next t ∧ t.status.done = true) :=
  ⟨⟨_, rfl, rfl⟩, ⟨_, rfl, rfl⟩, ⟨_, rfl, rfl⟩⟩

theorem test_witness_KeyExpandFrame :
    (∃ t, exec .keyExpand State.reset = .next t ∧ t.status.busy = true) ∧
      (∃ t, exec .keyExpand expanding = .next t ∧ t.status.round = 2) := ⟨⟨_, rfl, rfl⟩, ⟨_, rfl, rfl⟩⟩

theorem test_witness_CipherCommandsFrame :
    (∃ t, exec .encrypt keyed = .next t ∧ t.status.phase = .enc) ∧
      (∃ t, exec .decrypt (inPhase 0x31 .dec 10 true) = .next t ∧ t.status.round = 9) ∧
      (∃ t, exec .encrypt (inPhase 0x30 .keyExp 10 false) = .next t ∧ t.status.phase = .enc) :=
  ⟨⟨_, rfl, rfl⟩, ⟨_, rfl, rfl⟩, ⟨_, rfl, rfl⟩⟩

theorem test_witness_HostCannotDisturbACommand :
    ∃ t, (writing expanding 0x030 0xDEADBEEF).status.busy = true ∧ step (writing expanding 0x030 0xDEADBEEF) = .next t ∧
      t.status.errBusywr = true := ⟨_, rfl, rfl, rfl⟩

/-- Two states that differ in every data register and agree in control. -/
theorem test_witness_ControlDoesNotDependOnData :
    let s := (inExec 0x12).setState s0
    let u := (((inExec 0x12).setGfA 1).setKey rk1).setRk 3 rk10
    s.status = u.status ∧ s.irqen = u.irqen ∧ s.rst = u.rst ∧ s.schedule = u.schedule ∧ s.gfA ≠ u.gfA ∧
      s.state ≠ u.state := by decide +kernel

theorem test_witness_OnlyTheHostAndResetWriteOperands :
    (∃ t, step (writing State.reset 0x010 1) = .next t ∧ t.gfA ≠ State.reset.gfA) ∧
      (∃ t, step (writing State.reset 0x014 1) = .next t ∧ t.gfB ≠ State.reset.gfB) ∧
      (∃ t, step (writing State.reset 0x03C 1) = .next t ∧ t.key ≠ State.reset.key) ∧
      ¬ ∃ ms, (writing State.reset 0x03C 1).schedule = .rstAssert :: ms :=
  ⟨⟨_, rfl, by decide⟩, ⟨_, rfl, by decide⟩, ⟨_, rfl, by decide⟩, fun ⟨_, h⟩ => by cases h⟩

theorem test_witness_OnlyTheirCommandsWriteResults :
    (∃ t, step (inExec 0x03) = .next t ∧ t.gfResult ≠ (inExec 0x03).gfResult) ∧
      (∃ t, step (writing (State.reset.setKey rk1) 0x004 0x30) = .next t ∧ t.rk ≠ State.reset.rk) ∧
      ¬ ∃ ms, (writing (State.reset.setKey rk1) 0x004 0x30).schedule = .rstAssert :: ms :=
  ⟨⟨_, rfl, by decide +kernel⟩, ⟨_, rfl, by decide +kernel⟩, fun ⟨_, h⟩ => by cases h⟩

theorem test_witness_KsValidChangesOnlyAsListed :
    (∃ t, step (inPhase 0x20 .keyExp 10 false) = .next t ∧ t.status.ksValid = true) ∧
      (∃ t, step (writing keyed 0x030 0) = .next t ∧ t.status.ksValid = false) ∧
      (∃ t, step (writing keyed 0x004 0x20) = .next t ∧ t.status.ksValid = false) ∧
      (∃ t, step (keyed.setSchedule [.rstAssert]) = .next t ∧ t.status.ksValid = false) :=
  ⟨⟨_, rfl, rfl⟩, ⟨_, rfl, rfl⟩, ⟨_, rfl, rfl⟩, ⟨_, rfl, rfl⟩⟩

theorem test_witness_DoneChangesOnlyAsListed :
    (∃ t, step (inExec 0x12) = .next t ∧ t.status.done = true) ∧
      (∃ t, step (writing idleFlags 0x004 0x01) = .next t ∧ idleFlags.status.done = true ∧ t.status.done = false) ∧
      (∃ t, step (writing idleFlags 0x008 0x02) = .next t ∧ t.status.done = false) ∧
      (∃ t, step (idleFlags.setSchedule [.rstAssert]) = .next t ∧ t.status.done = false) :=
  ⟨⟨_, rfl, rfl⟩, ⟨_, rfl, rfl, rfl⟩, ⟨_, rfl, rfl⟩, ⟨_, rfl, rfl⟩⟩

end Sys2Proof.Tests
end

section
/-! PROOFS. The element-wise laws of columns and matrices, and the block-to-matrix mapping (00_scope.md R9). A matrix is
determined by its elements `s[r][c]`, so that an equation of matrices is an equation for every r and c. -/

namespace Sys2Proof

@[simp] theorem Column.row_ofFn (f : Fin 4 → Byte) (r : Fin 4) : (Column.ofFn f).row r = f r := by
  match r with
  | 0 | 1 | 2 | 3 => rfl

@[simp] theorem ByteMatrix.col_ofFn (f : Fin 4 → Fin 4 → Byte) (c : Fin 4) :
    (ByteMatrix.ofFn f).col c = Column.ofFn (f · c) := by
  match c with
  | 0 | 1 | 2 | 3 => rfl

@[simp] theorem ByteMatrix.get_ofFn (f : Fin 4 → Fin 4 → Byte) (r c : Fin 4) : (ByteMatrix.ofFn f).get r c = f r c := by
  simp [ByteMatrix.get]

@[simp] theorem ByteMatrix.ofFn_get (m : ByteMatrix) : ByteMatrix.ofFn m.get = m := rfl

/-- The extensionality that lets an equation of matrices be proved element by element. -/
theorem ByteMatrix.ext_get {m n : ByteMatrix} (h : ∀ r c, m.get r c = n.get r c) : m = n := by
  have elements : m.get = n.get := funext fun r => funext (h r)
  rw [← ByteMatrix.ofFn_get m, elements, ByteMatrix.ofFn_get]

@[simp] theorem ByteMatrix.get_ofBlock (b : Vector Byte 16) (r c : Fin 4) :
    (ByteMatrix.ofBlock b).get r c = b[4 * c.val + r.val] :=
  ByteMatrix.get_ofFn _ r c

/-- The row and the column of byte k lead back to k, since `k = 4 (k div 4) + k mod 4`. -/
@[simp] theorem ByteMatrix.blockByte_ofBlock (b : Vector Byte 16) (k : Fin 16) :
    (ByteMatrix.ofBlock b).blockByte k = b[k] := by
  simp [ByteMatrix.blockByte, Nat.div_add_mod]

theorem ByteMatrix.blockByte_four_mul_add (m : ByteMatrix) (r c : Fin 4) (h : 4 * c.val + r.val < 16) :
    m.blockByte ⟨4 * c.val + r.val, h⟩ = m.get r c := by
  have row : (4 * c.val + r.val) % 4 = r.val := by omega
  have column : (4 * c.val + r.val) / 4 = c.val := by omega
  simp [ByteMatrix.blockByte, row, column]

/-- Settles O22: a matrix is its elements, and k ↦ (k mod 4, k div 4) and (r, c) ↦ 4c + r are inverse to each other. -/
theorem blockMapsColumnByColumn : Obligations.BlockMapsColumnByColumn := by
  refine ⟨ByteMatrix.get_ofBlock, ByteMatrix.blockByte_ofBlock, fun m => ByteMatrix.ext_get fun r c => ?_⟩
  rw [ByteMatrix.get_ofBlock, Vector.getElem_ofFn, ByteMatrix.blockByte_four_mul_add]

end Sys2Proof
end

section
/-! PROOFS. What one transition of any command, and one step of the machine, can do to STATUS, KEY and RK, and an induction
over reachable states; from these the invariants R32 and R33, and who sets and clears an error flag (R26). -/

namespace Sys2Proof

/-! ## Legal words -/

theorem ridxOf_of_opcodeOf_ne {i : Instr} (h : opcodeOf i ≠ 0x16) : ridxOf i = 0 := by
  cases i with
  | addRoundKey r => exact absurd rfl h
  | _ => rfl

theorem wellFormed_of_opcodeOf_ne {i : Instr} (h : opcodeOf i ≠ 0x16) : WellFormed i := by
  cases i with
  | addRoundKey r => exact absurd rfl h
  | _ => rfl

theorem wellFormed_addRoundKey {r : BitVec 4} : WellFormed (.addRoundKey r) ↔ r.toNat ≤ 10 := decide_eq_true_iff

theorem opcodeOf_eq_16 {i : Instr} : opcodeOf i = 0x16 ↔ ∃ r, i = .addRoundKey r := by
  cases i <;> simp [opcodeOf]

/-- The opcodes of R57 are those that the opcode map gives a command. -/
theorem assigned_iff (op : Byte) (r : BitVec 4) : op ∈ assignedOpcodes ↔ ∃ i, opcodeMap op r = some i := by
  constructor
  · intro h
    simp only [assignedOpcodes, List.mem_cons, List.not_mem_nil, or_false] at h
    rcases h with rfl | rfl | rfl | rfl | rfl | rfl | rfl | rfl | rfl | rfl | rfl | rfl | rfl | rfl <;> exact ⟨_, rfl⟩
  · rintro ⟨i, h⟩
    obtain ⟨rfl, -⟩ := opcodeMap_some.mp h
    cases i <;> simp [opcodeOf, assignedOpcodes]

theorem legal_iff {v : Word32} : legal v = true ↔ rsvdField v = 0 ∧ opcodeField v ∈ assignedOpcodes ∧
    if opcodeField v = 0x16 then (ridxField v).toNat ≤ 10 else ridxField v = 0 := by
  simp only [legal, Bool.and_eq_true, beq_iff_eq, List.contains_iff_mem, and_assoc]
  split <;> simp

/-- The legal words of R58 are those that decode. -/
theorem legal_iff_decodes {v : Word32} : legal v = true ↔ ∃ i, decodeWord v = .ok i := by
  simp only [legal_iff, decodeWord_ok, assigned_iff _ (ridxField v)]
  have index (i : Instr) (hi : opcodeMap (opcodeField v) (ridxField v) = some i) :
      (if opcodeField v = 0x16 then (ridxField v).toNat ≤ 10 else ridxField v = 0) ↔
        ridxField v = ridxOf i ∧ WellFormed i := by
    obtain ⟨ho, hr⟩ := opcodeMap_some.mp hi
    split
    next h =>
      obtain ⟨r, rfl⟩ := opcodeOf_eq_16.mp (ho.trans h)
      simp [wellFormed_addRoundKey, ← hr h, ridxOf]
    next h =>
      have hn : opcodeOf i ≠ 0x16 := ho ▸ h
      simpa only [ridxOf_of_opcodeOf_ne hn, iff_self_and] using fun _ => wellFormed_of_opcodeOf_ne hn
  constructor
  · rintro ⟨h0, ⟨i, hi⟩, hx⟩
    exact ⟨i, h0, hi, (index i hi).mp hx⟩
  · rintro ⟨i, h0, hi, hx⟩
    exact ⟨h0, ⟨i, hi⟩, (index i hi).mpr hx⟩

namespace Machine

variable {s t : State}

/-! ## What a command can do -/

/-- The two states agree in STATUS, KEY and RK, the registers that R26, R32 and R33 speak of. -/
structure SameKeying (s u : State) : Prop where
  status : u.status = s.status
  key : u.key = s.key
  rk : u.rk = s.rk

theorem SameKeying.refl (s : State) : SameKeying s s := ⟨rfl, rfl, rfl⟩

/-- What a transition of command `i` from `s` does to STATUS, KEY and RK: the outcomes that the commands share. -/
inductive CommandStep (i : Instr) (s : State) : State → Prop
  /-- an ADDROUNDKEY whose index names no round key (R124, log 11) -/
  | badIndex (r : BitVec 4) (idle : s.status.busy = false) (ark : i = .addRoundKey r) (index : 10 < r.toNat) :
      CommandStep i s (raise .illegal s)
  /-- an ADDROUNDKEY without a schedule (R125) -/
  | noKey (r : BitVec 4) (idle : s.status.busy = false) (ark : i = .addRoundKey r) (ks : s.status.ksValid = false) :
      CommandStep i s (raise .nokey s)
  /-- acceptance to EXEC, ENC or DEC (R108) -/
  | accepted (op : Byte) (p : Phase) (r : BitVec 4) (idle : s.status.busy = false)
      (phase : p = .exec ∨ p = .enc ∨ p = .dec) : CommandStep i s (accept op p r s)
  /-- acceptance to KEYEXP, which leaves KS_VALID at 0 (R103, R108) -/
  | expansion (op : Byte) (idle : s.status.busy = false) : CommandStep i s (startExpansion op (setKsValid false s))
  /-- the last step of a command that is not in key expansion (R110) -/
  | completed (u : State) (busy : s.status.busy = true) (same : SameKeying s u) : CommandStep i s (complete u)
  /-- a round of ENC or DEC with another one to follow (R112 to R117) -/
  | cipherRound (u : State) (p : Phase) (r : BitVec 4) (busy : s.status.busy = true) (phase : p = .enc ∨ p = .dec)
      (same : SameKeying s u) : CommandStep i s (gotoFsm p r u)
  /-- a round of key expansion with another one to follow (R104) -/
  | expansionRound (k : ByteMatrix) (busy : s.status.busy = true) (phase : s.status.phase = .keyExp)
      (key : roundKey? s (s.status.round - 1) = some k) (first : 1 ≤ s.status.round.toNat) (more : s.status.round.toNat < 10) :
      CommandStep i s
        (gotoFsm .keyExp (s.status.round + 1) (s.setRk s.status.round.toNat (nextKey k s.status.round.toNat)))
  /-- round 10 of key expansion, the end of a KEYEXPAND (R104) -/
  | expanded (k : ByteMatrix) (busy : s.status.busy = true) (phase : s.status.phase = .keyExp)
      (key : roundKey? s (s.status.round - 1) = some k) (last : s.status.round = 10) :
      CommandStep i s (complete (setKsValid true (s.setRk 10 (nextKey k 10))))
  /-- round 10 of key expansion, before the rounds of ENC or DEC (R104) -/
  | expandedCipher (k : ByteMatrix) (p : Phase) (r : BitVec 4) (busy : s.status.busy = true)
      (phase : s.status.phase = .keyExp) (key : roundKey? s (s.status.round - 1) = some k) (last : s.status.round = 10)
      (next : p = .enc ∨ p = .dec) : CommandStep i s (gotoFsm p r (setKsValid true (s.setRk 10 (nextKey k 10))))

theorem singleStep_commandStep {i : Instr} {op : Byte} {f : State → State} (h : singleStep op f s = .next t)
    (same : SameKeying s (f s)) : CommandStep i s t := by
  rcases singleStep_next h with ⟨idle, rfl⟩ | ⟨busy, -, rfl⟩
  · exact .accepted op .exec 0 idle (.inl rfl)
  · exact .completed _ busy same

theorem keyExpStep_commandStep {i : Instr} (busy : s.status.busy = true) (phase : s.status.phase = .keyExp)
    (h : keyExpStep s = .next t) : CommandStep i s t := by
  obtain ⟨k, key, first, ⟨more, rfl⟩ | ⟨last, h⟩⟩ := keyExpStep_next h
  · exact .expansionRound k busy phase key first more
  · rcases finishExpansion_next h with ⟨-, rfl⟩ | ⟨-, rfl⟩ | ⟨-, rfl⟩
    · exact .expanded k busy phase key last
    · exact .expandedCipher k .enc 0 busy phase key last (.inl rfl)
    · exact .expandedCipher k .dec 10 busy phase key last (.inr rfl)

theorem setKsValid_of_eq {b : Bool} (h : s.status.ksValid = b) : setKsValid b s = s := by subst h; rfl

/-- Every transition of every command is one of these. -/
theorem exec_commandStep {i : Instr} (h : exec i s = .next t) : CommandStep i s t := by
  have result (v : Byte) : SameKeying s (s.setGfResult v) := ⟨rfl, rfl, rfl⟩
  have state (m : ByteMatrix) : SameKeying s (s.setState m) := ⟨rfl, rfl, rfl⟩
  cases i with
  | gfmul => rw [exec_gfmul] at h; exact singleStep_commandStep h (result _)
  | gfinv => rw [exec_gfinv] at h; exact singleStep_commandStep h (result _)
  | sbox => rw [exec_sbox] at h; exact singleStep_commandStep h (result _)
  | invSbox => rw [exec_invSbox] at h; exact singleStep_commandStep h (result _)
  | subBytes => rw [exec_subBytes] at h; exact singleStep_commandStep h (state _)
  | invSubBytes => rw [exec_invSubBytes] at h; exact singleStep_commandStep h (state _)
  | shiftRows => rw [exec_shiftRows] at h; exact singleStep_commandStep h (state _)
  | invShiftRows => rw [exec_invShiftRows] at h; exact singleStep_commandStep h (state _)
  | mixColumns => rw [exec_mixColumns] at h; exact singleStep_commandStep h (state _)
  | invMixColumns => rw [exec_invMixColumns] at h; exact singleStep_commandStep h (state _)
  | addRoundKey r =>
    rw [exec_addRoundKey] at h
    rcases execAddRoundKey_next h with ⟨busy, -, k, -, rfl⟩ | ⟨idle, index, rfl⟩ | ⟨idle, -, -, rfl⟩ | ⟨idle, -, ks, rfl⟩
    · exact .completed _ busy (state _)
    · exact .badIndex r idle rfl index
    · exact .accepted 0x16 .exec r idle (.inl rfl)
    · exact .noKey r idle rfl ks
  | keyExpand =>
    rw [exec_keyExpand] at h
    rcases execKeyExpand_next h with ⟨busy, phase, h⟩ | ⟨idle, rfl⟩
    · exact keyExpStep_commandStep busy phase h
    · exact .expansion 0x20 idle
  | encrypt =>
    rw [exec_encrypt] at h
    rcases execEncrypt_next h with ⟨busy, phase, h⟩ | ⟨busy, -, h⟩ | ⟨idle, -, rfl⟩ | ⟨idle, ks, rfl⟩
    · exact keyExpStep_commandStep busy phase h
    · obtain ⟨k, -, ⟨-, rfl⟩ | ⟨-, -, rfl⟩ | ⟨-, rfl⟩⟩ := encStep_next h
      · exact .cipherRound _ .enc _ busy (.inl rfl) (state _)
      · exact .cipherRound _ .enc _ busy (.inl rfl) (state _)
      · exact .completed _ busy (state _)
    · exact .accepted 0x30 .enc 0 idle (.inr (.inl rfl))
    · have start := CommandStep.expansion (i := .encrypt) 0x30 idle
      rwa [setKsValid_of_eq ks] at start
  | decrypt =>
    rw [exec_decrypt] at h
    rcases execDecrypt_next h with ⟨busy, phase, h⟩ | ⟨busy, -, h⟩ | ⟨idle, -, rfl⟩ | ⟨idle, ks, rfl⟩
    · exact keyExpStep_commandStep busy phase h
    · obtain ⟨k, -, ⟨-, rfl⟩ | ⟨-, -, rfl⟩ | ⟨-, rfl⟩⟩ := decStep_next h
      · exact .cipherRound _ .dec _ busy (.inr rfl) (state _)
      · exact .cipherRound _ .dec _ busy (.inr rfl) (state _)
      · exact .completed _ busy (state _)
    · exact .accepted 0x31 .dec 10 idle (.inr (.inr rfl))
    · have start := CommandStep.expansion (i := .decrypt) 0x31 idle
      rwa [setKsValid_of_eq ks] at start

/-! ## What a step of the machine can do -/

/-- What a step from `s` does to STATUS, KEY and RK. -/
inductive StepEffect (s : State) : State → Prop
  | unchanged (t : State) (same : SameKeying s t) : StepEffect s t
  /-- the reset event (R141) -/
  | reset (u : State) (ms : List Move) (move : s.schedule = .rstAssert :: ms) : StepEffect s (resetEvent u)
  /-- a transition of a command: the engine's move while BUSY = 1 (R109), or the CMD write of its word while BUSY = 0 -/
  | command (i : Instr) (u t : State) (same : SameKeying s u) (run : exec i u = .next t)
      (origin : s.status.busy = true ∨
        ∃ ms v, s.schedule = .host (.write 0x004 .bytes4 v) :: ms ∧ decodeWord v = .ok i) : StepEffect s t
  /-- a write dropped because BUSY = 1 (R46, R126) -/
  | dropped (u : State) (same : SameKeying s u) (off : BitVec 12) (v : Word32) (ms : List Move)
      (move : s.schedule = .host (.write off .bytes4 v) :: ms) (busy : s.status.busy = true)
      (offset : off = 0x004 ∨ off = 0x010 ∨ off = 0x014 ∨ (0x020 ≤ off.toNat ∧ off.toNat < 0x040)) :
      StepEffect s (raise .busywr u)
  /-- the CMD write of an illegal word (R124) -/
  | illegalWord (u : State) (same : SameKeying s u) (v : Word32) (ms : List Move)
      (move : s.schedule = .host (.write 0x004 .bytes4 v) :: ms) (idle : s.status.busy = false) (e : Reject)
      (illegal : decodeWord v = .error e) : StepEffect s (raise .illegal u)
  /-- a STATUS write (R43) -/
  | acknowledge (u : State) (same : SameKeying s u) (v : Word32) (ms : List Move)
      (move : s.schedule = .host (.write 0x008 .bytes4 v) :: ms) : StepEffect s (statusW1c v u)
  /-- a KEY write (R44) -/
  | keyWord (u : State) (same : SameKeying s u) (c : Fin 4) (v : Word32) (idle : s.status.busy = false) :
      StepEffect s (writeKeyWord v c u)

theorem engineTurn_effect {u : State} (same : SameKeying s u) (h : engineTurn u = .next t) : StepEffect s t := by
  rcases engineTurn_next h with ⟨busy, -, i, -, h⟩ | ⟨-, rfl⟩
  · exact .command i u t same h (.inl (same.status ▸ busy))
  · exact .unchanged _ same

theorem hostRead_same (off : BitVec 12) (s : State) : SameKeying s (hostRead off s) := by
  rcases memRead_state off s with e | ⟨-, e⟩ <;> constructor <;> simp [hostRead, e]

theorem transact_effect {tr : Transaction} {ms : List Move} (hs : s.schedule = .host tr :: ms)
    (h : transact tr (s.setSchedule ms) = .next t) : StepEffect s t := by
  rcases transact_next h with ⟨-, rfl⟩ | ⟨off, rfl, -, rfl⟩ | ⟨off, v, rfl, ha, h⟩
  · exact .unchanged _ ⟨rfl, rfl, rfl⟩
  · have read := hostRead_same off (s.setSchedule ms)
    exact .unchanged _ ⟨read.status, read.key, read.rk⟩
  · have same : SameKeying s ((s.setSchedule ms).setBus .written) := ⟨rfl, rfl, rfl⟩
    rcases memWrite_next ha h with ⟨busy, offset, rfl⟩ | ⟨idle, rfl, e, he, rfl⟩ | ⟨-, rfl, i, hi, h⟩ | ⟨rfl, rfl⟩ |
      ⟨-, rfl⟩ | ⟨-, -, rfl⟩ | ⟨-, -, rfl⟩ | ⟨-, c, -, rfl⟩ | ⟨idle, c, -, rfl⟩ | rfl
    · exact .dropped _ same off v ms hs busy offset
    · exact .illegalWord _ same v ms hs idle e he
    · exact .command i _ _ same h (.inr ⟨ms, v, hs, hi⟩)
    · exact .acknowledge _ same v ms hs
    · exact .unchanged _ ⟨rfl, rfl, rfl⟩
    · exact .unchanged _ ⟨rfl, rfl, rfl⟩
    · exact .unchanged _ ⟨rfl, rfl, rfl⟩
    · exact .unchanged _ ⟨rfl, rfl, rfl⟩
    · exact .keyWord _ same c v idle
    · exact .unchanged _ same

/-- Every step is one of these. -/
theorem step_effect (h : step s = .next t) : StepEffect s t := by
  obtain ⟨-, ⟨-, h⟩ | ⟨ms, -, h⟩ | ⟨tr, ms, hs, -, h⟩ | ⟨ms, hs, rfl⟩ | ⟨ms, -, rfl⟩⟩ := step_next h
  · exact engineTurn_effect (.refl s) h
  · exact engineTurn_effect (u := s.setSchedule ms) ⟨rfl, rfl, rfl⟩ h
  · exact transact_effect hs h
  · exact .reset _ ms hs
  · exact .unchanged _ ⟨rfl, rfl, rfl⟩

/-! ## Reachable states -/

/-- What every step keeps holds along every run. -/
theorem runSteps_induction {P : State → Prop} (keep : ∀ s t, P s → step s = .next t → P t) {n : Nat} (hs : P s)
    (h : runSteps n s = .next t) : P t := by
  induction n generalizing s with
  | zero => cases h; exact hs
  | succ n ih =>
    cases hu : step s with
    | next u => exact ih (keep s u hs hu) (runSteps_succ hu ▸ h)
    | fault r => simp [runSteps, Host.Core.run, Sys2Proof.core, hu] at h
    | refused r => simp [runSteps, Host.Core.run, Sys2Proof.core, hu] at h

/-- What holds at reset, under any choice of moves, and is kept by every step holds in every reachable state. -/
theorem Reachable.induction {P : State → Prop} (start : ∀ ms, P (State.reset.setSchedule ms))
    (keep : ∀ s t, P s → step s = .next t → P t) (h : Reachable s) : P s := by
  obtain ⟨ms, n, run⟩ := h
  exact runSteps_induction keep (start ms) run

/-! ## BUSY and PHASE (R32) -/

/-- R32's condition on one value of STATUS. -/
def Status.BusyIffPhase (st : Status) : Prop := st.busy = true ↔ st.phase ≠ .idle

theorem exec_keeps_busyIffPhase {i : Instr} (h : exec i s = .next t) (hs : s.status.BusyIffPhase) :
    t.status.BusyIffPhase := by
  unfold Status.BusyIffPhase at hs ⊢
  cases exec_commandStep h with
  | badIndex | noKey => simpa using hs
  | accepted op p r idle phase => rcases phase with rfl | rfl | rfl <;> simp
  | expansion => simp [startExpansion]
  | completed | expanded => simp
  | cipherRound u p r busy phase same => rcases phase with rfl | rfl <;> simp [same.status, busy]
  | expansionRound k busy => simp [busy]
  | expandedCipher k p r busy phase key last next => rcases next with rfl | rfl <;> simp [busy]

/-- No agent can separate BUSY from PHASE: only acceptance and completion change either, and they change both. -/
theorem step_keeps_busyIffPhase (h : step s = .next t) (hs : s.status.BusyIffPhase) : t.status.BusyIffPhase := by
  cases step_effect h with
  | unchanged _ same => exact same.status ▸ hs
  | reset => simp [Status.BusyIffPhase, Status.reset]
  | command i u _ same run => exact exec_keeps_busyIffPhase run (same.status ▸ hs)
  | dropped u same | illegalWord u same | acknowledge u same =>
    simpa [Status.BusyIffPhase, same.status] using hs
  | keyWord u same => simpa [Status.BusyIffPhase, writeKeyWord, same.status] using hs

/-- Settles O10, by the invariant R32 itself, which is inductive. -/
theorem reachableBusyIffPhaseNotIdle : Obligations.ReachableBusyIffPhaseNotIdle :=
  fun _ reachable => reachable.induction (P := fun s => s.status.BusyIffPhase)
    (fun _ => by simp [Status.BusyIffPhase, State.reset, Status.reset]) fun _ _ hs h => step_keeps_busyIffPhase h hs

/-! ## The schedule in RK (R33) -/

/-- The two clauses of `State.Inv` about RK: a valid schedule is complete, and at (KEYEXP, r) the round keys below r are in
place (R33, R104). -/
structure State.Scheduled (s : State) : Prop where
  valid : s.status.ksValid = true → scheduleUpTo 11 s
  expanding : s.status.phase = .keyExp → s.status.ksValid = false ∧ scheduleUpTo s.status.round.toNat s

theorem scheduleUpTo.congr {n : Nat} (key : t.key = s.key) (rk : t.rk = s.rk) (h : scheduleUpTo n s) :
    scheduleUpTo n t := by
  simpa only [scheduleUpTo, key, rk] using h

/-- Kept where KEY, RK and KS_VALID are, and no new round of key expansion is entered. -/
theorem State.Scheduled.congr (hs : s.Scheduled) (key : t.key = s.key) (rk : t.rk = s.rk)
    (ks : t.status.ksValid = s.status.ksValid)
    (fsm : t.status.phase = .keyExp → s.status.phase = .keyExp ∧ t.status.round = s.status.round) : t.Scheduled where
  valid hk := (hs.valid (ks ▸ hk)).congr key rk
  expanding hp := by
    obtain ⟨phase, round⟩ := fsm hp
    rw [ks, round]
    exact (hs.expanding phase).imp_right (.congr key rk)

theorem State.Scheduled.same (hs : s.Scheduled) (same : SameKeying s t) : t.Scheduled :=
  hs.congr same.key same.rk (by rw [same.status]) (by rw [same.status]; exact fun hp => ⟨hp, rfl⟩)

/-- A round key written at the end of what is in place. -/
theorem scheduleUpTo_setRk {n : Nat} {m : ByteMatrix} (h : scheduleUpTo n s) (hm : m = expandRound s.key n) :
    scheduleUpTo (n + 1) (s.setRk n m) := by
  intro r hr hn
  rw [setRk_getElem, State.setRk_key]
  split
  next e => rw [hm, e]
  next e => exact h r hr (by omega)

/-- One round of R104 puts one more round key in place. -/
theorem scheduleUpTo_expansionRound {k : ByteMatrix} (h : scheduleUpTo s.status.round.toNat s)
    (key : roundKey? s (s.status.round - 1) = some k) (first : 1 ≤ s.status.round.toNat) :
    scheduleUpTo (s.status.round.toNat + 1) (s.setRk s.status.round.toNat (nextKey k s.status.round.toNat)) := by
  obtain ⟨hr, rfl⟩ := roundKey?_some key
  have previous : (s.status.round - 1).toNat + 1 = s.status.round.toNat := by
    rw [BitVec.toNat_sub]; simp; omega
  refine scheduleUpTo_setRk h ?_
  rw [h _ hr (by omega), ← previous, expandRound]

theorem exec_keeps_scheduled {i : Instr} (h : exec i s = .next t) (hs : s.Scheduled) : t.Scheduled := by
  cases exec_commandStep h with
  | badIndex | noKey => exact hs.congr (by simp) (by simp) (by simp) (by simp)
  | accepted op p r idle phase =>
    refine hs.congr (by simp) (by simp) (by simp) fun hp => ?_
    rcases phase with rfl | rfl | rfl <;> simp at hp
  | expansion =>
    have first : scheduleUpTo 1 ((setKsValid false s).setRk 0 s.key) := scheduleUpTo_setRk (fun r _ h => by omega) rfl
    exact ⟨fun hk => by simp [startExpansion] at hk, fun _ => ⟨by simp [startExpansion], first.congr rfl rfl⟩⟩
  | completed u busy same => exact (hs.same same).congr (by simp) (by simp) (by simp) (by simp)
  | cipherRound u p r busy phase same =>
    refine (hs.same same).congr (by simp) (by simp) (by simp) fun hp => ?_
    rcases phase with rfl | rfl <;> simp at hp
  | expansionRound k busy phase key first more =>
    obtain ⟨ks, placed⟩ := hs.expanding phase
    have next := scheduleUpTo_expansionRound placed key first
    have round : (s.status.round + 1).toNat = s.status.round.toNat + 1 := by
      rw [BitVec.toNat_add]; simp; omega
    refine ⟨fun hk => by simp [ks] at hk, fun _ => ⟨by simp [ks], ?_⟩⟩
    rw [gotoFsm_status, Status.goto_round, round]
    exact next.congr (by simp) (by simp)
  | expanded k busy phase key last =>
    have all := scheduleUpTo_expansionRound (hs.expanding phase).2 key (by simp [last])
    rw [last] at all
    exact ⟨fun _ => all.congr (by simp) (by simp), fun hp => by simp at hp⟩
  | expandedCipher k p r busy phase key last next =>
    have all := scheduleUpTo_expansionRound (hs.expanding phase).2 key (by simp [last])
    rw [last] at all
    refine ⟨fun _ => all.congr (by simp) (by simp), fun hp => ?_⟩
    rcases next with rfl | rfl <;> simp at hp

/-- R32 is needed for a KEY write only: performed while BUSY = 0, it does not come during an expansion. -/
theorem step_keeps_scheduled (h : step s = .next t) (hb : s.status.BusyIffPhase) (hs : s.Scheduled) : t.Scheduled := by
  cases step_effect h with
  | unchanged _ same => exact hs.same same
  | reset => exact ⟨fun hk => by simp [Status.reset] at hk, fun hp => by simp [Status.reset] at hp⟩
  | command i u _ same run => exact exec_keeps_scheduled run (hs.same same)
  | dropped u same | illegalWord u same | acknowledge u same =>
    exact (hs.same same).congr (by simp) (by simp) (by simp) (by simp)
  | keyWord u same c v idle =>
    have phase : s.status.phase = .idle := by simpa [Status.BusyIffPhase, idle, eq_comm] using hb
    exact ⟨fun hk => by simp [writeKeyWord] at hk, fun hp => by simp [writeKeyWord, same.status, phase] at hp⟩

/-- Settles O11: R33 made inductive by what an expansion has put in place, and by R32. -/
theorem reachableValidScheduleIsExpandOfKey : Obligations.ReachableValidScheduleIsExpandOfKey := by
  intro s reachable ks r hr
  have inv : s.status.BusyIffPhase ∧ s.Scheduled := by
    refine reachable.induction (P := fun s => s.status.BusyIffPhase ∧ s.Scheduled) (fun ms => ?_) fun s t ⟨hb, hs⟩ h =>
      ⟨step_keeps_busyIffPhase h hb, step_keeps_scheduled h hb hs⟩
    exact ⟨by simp [Status.BusyIffPhase, State.reset, Status.reset], fun hk => by simp [State.reset, Status.reset] at hk,
      fun hp => by simp [State.reset, Status.reset] at hp⟩
  rw [inv.2.valid ks r hr hr, expand, Vector.getElem_ofFn]

/-! ## The error flags (R26) -/

/-- STATUS.E. -/
def Status.flag (st : Status) : ErrorFlag → Bool
  | .illegal => st.errIllegal
  | .nokey => st.errNokey
  | .busywr => st.errBusywr

/-- The bit of STATUS that holds the flag (R22). -/
def ErrorFlag.bit : ErrorFlag → Nat
  | .illegal => 3
  | .nokey => 4
  | .busywr => 5

section flag

variable (st : Status) (f : ErrorFlag)

@[simp] theorem Status.raise_flag (e : ErrorFlag) : (st.raise e).flag f = (st.flag f || e == f) := by
  cases f <;> simp [Status.flag]

@[simp] theorem Status.w1c_flag (v : Word32) : (st.w1c v).flag f = (st.flag f && !v.getLsbD f.bit) := by
  cases f <;> simp [Status.flag, ErrorFlag.bit]

@[simp] theorem Status.accepted_flag (op : Byte) (p : Phase) (r : BitVec 4) : (st.accepted op p r).flag f = st.flag f := by
  cases f <;> simp [Status.flag]

@[simp] theorem Status.goto_flag (p : Phase) (r : BitVec 4) : (st.goto p r).flag f = st.flag f := by
  cases f <;> simp [Status.flag]

@[simp] theorem Status.completed_flag : st.completed.flag f = st.flag f := by
  cases f <;> simp [Status.flag]

@[simp] theorem Status.withKsValid_flag (b : Bool) : (st.withKsValid b).flag f = st.flag f := by
  cases f <;> simp [Status.flag]

end flag

variable {f : ErrorFlag}

/-- A command's only effect on a flag: an ADDROUNDKEY refused while BUSY = 0. -/
theorem exec_flag {i : Instr} (h : exec i s = .next t) (f : ErrorFlag) :
    t.status.flag f = s.status.flag f ∨
      (s.status.busy = false ∧ t.status.flag f = true ∧
        ∃ r, i = .addRoundKey r ∧ (10 < r.toNat ∨ (f = .nokey ∧ s.status.ksValid = false))) := by
  cases exec_commandStep h with
  | badIndex r idle ark index => cases f <;> simp [idle, ark, index]
  | noKey r idle ark ks => cases f <;> simp [idle, ark, ks]
  | completed u busy same | cipherRound u p r busy phase same => simp [same.status]
  | _ => simp [startExpansion]

/-- What may clear flag `f` in the step from `s` (R26). -/
def Clears (s : State) (f : ErrorFlag) : Prop :=
  (∃ ms, s.schedule = .rstAssert :: ms) ∨
    ∃ ms v, s.schedule = .host (.write 0x008 .bytes4 v) :: ms ∧ v.getLsbD f.bit = true

/-- What may set flag `f` in the step from `s` (R124, R125, R126). -/
def Sets (s : State) : ErrorFlag → Prop
  | .illegal => s.status.busy = false ∧
      ∃ ms v, s.schedule = .host (.write 0x004 .bytes4 v) :: ms ∧ legal v = false
  | .nokey => s.status.busy = false ∧ s.status.ksValid = false ∧
      ∃ ms v, s.schedule = .host (.write 0x004 .bytes4 v) :: ms ∧ legal v = true ∧ v.extractLsb' 0 8 = 0x16
  | .busywr => s.status.busy = true ∧
      ∃ ms off v, s.schedule = .host (.write off .bytes4 v) :: ms ∧
        (off = 0x004 ∨ off = 0x010 ∨ off = 0x014 ∨ (0x020 ≤ off.toNat ∧ off.toNat < 0x040))

theorem step_clears_flag (h : step s = .next t) (set : s.status.flag f = true) (clear : t.status.flag f = false) :
    Clears s f := by
  cases step_effect h with
  | reset u ms move => exact .inl ⟨ms, move⟩
  | acknowledge u same v ms move => exact .inr ⟨ms, v, move, by simpa [same.status, set] using clear⟩
  | unchanged _ same => simp [same.status, set] at clear
  | command i u _ same run => rcases exec_flag run f with e | ⟨-, e, -⟩ <;> simp [e, same.status, set] at clear
  | dropped u same | illegalWord u same | keyWord u same => simp [writeKeyWord, same.status, set] at clear

theorem step_sets_flag (h : step s = .next t) (clear : s.status.flag f = false) (set : t.status.flag f = true) :
    Sets s f := by
  cases step_effect h with
  | reset => cases f <;> simp [Status.flag, Status.reset] at set
  | dropped u same off v ms move busy offset =>
    obtain rfl : ErrorFlag.busywr = f := by simpa [same.status, clear] using set
    exact ⟨busy, ms, off, v, move, offset⟩
  | illegalWord u same v ms move idle e illegal =>
    obtain rfl : ErrorFlag.illegal = f := by simpa [same.status, clear] using set
    have undecoded : ¬ ∃ i, decodeWord v = .ok i := by simp [illegal]
    exact ⟨idle, ms, v, move, Bool.eq_false_iff.mpr (mt legal_iff_decodes.mp undecoded)⟩
  | command i u _ same run origin =>
    rcases exec_flag run f with e | ⟨idle, -, r, rfl, why⟩
    · simp [e, same.status, clear] at set
    · rw [same.status] at idle why
      obtain busy | ⟨ms, v, move, decoded⟩ := origin
      · simp [idle] at busy
      · obtain ⟨-, map, -, wf⟩ := decodeWord_ok.mp decoded
        obtain index | ⟨rfl, ks⟩ := why
        · exact absurd (wellFormed_addRoundKey.mp wf) (by omega)
        · exact ⟨idle, ks, ms, v, move, legal_iff_decodes.mpr ⟨_, decoded⟩, (opcodeMap_some.mp map).1.symm⟩
  | unchanged _ same => simp [same.status, clear] at set
  | acknowledge u same | keyWord u same => simp [writeKeyWord, same.status, clear] at set

/-- Settles O26: a step that sets or clears a flag is one of those that `Sets` and `Clears` list for it. -/
theorem errorFlagsChangeOnlyAsListed : Obligations.ErrorFlagsChangeOnlyAsListed := fun _ _ h =>
  ⟨step_clears_flag (f := .illegal) h, step_clears_flag (f := .nokey) h, step_clears_flag (f := .busywr) h,
    step_sets_flag (f := .illegal) h, step_sets_flag (f := .nokey) h, step_sets_flag (f := .busywr) h⟩

end Machine

end Sys2Proof
end

section
/-! PROOFS. How a column is packed into a bus word and taken out of it again (20_memory.md R37). A word is determined by its
four byte lanes, as a matrix is by its elements, so that an equation of words is an equation for every lane. -/

namespace Sys2Proof

open Machine (lane)

/-! ## One column of a matrix -/

@[simp] theorem ByteMatrix.col_setCol (m : ByteMatrix) (c d : Fin 4) (w : Column) :
    (m.setCol c w).col d = if d = c then w else m.col d := by
  fin_cases c <;> fin_cases d <;> rfl

@[simp] theorem row_unpackColumn (v : Word32) (i : Fin 4) : (unpackColumn v).row i = lane v i := Column.row_ofFn _ i

theorem get_unpack (v : Word32) (c d i : Fin 4) (m : ByteMatrix) :
    (unpack v c m).get i d = if d = c then lane v i else m.get i d := by
  rw [unpack, ByteMatrix.get, ByteMatrix.col_setCol]
  split
  · exact row_unpackColumn v i
  · rfl

/-! ## The lanes of a word -/

/-- Lane k + 1 of a word is lane k of what stands above its lowest byte. -/
theorem extractLsb'_append_byte {n : Nat} (hi : BitVec n) (lo : Byte) (k : Nat) :
    (hi ++ lo).extractLsb' (8 * (k + 1)) 8 = hi.extractLsb' (8 * k) 8 :=
  BitVec.extractLsb'_append_eq_of_le (by omega)

@[simp] theorem lane_pack (m : ByteMatrix) (c i : Fin 4) : lane (pack m c) i = m.get i c :=
  match i with
  | 0 => BitVec.extractLsb'_append_eq_right
  | 1 => (extractLsb'_append_byte _ _ 0).trans BitVec.extractLsb'_append_eq_right
  | 2 => (extractLsb'_append_byte _ _ 1).trans <| (extractLsb'_append_byte _ _ 0).trans BitVec.extractLsb'_append_eq_right
  | 3 => (extractLsb'_append_byte _ _ 2).trans <| (extractLsb'_append_byte _ _ 1).trans BitVec.extractLsb'_append_eq_left

/-- A word is its four byte lanes: bit k is bit k mod 8 of lane k div 8. -/
theorem ext_lane {v w : Word32} (h : ∀ i, lane v i = lane w i) : v = w := by
  have bit (u : Word32) (k : Nat) (hk : k < 32) : (lane u ⟨k / 8, by omega⟩).getLsbD (k % 8) = u.getLsbD k := by
    simp [lane, Nat.mod_lt, Nat.div_add_mod]
  exact BitVec.eq_of_getLsbD_eq fun k hk => by rw [← bit v k hk, ← bit w k hk, h]

theorem pack_unpack_same (v : Word32) (c : Fin 4) (m : ByteMatrix) : pack (unpack v c m) c = v :=
  ext_lane fun i => by rw [lane_pack, get_unpack, if_pos rfl]

theorem pack_unpack_of_ne (v : Word32) {c d : Fin 4} (h : d ≠ c) (m : ByteMatrix) :
    pack (unpack v c m) d = pack m d :=
  ext_lane fun i => by rw [lane_pack, lane_pack, get_unpack, if_neg h]

/-- Settles O21: the lanes of `pack` are the elements of the column, and `unpack` makes the lanes the elements of one
column. -/
theorem packAndUnpackFollowTheLanes : Obligations.PackAndUnpackFollowTheLanes := fun m v c d =>
  ⟨lane_pack m c, fun i => (get_unpack v c c i m).trans (if_pos rfl), fun h i => (get_unpack v c d i m).trans (if_neg h),
    pack_unpack_same v c m, fun h => pack_unpack_of_ne v h m⟩

end Sys2Proof
end

section
/-! PROOFS. Host transactions at the register window (20_memory.md R39 to R46): the step that a listed transaction is, what
a performed read and write do at each register, and which bits of a register have no storage (R40). -/

namespace Sys2Proof.Machine

variable {s t : State}

/-! ## The step that a host transaction is -/

theorem step_read {off : BitVec 12} {ms : List Move} (hl : s.status.fsmLegal = true) (hr : s.rst = false)
    (hs : s.schedule = .host (.read off .bytes4) :: ms) (ha : off.toNat % 4 = 0) :
    step s = .next (hostRead off (s.setSchedule ms)) := by
  rw [step_host hl hr hs, transact_read ha]

theorem step_write {off : BitVec 12} {v : Word32} {ms : List Move} (hl : s.status.fsmLegal = true) (hr : s.rst = false)
    (hs : s.schedule = .host (.write off .bytes4 v) :: ms) (ha : off.toNat % 4 = 0) :
    step s = memWrite off v ((s.setSchedule ms).setBus .written) := by
  rw [step_host hl hr hs, transact_write ha]

theorem step_unperformed {tr : Transaction} {ms : List Move} (hl : s.status.fsmLegal = true) (hr : s.rst = false)
    (hs : s.schedule = .host tr :: ms) (hp : tr.performed = false) :
    step s = .next ((s.setSchedule ms).setBus (.error 0)) := by
  rw [step_host hl hr hs, transact_unperformed hp]

/-- Settles O13: neither a read nor a write is performed at such a size or offset. -/
theorem unperformedTransactionIsABusError : Obligations.UnperformedTransactionIsABusError := by
  intro s ms off size v hl hr bad hs
  have unaligned : ¬ (size = .bytes4 ∧ off.toNat % 4 = 0) := fun ⟨h4, h0⟩ => bad.elim (· h4) (· h0)
  obtain hs | hs := hs
  · exact step_unperformed hl hr hs (Bool.eq_false_iff.mpr (mt performed_read.mp unaligned))
  · exact step_unperformed hl hr hs (Bool.eq_false_iff.mpr (mt performed_write.mp unaligned))

/-! ## A performed write, register by register -/

section
variable {off : BitVec 12} {v : Word32}

theorem memWrite_cmd : memWrite 0x004 v s = writeCmd v s := rfl
theorem memWrite_status : memWrite 0x008 v s = .next (statusW1c v s) := rfl
theorem memWrite_irqen : memWrite 0x00C v s = .next (s.setIrqen (v.extractLsb' 0 2)) := rfl
theorem memWrite_gfA : memWrite 0x010 v s = .next (writeOperand (State.setGfA (byteOperand v)) s) := rfl
theorem memWrite_gfB : memWrite 0x014 v s = .next (writeOperand (State.setGfB (byteOperand v)) s) := rfl

theorem memWrite_stateW {c : Fin 4} (h : off.toNat = 0x020 + 4 * c.val) :
    memWrite off v s = .next (writeOperand (fun s => s.setState (unpack v c s.state)) s) := by
  rw [memWrite, regAt_stateW h]

theorem memWrite_keyW {c : Fin 4} (h : off.toNat = 0x030 + 4 * c.val) :
    memWrite off v s = .next (writeOperand (writeKeyWord v c) s) := by
  rw [memWrite, regAt_keyW h]

/-- ID, GF_RESULT and the round keys (R45). -/
theorem memWrite_readOnly
    (h : off = 0x000 ∨ off = 0x018 ∨ ∃ (r : Fin 11) (c : Fin 4), off.toNat = 0x100 + 16 * r.val + 4 * c.val) :
    memWrite off v s = .next s := by
  obtain rfl | rfl | ⟨r, c, h⟩ := h
  · rfl
  · rfl
  · rw [memWrite, regAt_rkW h]

theorem memWrite_reserved (ha : off.toNat % 4 = 0)
    (h : off.toNat = 0x01C ∨ (0x040 ≤ off.toNat ∧ off.toNat ≤ 0x0FC) ∨ 0x1B0 ≤ off.toNat) :
    memWrite off v s = .next s := by
  rw [memWrite, regAt_reserved ha h]

theorem writeOperand_busy {f : State → State} (hb : s.status.busy = true) : writeOperand f s = raise .busywr s := if_pos hb

theorem writeCmd_busy (hb : s.status.busy = true) : writeCmd v s = .next (raise .busywr s) := if_pos hb

/-- The writes that BUSY = 1 drops, all in the same way (R46). -/
theorem memWrite_busy (hb : s.status.busy = true) (h : off = 0x004 ∨ off = 0x010 ∨ off = 0x014 ∨
      ∃ c : Fin 4, off.toNat = 0x020 + 4 * c.val ∨ off.toNat = 0x030 + 4 * c.val) :
    memWrite off v s = .next (raise .busywr s) := by
  obtain rfl | rfl | rfl | ⟨c, h | h⟩ := h
  · rw [memWrite_cmd, writeCmd_busy hb]
  · rw [memWrite_gfA, writeOperand_busy hb]
  · rw [memWrite_gfB, writeOperand_busy hb]
  · rw [memWrite_stateW h, writeOperand_busy hb]
  · rw [memWrite_keyW h, writeOperand_busy hb]

end

/-- Settles O17: `memWrite_busy` for the operand registers and CMD; STATUS and IRQEN writes do not look at BUSY. -/
theorem writeWhileBusyIsDroppedAndFlagged : Obligations.WriteWhileBusyIsDroppedAndFlagged := by
  intro s ms off v hl hr hb hs
  refine ⟨fun operand => ?_, ?_, ?_⟩
  · have aligned : off.toNat % 4 = 0 := by
      obtain rfl | rfl | rfl | ⟨c, h⟩ := operand
      · rfl
      · rfl
      · rfl
      · omega
    exact (step_write hl hr hs aligned).trans (memWrite_busy hb operand)
  · rintro rfl
    exact (step_write hl hr hs rfl).trans memWrite_irqen
  · rintro rfl
    exact (step_write hl hr hs rfl).trans memWrite_status

/-- Settles O18: every offset of a read-only register is aligned, and `memWrite_readOnly` for it. -/
theorem writeToAReadOnlyRegisterIsIgnored : Obligations.WriteToAReadOnlyRegisterIsIgnored := by
  intro s ms off v hl hr hs readOnly
  have aligned : off.toNat % 4 = 0 := by
    obtain rfl | rfl | ⟨r, c, h⟩ := readOnly
    · rfl
    · rfl
    · omega
  exact (step_write hl hr hs aligned).trans (memWrite_readOnly readOnly)

/-- Settles O20: the next state is the W1C of R43 beside the bus response, and no case of it asks for BUSY. -/
theorem statusWriteClearsTheFlagsWrittenOne : Obligations.StatusWriteClearsTheFlagsWrittenOne := by
  intro s ms v hl hr hs
  have acknowledged := (step_write hl hr hs rfl).trans memWrite_status
  exact ⟨_, acknowledged, rfl, rfl, rfl, rfl, rfl, rfl, rfl, rfl, rfl, rfl⟩

/-! ## Bits without storage (R40) -/

section
variable {off : BitVec 12} {v w : Word32}

/-- Bits that a mask selects are the same in two words that agree under the mask. -/
theorem getLsbD_eq_of_and_eq {n : Nat} {m v w : BitVec n} (h : v &&& m = w &&& m) {k : Nat} (hk : m.getLsbD k = true) :
    v.getLsbD k = w.getLsbD k := by
  simpa [hk] using congrArg (·.getLsbD k) h

theorem extractLsb'_eq_of_and_eq {n a l : Nat} {m v w : BitVec n} (h : v &&& m = w &&& m)
    (hm : m.extractLsb' a l = BitVec.allOnes l) : v.extractLsb' a l = w.extractLsb' a l := by
  simpa [BitVec.extractLsb'_and, hm] using congrArg (·.extractLsb' a l) h

theorem Status.w1c_congr (st : Status) (h : v &&& 0x00FF7F3F = w &&& 0x00FF7F3F) : st.w1c v = st.w1c w := by
  have bit {k : Nat} := getLsbD_eq_of_and_eq h (k := k)
  simp only [Status.w1c, bit (k := 1) (by decide), bit (k := 3) (by decide), bit (k := 4) (by decide),
    bit (k := 5) (by decide)]

/-- A write ignores the reserved bits of its word: words that agree in the register's own bits do the same. -/
theorem memWrite_congr (h : (off = 0x008 ∧ v &&& 0x00FF7F3F = w &&& 0x00FF7F3F) ∨
      (off = 0x00C ∧ v &&& 0x3 = w &&& 0x3) ∨
      ((off = 0x010 ∨ off = 0x014 ∨ off = 0x018) ∧ v &&& 0xFF = w &&& 0xFF)) :
    memWrite off v s = memWrite off w s := by
  obtain ⟨rfl, h⟩ | ⟨rfl, h⟩ | ⟨byteRegister, h⟩ := h
  · rw [memWrite_status, memWrite_status, statusW1c, statusW1c, Status.w1c_congr _ h]
  · rw [memWrite_irqen, memWrite_irqen, extractLsb'_eq_of_and_eq h (by decide)]
  · have operand : byteOperand v = byteOperand w := extractLsb'_eq_of_and_eq h (by decide)
    obtain rfl | rfl | rfl := byteRegister
    · rw [memWrite_gfA, memWrite_gfA, operand]
    · rw [memWrite_gfB, memWrite_gfB, operand]
    · rw [memWrite_readOnly (.inr (.inl rfl)), memWrite_readOnly (.inr (.inl rfl))]

theorem and_append_eq_zero {n k : Nat} {x a : BitVec n} {y b : BitVec k} (hx : x &&& a = 0) (hy : y &&& b = 0) :
    (x ++ y) &&& (a ++ b) = 0 := by
  rw [BitVec.and_append, hx, hy]
  exact BitVec.zero_append_zero

/-- The reserved fields of the STATUS word are zero, and the mask is zero on the others (R22). -/
theorem Status.word_reserved (st : Status) : st.word &&& 0xFF0080C0 = 0 := by
  have mask : (0xFF0080C0 : Word32) = (0xFF : BitVec 8) ++ (0 : BitVec 8) ++ (1 : BitVec 1) ++ (0 : BitVec 3) ++
    (0 : BitVec 4) ++ (3 : BitVec 2) ++ (0 : BitVec 1) ++ (0 : BitVec 1) ++ (0 : BitVec 1) ++ (0 : BitVec 1) ++
    (0 : BitVec 1) ++ (0 : BitVec 1) := by decide
  rw [mask, Status.word]
  iterate 11 refine and_append_eq_zero ?_ ?_
  all_goals simp only [BitVec.ofNat_eq_ofNat, BitVec.and_zero, BitVec.zero_and]

/-- A register of n bits reads as 0 above them. -/
theorem zext32_reserved {n : Nat} (b : BitVec n) {m : Word32} (hm : ∀ k < n, m.getLsbD k = false) :
    zext32 b &&& m = 0 := by
  refine BitVec.eq_of_getLsbD_eq fun k _ => ?_
  by_cases hk : k < n
  · simp [hm k hk]
  · simp [zext32, BitVec.getLsbD_of_ge b k (by omega)]

/-! ## A performed read -/

theorem memRead_status : memRead 0x008 s = (s.status.word, s) := rfl
theorem memRead_irqen : memRead 0x00C s = (zext32 s.irqen, s) := rfl
theorem memRead_gfA : memRead 0x010 s = (zext32 s.gfA, s) := rfl
theorem memRead_gfB : memRead 0x014 s = (zext32 s.gfB, s) := rfl
theorem memRead_gfResult : memRead 0x018 s = readResult (zext32 s.gfResult) s := rfl

theorem memRead_reserved (ha : off.toNat % 4 = 0)
    (h : off.toNat = 0x01C ∨ (0x040 ≤ off.toNat ∧ off.toNat ≤ 0x0FC) ∨ 0x1B0 ≤ off.toNat) :
    memRead off s = (0, s) := by
  rw [memRead, regAt_reserved ha h]

theorem readResult_idle (hb : s.status.busy = false) : readResult v s = (v, s) := by simp [readResult, hb]

theorem hostRead_of_memRead (h : memRead off s = (v, s)) : hostRead off s = s.setBus (.data v) := by
  rw [hostRead, h]

/-- What the host gets from a read is what `memRead` gives. -/
theorem data_of_step_read {d : Word32} {ms : List Move} (hl : s.status.fsmLegal = true) (hr : s.rst = false)
    (hs : s.schedule = .host (.read off .bytes4) :: ms) (ha : off.toNat % 4 = 0) (h : step s = .next t)
    (hd : t.bus = .data d) : d = (memRead off (s.setSchedule ms)).1 := by
  rw [step_read hl hr hs ha] at h
  cases h
  cases hd
  rfl

end

/-- Settles O19: a reserved offset names no register, a read gives zero in the bits that have no storage, and a write does
not depend on them. -/
theorem reservedSpaceReadsZeroAndIgnoresWrites : Obligations.ReservedSpaceReadsZeroAndIgnoresWrites := by
  intro s ms off v hl hr
  refine ⟨fun ha reserved => ⟨fun hs => ?_, fun hs => ?_⟩, fun hs t d h hd => ⟨?_, ?_, ?_⟩, fun w same => ?_⟩
  · rw [step_read hl hr hs ha, hostRead_of_memRead (memRead_reserved ha reserved)]
    rfl
  · exact (step_write hl hr hs ha).trans (memWrite_reserved ha reserved)
  · rintro rfl
    rw [data_of_step_read hl hr hs rfl h hd, memRead_status, Status.word_reserved]
  · rintro rfl
    rw [data_of_step_read hl hr hs rfl h hd, memRead_irqen, zext32_reserved _ (by decide)]
  · rintro (rfl | rfl | ⟨rfl, idle⟩) <;> rw [data_of_step_read hl hr hs rfl h hd]
    · rw [memRead_gfA, zext32_reserved _ (by decide)]
    · rw [memRead_gfB, zext32_reserved _ (by decide)]
    · rw [memRead_gfResult, readResult_idle (s := s.setSchedule ms) idle, zext32_reserved _ (by decide)]
  · have aligned : off.toNat % 4 = 0 := by
      obtain ⟨rfl, -⟩ | ⟨rfl, -⟩ | ⟨rfl | rfl | rfl, -⟩ := same <;> rfl
    have written (u : Word32) : step (s.setSchedule (.host (.write off .bytes4 u) :: ms)) =
        memWrite off u ((s.setSchedule ms).setBus .written) := step_write hl hr rfl aligned
    rw [written, written, memWrite_congr same]

end Sys2Proof.Machine
end

section
/-! PROOFS. Decoding and encoding are inverse to each other on the words and the well-formed commands of 30_encoding.md, so
that counting the legal words (R58) is counting the well-formed commands. -/

namespace Sys2Proof

/-- A word decodes to the well-formed command whose word it is, and to no other (R57, R60). -/
theorem decodeWord_ok_iff_encode {v : Word32} {i : Instr} : decodeWord v = .ok i ↔ WellFormed i ∧ encode i = v := by
  rw [decodeWord_ok, opcodeMap_some]
  constructor
  · rintro ⟨rsvd, ⟨opcode, -⟩, ridx, wf⟩
    refine ⟨wf, ?_⟩
    rw [word_eq_fields v, rsvd, ridx, ← opcode]
    rfl
  · rintro ⟨wf, rfl⟩
    obtain ⟨opcode, ridx, rsvd⟩ := Laws.Encoding.fields (opcodeOf i) (ridxOf i)
    exact ⟨rsvd, ⟨opcode.symm, fun _ => ridx.symm⟩, ridx, wf⟩

/-- The commands of R57 that take no operand, each with one word. -/
def operandFreeCommands : List Instr :=
  [.gfmul, .gfinv, .sbox, .invSbox, .subBytes, .invSubBytes, .shiftRows, .invShiftRows, .mixColumns, .invMixColumns,
    .keyExpand, .encrypt, .decrypt]

/-- The well-formed commands: 13 without an operand, and ADDROUNDKEY with the indices 0..10 (R58). -/
def wellFormedCommands : List Instr :=
  operandFreeCommands ++ (List.range 11).map fun r => .addRoundKey (BitVec.ofNat 4 r)

theorem mem_operandFreeCommands {i : Instr} : i ∈ operandFreeCommands ↔ opcodeOf i ≠ 0x16 := by
  cases i <;> simp [operandFreeCommands, opcodeOf]

theorem ofNat_mem_range_eleven (r : BitVec 4) : (∃ n ∈ List.range 11, BitVec.ofNat 4 n = r) ↔ r.toNat ≤ 10 := by
  constructor
  · rintro ⟨n, hn, rfl⟩
    have : n < 11 := List.mem_range.mp hn
    rw [BitVec.toNat_ofNat]
    omega
  · exact fun h => ⟨r.toNat, List.mem_range.mpr (by omega), BitVec.eq_of_toNat_eq (by simp)⟩

theorem mem_wellFormedCommands {i : Instr} : i ∈ wellFormedCommands ↔ WellFormed i := by
  rw [wellFormedCommands, List.mem_append, mem_operandFreeCommands, List.mem_map]
  by_cases h : opcodeOf i = 0x16
  · obtain ⟨r, rfl⟩ := opcodeOf_eq_16.mp h
    simpa [wellFormed_addRoundKey, opcodeOf] using ofNat_mem_range_eleven r
  · exact iff_of_true (.inl h) (wellFormed_of_opcodeOf_ne h)

/-- The legal words of R58, listed as the words of the well-formed commands. -/
def legalWords : List Word32 := wellFormedCommands.map encode

theorem mem_legalWords {v : Word32} : v ∈ legalWords ↔ ∃ i, decodeWord v = .ok i := by
  simp only [legalWords, List.mem_map, mem_wellFormedCommands, decodeWord_ok_iff_encode]

theorem encode_injOn_wellFormed {i j : Instr} (hi : WellFormed i) (hj : WellFormed j) (h : encode i = encode j) : i = j := by
  have decoded : decodeWord (encode i) = .ok i := decodeWord_ok_iff_encode.mpr ⟨hi, rfl⟩
  rw [decodeWord_ok_iff_encode.mpr ⟨hj, h.symm⟩] at decoded
  exact (Except.ok.inj decoded).symm

/-- No two well-formed commands have one word, so the list of words repeats none. -/
theorem legalWords_nodup : legalWords.Nodup := by
  have commands : wellFormedCommands.Nodup := by decide
  exact commands.map_on fun i hi j hj =>
    encode_injOn_wellFormed (mem_wellFormedCommands.mp hi) (mem_wellFormedCommands.mp hj)

/-- Settles O3: the decoder accepts the words that `legal` does, which are the words of 13 + 11 commands. -/
theorem decoderAcceptsExactlyTheLegalWords : Obligations.DecoderAcceptsExactlyTheLegalWords :=
  ⟨fun _ => legal_iff_decodes.symm.trans legal_iff, legalWords, rfl, legalWords_nodup, fun _ => mem_legalWords⟩

end Sys2Proof
end

section
/-! PROOFS. multiply is additive for XOR in each operand, and every byte is an XOR of powers of x, so an additive law on
all bytes follows from its eight cases at the powers of x: the ring laws of multiply (40_field_arithmetic.md R65) and
the shift that xtime is (R66). What R68 says of inverse follows from those and from `a • inverse(a) = 1`. -/

namespace Sys2Proof.Machine

/-! ## multiply is additive -/

/-- Toggling `t` under a condition is additive in the condition and the accumulator together. -/
theorem toggle_xor {w : Nat} (p q : Bool) (x y t : BitVec w) :
    (if p ^^ q then (x ^^^ y) ^^^ t else x ^^^ y) = (if p then x ^^^ t else x) ^^^ (if q then y ^^^ t else y) := by
  cases p <;> cases q
  · rfl
  · exact BitVec.xor_assoc x y t
  · change (x ^^^ y) ^^^ t = (x ^^^ t) ^^^ y
    ac_rfl
  · change x ^^^ y = (x ^^^ t) ^^^ (y ^^^ t)
    rw [BitVec.xor_comm y t, BitVec.xor_assoc, ← BitVec.xor_assoc t, BitVec.xor_self, BitVec.zero_xor]

/-- A loop whose steps are additive is additive. -/
theorem foldl_xor {w : Nat} {f g h : BitVec w → Nat → BitVec w}
    (step : ∀ x y i, f (x ^^^ y) i = g x i ^^^ h y i) (l : List Nat) (x y : BitVec w) :
    l.foldl f (x ^^^ y) = l.foldl g x ^^^ l.foldl h y :=
  List.foldl_hom₂ l (· ^^^ ·) g h f x y fun x y i => (step x y i).symm

theorem clmul_xor (a b c : Byte) : clmul a (b ^^^ c) = clmul a b ^^^ clmul a c := by
  refine foldl_xor (fun x y i => ?_) [0, 1, 2, 3, 4, 5, 6, 7] 0 0
  refine foldl_xor (fun x y j => ?_) _ x y
  rw [BitVec.getLsbD_xor, Bool.and_xor_distrib_left, toggle_xor]

theorem xor_clmul (a b c : Byte) : clmul (a ^^^ b) c = clmul a c ^^^ clmul b c := by
  refine foldl_xor (fun x y i => ?_) [0, 1, 2, 3, 4, 5, 6, 7] 0 0
  refine foldl_xor (fun x y j => ?_) _ x y
  rw [BitVec.getLsbD_xor, Bool.and_xor_distrib_right, toggle_xor]

theorem reduce_xor (x y : BitVec 16) : reduce (x ^^^ y) = reduce x ^^^ reduce y := by
  refine foldl_xor (fun x y p => ?_) _ x y
  rw [BitVec.getLsbD_xor, toggle_xor]

theorem multiply_xor (a b c : Byte) : multiply a (b ^^^ c) = multiply a b ^^^ multiply a c := by
  rw [multiply, clmul_xor, reduce_xor, BitVec.setWidth_xor, multiply, multiply]

theorem xor_multiply (a b c : Byte) : multiply (a ^^^ b) c = multiply a c ^^^ multiply b c := by
  rw [multiply, xor_clmul, reduce_xor, BitVec.setWidth_xor, multiply, multiply]

theorem xtime_xor (a b : Byte) : xtime (a ^^^ b) = xtime a ^^^ xtime b := multiply_xor 2 a b

@[simp] theorem multiply_zero (a : Byte) : multiply a 0 = 0 := by
  have h := multiply_xor a 0 0
  rwa [BitVec.xor_self, BitVec.xor_self] at h

/-! ## Bytes as XORs of powers of x -/

theorem byte_eq_xor_bits (a : Byte) :
    a = (List.finRange 8).foldr (fun i acc => (if a.getLsbD i then .twoPow 8 i else 0) ^^^ acc) 0 := by
  revert a
  decide +kernel

/-- An additive property of bytes holds of all of them if it holds of the eight powers of x. -/
theorem byte_xor_induction {P : Byte → Prop} (bit : ∀ i : Fin 8, P (.twoPow 8 i))
    (xor : ∀ a b, P a → P b → P (a ^^^ b)) (a : Byte) : P a := by
  have zero : P 0 := xor (.twoPow 8 0) _ (bit 0) (bit 0)
  rw [byte_eq_xor_bits a]
  induction List.finRange 8 with
  | nil => exact zero
  | cons i l ih =>
    refine xor _ _ ?_ ih
    split
    · exact bit i
    · exact zero

/-- The eight powers of x are what doubling makes of 1. -/
theorem twoPow_eq_iterate_xtime : ∀ i : Fin 8, BitVec.twoPow 8 i = xtime^[i] 1 := by decide +kernel

/-! ## The ring laws -/

theorem multiply_comm (a b : Byte) : multiply a b = multiply b a := by
  have bits : ∀ i j : Fin 8, multiply (.twoPow 8 i) (.twoPow 8 j) = multiply (.twoPow 8 j) (.twoPow 8 i) := by
    decide +kernel
  induction a using byte_xor_induction with
  | xor a a' ha ha' => rw [xor_multiply, multiply_xor, ha, ha']
  | bit i =>
    induction b using byte_xor_induction with
    | xor b b' hb hb' => rw [multiply_xor, xor_multiply, hb, hb']
    | bit j => exact bits i j

@[simp] theorem one_multiply (a : Byte) : multiply 1 a = a := by
  have bits : ∀ i : Fin 8, multiply 1 (.twoPow 8 i) = .twoPow 8 i := by decide +kernel
  induction a using byte_xor_induction with
  | xor a b ha hb => rw [multiply_xor, ha, hb]
  | bit i => exact bits i

@[simp] theorem multiply_one (a : Byte) : multiply a 1 = a := by
  rw [multiply_comm, one_multiply]

theorem xtime_multiply (a b : Byte) : multiply (xtime a) b = xtime (multiply a b) := by
  have bits : ∀ i j : Fin 8, multiply (xtime (.twoPow 8 i)) (.twoPow 8 j) =
      xtime (multiply (.twoPow 8 i) (.twoPow 8 j)) := by
    decide +kernel
  induction a using byte_xor_induction with
  | xor a a' ha ha' => rw [xtime_xor, xor_multiply, xor_multiply, xtime_xor, ha, ha']
  | bit i =>
    induction b using byte_xor_induction with
    | xor b b' hb hb' => rw [multiply_xor, multiply_xor, xtime_xor, hb, hb']
    | bit j => exact bits i j

theorem iterate_xtime_multiply (n : Nat) (a b : Byte) : multiply (xtime^[n] a) b = xtime^[n] (multiply a b) :=
  Function.Semiconj.iterate_right (f := (multiply · b)) (xtime_multiply · b) n a

/-- Multiplication by a power of x is repeated doubling. -/
theorem twoPow_multiply (i : Fin 8) (a : Byte) : multiply (.twoPow 8 i) a = xtime^[i] a := by
  rw [twoPow_eq_iterate_xtime, iterate_xtime_multiply, one_multiply]

theorem multiply_assoc (a b c : Byte) : multiply (multiply a b) c = multiply a (multiply b c) := by
  induction a using byte_xor_induction with
  | xor a a' ha ha' => simp only [xor_multiply, ha, ha']
  | bit i => rw [twoPow_multiply, iterate_xtime_multiply, twoPow_multiply]

/-! ## Inverses -/

@[simp] theorem inverse_zero : inverse 0 = 0 := inverse_eq_table 0

theorem multiply_inverse {a : Byte} (ha : a ≠ 0) : multiply a (inverse a) = 1 := by
  have products : ∀ n < 256, n ≠ 0 → multiplyNat n (inverseTable.getD n 0 % 256) % 256 = 1 := by decide +kernel
  apply BitVec.eq_of_toNat_eq
  rw [multiply_toNat, inverse_eq_table, BitVec.toNat_ofNat]
  exact products a.toNat a.isLt fun h => ha (BitVec.eq_of_toNat_eq h)

theorem inverse_eq_of_multiply_eq_one {a b : Byte} (h : multiply a b = 1) : inverse a = b := by
  have ha : a ≠ 0 := by
    rintro rfl
    rw [multiply_comm, multiply_zero] at h
    exact absurd h (by decide)
  calc inverse a = multiply (inverse a) (multiply a b) := by rw [h, multiply_one]
    _ = multiply b (multiply a (inverse a)) := by rw [← multiply_assoc, multiply_comm (inverse a), multiply_comm]
    _ = b := by rw [multiply_inverse ha, multiply_one]

theorem inverse_involutive : Function.Involutive inverse := by
  intro a
  by_cases ha : a = 0
  · rw [ha, inverse_zero, inverse_zero]
  · exact inverse_eq_of_multiply_eq_one ((multiply_comm _ _).trans (multiply_inverse ha))

/-! ## xtime as a shift -/

theorem xtime_eq_shift_xor (a : Byte) : xtime a = (a <<< 1) ^^^ (if a.getLsbD 7 then 0x1B else 0x00) := by
  have bits : ∀ i : Fin 8, xtime (.twoPow 8 i) =
      (BitVec.twoPow 8 i <<< 1) ^^^ (if (BitVec.twoPow 8 i).getLsbD 7 then 0x1B else 0x00) := by decide +kernel
  induction a using byte_xor_induction with
  | bit i => exact bits i
  | xor a b ha hb =>
    have reduction := toggle_xor (a.getLsbD 7) (b.getLsbD 7) (a <<< 1) (b <<< 1) 0x1B
    rw [xtime_xor, ha, hb, BitVec.shiftLeft_xor_distrib, BitVec.getLsbD_xor]
    simpa [apply_ite] using reduction.symm

/-! ## The statements about field arithmetic -/

/-- Settles O29: the ring laws by additivity from the powers of x; the only inverse of `a ≠ 0` is `inverse a`. -/
theorem multiplyHasTheFieldLaws : Obligations.MultiplyHasTheFieldLaws :=
  ⟨multiply_comm, fun a => ⟨multiply_zero a, multiply_one a⟩, multiply_assoc, multiply_xor,
    fun a ha => ⟨inverse a, multiply_inverse ha, fun _ h => (inverse_eq_of_multiply_eq_one h).symm⟩⟩

/-- Settles O31: `a` is the one inverse of `inverse a`; the listed values are entries of R69's table. -/
theorem inverseIsTheFieldInverse : Obligations.InverseIsTheFieldInverse :=
  ⟨inverse_zero, fun _ => multiply_inverse, inverse_eq_table _, inverse_eq_table _, inverse_eq_table _,
    inverse_eq_table _, inverse_involutive, inverse_involutive.bijective⟩

/-- Settles O30: both sides of the shift equation are additive and agree at the powers of x. -/
theorem xtimeIsShiftAndConditionalXor : Obligations.XtimeIsShiftAndConditionalXor :=
  ⟨fun a => ⟨rfl, xtime_eq_shift_xor a⟩, xtime_eq_shift_xor _, xtime_eq_shift_xor _⟩

end Sys2Proof.Machine
end

section
/-! PROOFS. Each affine transform is a bit matrix and an XOR with 0x63. A bit matrix is additive for XOR, so A and A' undo each
other (41_sbox.md R72, R74) if they do at the eight powers of x. Each S-box composes an affine transform and inverse, so
the S-boxes undo each other too (R75 to R77). -/

namespace Sys2Proof.Machine

/-! ## The affine transforms undo each other -/

/-- The product of a row with a byte is additive in the byte. -/
theorem parity_and_xor (row x y : Byte) :
    parity (row &&& (x ^^^ y)) = (parity (row &&& x) ^^ parity (row &&& y)) := by
  refine List.foldl_hom₂ _ Bool.xor (fun p j => p ^^ (row &&& x).getLsbD j) (fun p j => p ^^ (row &&& y).getLsbD j)
    _ false false fun p q j => ?_
  simp only [BitVec.getLsbD_and, BitVec.getLsbD_xor, Bool.and_xor_distrib_left, Bool.xor_assoc, Bool.xor_left_comm]

/-- Shifting a bit in at the bottom is additive in the byte and the bit together. -/
theorem shiftIn_xor (x y : Byte) (p q : Bool) :
    ((x ^^^ y) <<< 1) ||| (BitVec.ofBool (p ^^ q)).setWidth 8 =
      ((x <<< 1) ||| (BitVec.ofBool p).setWidth 8) ^^^ ((y <<< 1) ||| (BitVec.ofBool q).setWidth 8) := by
  apply BitVec.eq_of_getLsbD_eq
  rintro (_ | i) hi
  · simp
  · simp [hi]

theorem applyRows_xor (rows : List Byte) (x y : Byte) :
    applyRows rows (x ^^^ y) = applyRows rows x ^^^ applyRows rows y := by
  induction rows with
  | nil => exact BitVec.xor_self.symm
  | cons row rows ih =>
    simp only [applyRows, List.foldr_cons] at ih ⊢
    rw [ih, parity_and_xor, shiftIn_xor]

/-- Two bit matrices that undo each other at the eight powers of x do so at every byte. -/
theorem applyRows_leftInverse {rows rows' : List Byte}
    (bits : ∀ i : Fin 8, applyRows rows' (applyRows rows (.twoPow 8 i)) = .twoPow 8 i) :
    Function.LeftInverse (applyRows rows') (applyRows rows) := by
  intro x
  induction x using byte_xor_induction with
  | bit i => exact bits i
  | xor x y hx hy => rw [applyRows_xor, applyRows_xor, hx, hy]

theorem inverseAffine_leftInverse : Function.LeftInverse inverseAffine affine := by
  have rows : Function.LeftInverse (applyRows inverseAffineRows) (applyRows affineRows) :=
    applyRows_leftInverse (by decide +kernel)
  intro x
  rw [inverseAffine, affine, BitVec.xor_assoc, BitVec.xor_self, BitVec.xor_zero, rows]

theorem inverseAffine_rightInverse : Function.RightInverse inverseAffine affine := by
  have rows : Function.LeftInverse (applyRows affineRows) (applyRows inverseAffineRows) :=
    applyRows_leftInverse (by decide +kernel)
  intro x
  rw [affine, inverseAffine, rows, BitVec.xor_assoc, BitVec.xor_self, BitVec.xor_zero]

/-! ## The S-boxes -/

theorem inverseSbox_leftInverse : Function.LeftInverse inverseSbox forwardSbox :=
  inverseAffine_leftInverse.comp inverse_involutive.leftInverse

theorem inverseSbox_rightInverse : Function.RightInverse inverseSbox forwardSbox :=
  inverseAffine_rightInverse.comp inverse_involutive.rightInverse

/-- No entry of R78's table is its own index or the complement of its index. -/
theorem forwardSbox_ne_self_or_complement (x : Byte) : forwardSbox x ≠ x ∧ forwardSbox x ≠ x ^^^ 0xFF := by
  rw [forwardSbox_eq_table]
  revert x
  decide +kernel

/-- Settles O33: the affine transforms undo each other and inverse undoes itself, so the S-boxes, composed of them, undo
each other; the fixed points and the listed values are read off R78's tables. -/
theorem sboxesAreInverseBijections : Obligations.SboxesAreInverseBijections :=
  have left := inverseSbox_leftInverse
  have right := inverseSbox_rightInverse
  ⟨left, right, ⟨left.injective, right.surjective⟩, ⟨right.injective, left.surjective⟩,
    forwardSbox_ne_self_or_complement, forwardSbox_eq_table _, inverseSbox_eq_table _⟩

end Sys2Proof.Machine
end

section
/-! PROOFS. The laws of the state transformations (42_state_transforms.md R89), element by element. MixColumns and
InvMixColumns are one operation, `mixColumn`, with two constant rows: it is additive for any row, and it composes by the
product of the matrices, which for MI and MF is the identity. -/

namespace Sys2Proof.Machine

/-! ## The elements of each transformation -/

@[simp] theorem get_subBytes (s : ByteMatrix) (r c : Fin 4) : (subBytes s).get r c = forwardSbox (s.get r c) :=
  ByteMatrix.get_ofFn _ r c

@[simp] theorem get_invSubBytes (s : ByteMatrix) (r c : Fin 4) : (invSubBytes s).get r c = inverseSbox (s.get r c) :=
  ByteMatrix.get_ofFn _ r c

@[simp] theorem get_shiftRows (s : ByteMatrix) (r c : Fin 4) : (shiftRows s).get r c = s.get r (c + r) :=
  ByteMatrix.get_ofFn _ r c

@[simp] theorem get_invShiftRows (s : ByteMatrix) (r c : Fin 4) : (invShiftRows s).get r c = s.get r (c - r) :=
  ByteMatrix.get_ofFn _ r c

@[simp] theorem get_addRoundKey (s k : ByteMatrix) (r c : Fin 4) : (addRoundKey s k).get r c = s.get r c ^^^ k.get r c :=
  ByteMatrix.get_ofFn _ r c

theorem row_mixColumn (first w : Column) (r : Fin 4) :
    (mixColumn first w).row r =
      multiply (first.row (0 - r)) (w.row 0) ^^^ multiply (first.row (1 - r)) (w.row 1)
        ^^^ multiply (first.row (2 - r)) (w.row 2) ^^^ multiply (first.row (3 - r)) (w.row 3) :=
  Column.row_ofFn _ r

@[simp] theorem get_mixColumns (s : ByteMatrix) (r c : Fin 4) :
    (mixColumns s).get r c = (mixColumn mixRow (s.col c)).row r :=
  ByteMatrix.get_ofFn _ r c

@[simp] theorem get_invMixColumns (s : ByteMatrix) (r c : Fin 4) :
    (invMixColumns s).get r c = (mixColumn invMixRow (s.col c)).row r :=
  ByteMatrix.get_ofFn _ r c

@[simp] theorem col_mixColumns (s : ByteMatrix) (c : Fin 4) : (mixColumns s).col c = mixColumn mixRow (s.col c) :=
  ByteMatrix.col_ofFn _ c

/-! ## Lane-wise maps, lane permutations, and the round key -/

theorem invSubBytes_subBytes (s : ByteMatrix) : invSubBytes (subBytes s) = s :=
  ByteMatrix.ext_get fun r c => by rw [get_invSubBytes, get_subBytes, inverseSbox_leftInverse]

theorem invShiftRows_shiftRows (s : ByteMatrix) : invShiftRows (shiftRows s) = s :=
  ByteMatrix.ext_get fun r c => by rw [get_invShiftRows, get_shiftRows, sub_add_cancel]

theorem addRoundKey_cancel (s k : ByteMatrix) : addRoundKey (addRoundKey s k) k = s :=
  ByteMatrix.ext_get fun r c => by
    rw [get_addRoundKey, get_addRoundKey, BitVec.xor_assoc, BitVec.xor_self, BitVec.xor_zero]

/-- A transformation that maps each lane by `f` commutes with one that moves the lanes of a row by `p`. -/
theorem laneMap_rowPermutation_comm {map permute : ByteMatrix → ByteMatrix} {f : Byte → Byte}
    {p : Fin 4 → Fin 4 → Fin 4}
    (get_map : ∀ s r c, (map s).get r c = f (s.get r c))
    (get_permute : ∀ s r c, (permute s).get r c = s.get r (p r c)) (s : ByteMatrix) :
    map (permute s) = permute (map s) :=
  ByteMatrix.ext_get fun r c => by rw [get_map, get_permute, get_permute, get_map]

/-! ## The column maps -/

/-- `mixColumn` is additive in the column, whatever the constant row, since `multiply` is. -/
theorem row_mixColumn_addRoundKey (first : Column) (s k : ByteMatrix) (r c : Fin 4) :
    (mixColumn first ((addRoundKey s k).col c)).row r =
      (mixColumn first (s.col c)).row r ^^^ (mixColumn first (k.col c)).row r := by
  have element (i : Fin 4) : ((addRoundKey s k).col c).row i = (s.col c).row i ^^^ (k.col c).row i :=
    get_addRoundKey s k i c
  simp only [row_mixColumn, element, multiply_xor]
  ac_rfl

theorem mixColumns_addRoundKey (s k : ByteMatrix) :
    mixColumns (addRoundKey s k) = addRoundKey (mixColumns s) (mixColumns k) :=
  ByteMatrix.ext_get fun r c => by
    rw [get_mixColumns, row_mixColumn_addRoundKey, get_addRoundKey, get_mixColumns, get_mixColumns]

theorem invMixColumns_addRoundKey (s k : ByteMatrix) :
    invMixColumns (addRoundKey s k) = addRoundKey (invMixColumns s) (invMixColumns k) :=
  ByteMatrix.ext_get fun r c => by
    rw [get_invMixColumns, row_mixColumn_addRoundKey, get_addRoundKey, get_invMixColumns, get_invMixColumns]

/-- Element (r, k) of the product of the matrices that `mixColumn a` and `mixColumn b` multiply by. -/
def mixProduct (a b : Column) (r k : Fin 4) : Byte :=
  multiply (a.row (0 - r)) (b.row (k - 0)) ^^^ multiply (a.row (1 - r)) (b.row (k - 1))
    ^^^ multiply (a.row (2 - r)) (b.row (k - 2)) ^^^ multiply (a.row (3 - r)) (b.row (k - 3))

/-- Multiplying by one matrix after the other is multiplying by their product. -/
theorem row_mixColumn_mixColumn (a b w : Column) (r : Fin 4) :
    (mixColumn a (mixColumn b w)).row r =
      multiply (mixProduct a b r 0) (w.row 0) ^^^ multiply (mixProduct a b r 1) (w.row 1)
        ^^^ multiply (mixProduct a b r 2) (w.row 2) ^^^ multiply (mixProduct a b r 3) (w.row 3) := by
  simp only [row_mixColumn, mixProduct, multiply_xor, xor_multiply, multiply_assoc]
  ac_rfl

/-- MI times MF is the identity matrix (R87). -/
theorem mixProduct_invMixRow_mixRow :
    ∀ r k : Fin 4, mixProduct invMixRow mixRow r k = if r = k then 1 else 0 := by decide +kernel

theorem ite_multiply (p : Prop) [Decidable p] (a : Byte) : multiply (if p then 1 else 0) a = if p then a else 0 := by
  split
  · exact one_multiply a
  · rw [multiply_comm, multiply_zero]

theorem row_mixColumn_invMixRow_mixRow (w : Column) (r : Fin 4) :
    (mixColumn invMixRow (mixColumn mixRow w)).row r = w.row r := by
  simp only [row_mixColumn_mixColumn, mixProduct_invMixRow_mixRow, ite_multiply]
  match r with
  | 0 | 1 | 2 | 3 => simp

theorem invMixColumns_mixColumns (s : ByteMatrix) : invMixColumns (mixColumns s) = s :=
  ByteMatrix.ext_get fun r c => by
    rw [get_invMixColumns, col_mixColumns, row_mixColumn_invMixRow_mixRow, ByteMatrix.get]

/-! ## The statement about the state transformations -/

/-- Settles O34: each law holds element by element; for MC and IMC by additivity and by the product of their matrices. -/
theorem transformationsHaveTheInverseLaws : Obligations.TransformationsHaveTheInverseLaws :=
  ⟨fun s k => ⟨invSubBytes_subBytes s, invShiftRows_shiftRows s, invMixColumns_mixColumns s, addRoundKey_cancel s k⟩,
    fun s => ⟨laneMap_rowPermutation_comm get_subBytes get_shiftRows s,
      laneMap_rowPermutation_comm get_subBytes get_invShiftRows s,
      laneMap_rowPermutation_comm get_invSubBytes get_shiftRows s,
      laneMap_rowPermutation_comm get_invSubBytes get_invShiftRows s⟩,
    fun s k => ⟨mixColumns_addRoundKey s k, invMixColumns_addRoundKey s k⟩⟩

end Sys2Proof.Machine
end

section
/-! PROOFS. The key schedule (43_key_schedule.md R97 to R101): the recurrence of the round constant, the rows of the columns
that one round of the schedule computes, and the schedule as a recursion over its rounds. -/

namespace Sys2Proof

@[simp] theorem Column.row_xor (a b : Column) (i : Fin 4) : (a.xor b).row i = a.row i ^^^ b.row i := Column.row_ofFn _ i

namespace Machine

/-! ## The round constant -/

theorem rc_succ {i : Nat} (hi : 1 ≤ i) : rc (i + 1) = xtime (rc i) := by
  obtain ⟨n, rfl⟩ := Nat.exists_eq_add_of_le' hi
  rfl

theorem rc_eq_xtime_pred {i : Nat} (hi : 1 < i) : rc i = xtime (rc (i - 1)) := by
  have previous : 1 ≤ i - 1 := by omega
  rw [← rc_succ previous, Nat.sub_add_cancel hi.le]

/-- Settles O36: the doubling is `xtime`, which is `multiply 2` by definition; the ten values are a finite evaluation. -/
theorem roundConstantsFollowTheRecurrence : Obligations.RoundConstantsFollowTheRecurrence :=
  ⟨rfl, fun _ hi => ⟨rc_eq_xtime_pred hi, rc_eq_xtime_pred hi⟩, by decide +kernel⟩

/-! ## One round of the schedule -/

@[simp] theorem row_rotWord (w : Column) (i : Fin 4) : (rotWord w).row i = w.row (i + 1) := by
  fin_cases i <;> rfl

@[simp] theorem row_subWord (w : Column) (i : Fin 4) : (subWord w).row i = forwardSbox (w.row i) := Column.row_ofFn _ i

/-- The round constant enters the schedule in row 0 only (R100). -/
theorem row_constantWord (b : Byte) (i : Fin 4) : Column.row ⟨b, 0, 0, 0⟩ i = if i = 0 then b else 0 := by
  fin_cases i <;> rfl

theorem get_nextKey_zero (k : ByteMatrix) (r : Nat) (i : Fin 4) :
    (nextKey k r).get i 0 = k.get i 0 ^^^ forwardSbox (k.get (i + 1) 3) ^^^ (if i = 0 then rc r else 0) :=
  calc (nextKey k r).get i 0
    _ = (((k.col 0).xor (subWord (rotWord (k.col 3)))).xor ⟨rc r, 0, 0, 0⟩).row i := rfl
    _ = _ := by rw [Column.row_xor, Column.row_xor, row_subWord, row_rotWord, row_constantWord]; rfl

/-- Every column after the first is the column before it XOR the same column of the previous key (R100). -/
theorem get_nextKey_of_pos (k : ByteMatrix) (r : Nat) (i : Fin 4) {c : Fin 4} (hc : c ≠ 0) :
    (nextKey k r).get i c = (nextKey k r).get i (c - 1) ^^^ k.get i c :=
  match c with
  | 1 | 2 | 3 => Column.row_xor _ _ i

/-! ## The schedule -/

theorem getElem_expand (key : ByteMatrix) (r : Nat) (h : r < 11) : (expand key)[r] = expandRound key r :=
  Vector.getElem_ofFn h

/-- Settles O37: a round column by column, each byte from the rows of the words it XORs; round r + 1 of the schedule is the
recursion's next step. -/
theorem scheduleFollowsTheRecursion : Obligations.ScheduleFollowsTheRecursion := by
  refine ⟨fun k r i _ _ => ?_, fun key => ⟨getElem_expand key 0 _, fun r h => ?_⟩⟩
  · have first := get_nextKey_zero k r i
    have second : (nextKey k r).get i 1 = (nextKey k r).get i 0 ^^^ k.get i 1 := get_nextKey_of_pos k r i (by decide)
    have third : (nextKey k r).get i 2 = (nextKey k r).get i 1 ^^^ k.get i 2 := get_nextKey_of_pos k r i (by decide)
    have fourth : (nextKey k r).get i 3 = (nextKey k r).get i 2 ^^^ k.get i 3 := get_nextKey_of_pos k r i (by decide)
    rw [fourth, third, second, first]
    exact ⟨rfl, rfl, rfl, rfl⟩
  · rw [getElem_expand, getElem_expand, expandRound]

end Machine

end Sys2Proof
end

section
/-! PROOFS. Decryption undoes encryption and the other way round (44_cipher_fsm.md R107). Under SR(SB(·)) each round of
decryption undoes the round of encryption with the same round key, so that the rounds cancel from the last one back to the
first. The other order needs no argument about rounds, since there are finitely many matrices. -/

namespace Sys2Proof

/-- There are finitely many matrices, so a left inverse of a map of matrices is a right inverse too. -/
theorem ByteMatrix.rightInverse_of_leftInverse {f g : ByteMatrix → ByteMatrix} (h : Function.LeftInverse f g) :
    Function.RightInverse f g := by
  have elements : Function.Injective ByteMatrix.get := fun _ _ e => ByteMatrix.ext_get fun r c => congrFun₂ e r c
  have finite : Finite ByteMatrix := .of_injective _ elements
  exact h.rightInverse_of_surjective (Finite.surjective_of_injective h.injective)

namespace Machine

/-! ## One round against its inverse -/

theorem encRound_ten (k s : ByteMatrix) : encRound 10 k s = addRoundKey (shiftRows (subBytes s)) k := rfl

theorem encRound_of_ne {r : Nat} (hr : r ≠ 10) (k s : ByteMatrix) :
    encRound r k s = addRoundKey (mixColumns (shiftRows (subBytes s))) k := by
  rw [encRound, if_neg hr]

theorem decRound_zero (k s : ByteMatrix) : decRound 0 k s = addRoundKey (invShiftRows (invSubBytes s)) k := rfl

theorem decRound_of_ne {r : Nat} (hr : r ≠ 0) (k s : ByteMatrix) :
    decRound r k s = invMixColumns (addRoundKey (invShiftRows (invSubBytes s)) k) := by
  rw [decRound, if_neg hr]

/-- The order in which decryption undoes the two does not matter, since byte substitution commutes with row shifts. -/
theorem invShiftRows_invSubBytes_shiftRows_subBytes (s : ByteMatrix) :
    invShiftRows (invSubBytes (shiftRows (subBytes s))) = s := by
  rw [laneMap_rowPermutation_comm get_invSubBytes get_shiftRows, invShiftRows_shiftRows, invSubBytes_subBytes]

theorem decRound_encRound {r : Nat} (h0 : r ≠ 0) (h10 : r ≠ 10) (k s : ByteMatrix) :
    decRound r k (shiftRows (subBytes (encRound r k s))) = shiftRows (subBytes s) := by
  rw [decRound_of_ne h0, invShiftRows_invSubBytes_shiftRows_subBytes, encRound_of_ne h10, addRoundKey_cancel,
    invMixColumns_mixColumns]

/-! ## All the rounds -/

/-- Rounds of encryption with the round keys of Expand(key), in the order of the list (R105). -/
def encRounds (key : ByteMatrix) (rounds : List Nat) (s : ByteMatrix) : ByteMatrix :=
  rounds.foldl (fun s r => encRound r (expandRound key r) s) s

/-- Rounds of decryption with the round keys of Expand(key), from the end of the list to its front (R106). -/
def decRounds (key : ByteMatrix) (rounds : List Nat) (s : ByteMatrix) : ByteMatrix :=
  rounds.foldr (fun r s => decRound r (expandRound key r) s) s

/-- The rounds that have MixColumns or InvMixColumns in them (R105, R106). -/
def mixingRounds : List Nat := [1, 2, 3, 4, 5, 6, 7, 8, 9]

theorem encryptBlock_eq (m key : ByteMatrix) : encryptBlock m key =
    encRound 10 (expandRound key 10) (encRounds key mixingRounds (addRoundKey m (expandRound key 0))) := rfl

theorem decryptBlock_eq (c key : ByteMatrix) : decryptBlock c key =
    decRound 0 (expandRound key 0) (decRounds key mixingRounds (addRoundKey c (expandRound key 10))) := rfl

theorem decRounds_encRounds (key : ByteMatrix) {rounds : List Nat} (h : ∀ r ∈ rounds, r ≠ 0 ∧ r ≠ 10) (s : ByteMatrix) :
    decRounds key rounds (shiftRows (subBytes (encRounds key rounds s))) = shiftRows (subBytes s) := by
  induction rounds generalizing s with
  | nil => rfl
  | cons r rounds ih =>
    obtain ⟨⟨h0, h10⟩, hrounds⟩ := List.forall_mem_cons.mp h
    calc decRounds key (r :: rounds) (shiftRows (subBytes (encRounds key (r :: rounds) s)))
      _ = decRound r (expandRound key r) (decRounds key rounds
            (shiftRows (subBytes (encRounds key rounds (encRound r (expandRound key r) s))))) := rfl
      _ = shiftRows (subBytes s) := by rw [ih hrounds, decRound_encRound h0 h10]

theorem decryptBlock_leftInverse (key : ByteMatrix) : Function.LeftInverse (decryptBlock · key) (encryptBlock · key) := by
  intro m
  change decryptBlock (encryptBlock m key) key = m
  rw [encryptBlock_eq, encRound_ten, decryptBlock_eq, addRoundKey_cancel, decRounds_encRounds key (by decide), decRound_zero,
    invShiftRows_invSubBytes_shiftRows_subBytes, addRoundKey_cancel]

/-- Settles O38: each round of decryption undoes one of encryption; the other order by finiteness. -/
theorem decryptionInvertsEncryption : Obligations.DecryptionInvertsEncryption := fun m k =>
  ⟨decryptBlock_leftInverse k m, ByteMatrix.rightInverse_of_leftInverse (decryptBlock_leftInverse k) m⟩

end Machine

end Sys2Proof
end

section
/-! PROOFS. What each transition of ENCRYPT and DECRYPT makes of the state, given that it happens: acceptance and the step at
each FSM state (43_key_schedule.md R104; 44_cipher_fsm.md R108 to R119). The laws under Laws/ read the transitions
backwards, from an outcome to its case; these read them forwards, each update written out field by field. -/

namespace Sys2Proof.Machine

variable {s : State}

/-! ## The shared updates, written out -/

theorem accept_eq (op : Byte) (p : Phase) (r : BitVec 4) : accept op p r s =
    { s with status := { s.status with busy := true, done := false, op := op, phase := p, round := r } } := rfl

theorem gotoFsm_eq (p : Phase) (r : BitVec 4) :
    gotoFsm p r s = { s with status := { s.status with phase := p, round := r } } := rfl

theorem complete_eq : complete s =
    { s with status := { s.status with busy := false, done := true, phase := .idle, round := 0 } } := rfl

theorem setRk_eq {r : Nat} (h : r < 11) (m : ByteMatrix) : s.setRk r m = { s with rk := s.rk.set r m } := by
  have inBounds : s.rk.setIfInBounds r m = s.rk.set r m := by
    ext j hj
    rw [Vector.getElem_setIfInBounds, Vector.getElem_set]
  rw [State.setRk, inBounds]

theorem startExpansion_eq (op : Byte) : startExpansion op s = { s with
    rk := s.rk.set 0 s.key
    status := { s.status with busy := true, done := false, op := op, phase := .keyExp, round := 1 } } := by
  rw [startExpansion, setRk_eq (by decide), accept_eq]

theorem roundKey?_of_toNat_eq {x : BitVec 4} {r : Nat} (hr : r < 11) (h : x.toNat = r) : roundKey? s x = some s.rk[r] := by
  subst h
  exact roundKey?_of_lt hr

/-! ## The KEYEXP steps (R104) -/

theorem keyExpStep_of_lt_ten {r : Nat} (h1 : 1 ≤ r) (h10 : r < 10) (hp : s.status.phase = .keyExp)
    (hr : s.status.round.toNat = r) : keyExpStep s = .next { s with
      rk := s.rk.set r (nextKey s.rk[r - 1] r)
      status := { s.status with round := s.status.round + 1 } } := by
  have previous : (s.status.round - 1).toNat = r - 1 := by bv_omega
  have range : ¬(r < 1 ∨ 10 < r) := by omega
  simp only [keyExpStep, roundKey?_of_toNat_eq (by omega) previous, hr, if_neg range, if_pos h10,
    setRk_eq (Nat.lt_succ_of_lt h10), gotoFsm_eq, ← hp]

theorem keyExpStep_ten (hr : s.status.round = 10) :
    keyExpStep s = finishExpansion { s with rk := s.rk.set 10 (nextKey s.rk[9] 10) } := by
  have previous : roundKey? s (s.status.round - 1) = some s.rk[9] := roundKey?_of_toNat_eq (by decide) (by rw [hr]; rfl)
  have round : s.status.round.toNat = 10 := by rw [hr]; rfl
  rw [← setRk_eq (by decide)]
  simp only [keyExpStep, previous, round]
  rfl

theorem finishExpansion_encrypt (op : s.status.op = 0x30) :
    finishExpansion s = .next { s with status := { s.status with ksValid := true, phase := .enc, round := 0 } } := by
  rw [finishExpansion, op]
  rfl

theorem finishExpansion_decrypt (op : s.status.op = 0x31) :
    finishExpansion s = .next { s with status := { s.status with ksValid := true, phase := .dec, round := 10 } } := by
  rw [finishExpansion, op]
  rfl

/-! ## The ENC steps (R112 to R114) -/

theorem encStep_zero (hp : s.status.phase = .enc) (hr : s.status.round = 0) : encStep s = .next { s with
    state := addRoundKey s.state s.rk[0]
    status := { s.status with round := 1 } } := by
  have round : s.status.round.toNat = 0 := by rw [hr]; rfl
  simp only [encStep, roundKey?_of_toNat_eq (by decide) round, round, if_true, gotoFsm_eq, State.setState, ← hp]

theorem encStep_middle {r : Nat} (h1 : 1 ≤ r) (h9 : r ≤ 9) (hp : s.status.phase = .enc) (hr : s.status.round.toNat = r) :
    encStep s = .next { s with
      state := addRoundKey (mixColumns (shiftRows (subBytes s.state))) s.rk[r]
      status := { s.status with round := s.status.round + 1 } } := by
  have first : r ≠ 0 := by omega
  have last : r < 10 := by omega
  simp only [encStep, roundKey?_of_toNat_eq (by omega) hr, hr, if_neg first, if_pos last, gotoFsm_eq, State.setState,
    encRound_of_ne last.ne, ← hp]

theorem encStep_ten (hr : s.status.round = 10) : encStep s = .next { s with
    state := addRoundKey (shiftRows (subBytes s.state)) s.rk[10]
    status := { s.status with busy := false, done := true, phase := .idle, round := 0 } } := by
  have round : s.status.round.toNat = 10 := by rw [hr]; rfl
  simp only [encStep, roundKey?_of_toNat_eq (by decide) round, round, OfNat.ofNat_ne_zero, lt_irrefl, if_false,
    complete_eq, State.setState, encRound_ten]

/-! ## The DEC steps (R115 to R117) -/

theorem decStep_ten (hp : s.status.phase = .dec) (hr : s.status.round = 10) : decStep s = .next { s with
    state := addRoundKey s.state s.rk[10]
    status := { s.status with round := 9 } } := by
  have round : s.status.round.toNat = 10 := by rw [hr]; rfl
  simp only [decStep, roundKey?_of_toNat_eq (by decide) round, round, if_true, gotoFsm_eq, State.setState, ← hp]

theorem decStep_middle {r : Nat} (h1 : 1 ≤ r) (h9 : r ≤ 9) (hp : s.status.phase = .dec) (hr : s.status.round.toNat = r) :
    decStep s = .next { s with
      state := invMixColumns (addRoundKey (invShiftRows (invSubBytes s.state)) s.rk[r])
      status := { s.status with round := s.status.round - 1 } } := by
  have first : r ≠ 10 := by omega
  have last : 0 < r := by omega
  simp only [decStep, roundKey?_of_toNat_eq (by omega) hr, hr, if_neg first, if_pos last, gotoFsm_eq, State.setState,
    decRound_of_ne last.ne', ← hp]

theorem decStep_zero (hr : s.status.round = 0) : decStep s = .next { s with
    state := addRoundKey (invShiftRows (invSubBytes s.state)) s.rk[0]
    status := { s.status with busy := false, done := true, phase := .idle, round := 0 } } := by
  have round : s.status.round.toNat = 0 := by rw [hr]; rfl
  simp only [decStep, roundKey?_of_toNat_eq (by decide) round, round, OfNat.zero_ne_ofNat, lt_irrefl, if_false,
    complete_eq, State.setState, decRound_zero]

/-! ## Which transition a command makes -/

theorem exec_encrypt_keyed (idle : s.status.busy = false) (ks : s.status.ksValid = true) :
    exec .encrypt s = .next (accept 0x30 .enc 0 s) := by
  simp [exec_encrypt, execEncrypt, idle, ks]

theorem exec_encrypt_unkeyed (idle : s.status.busy = false) (ks : s.status.ksValid = false) :
    exec .encrypt s = .next (startExpansion 0x30 s) := by
  simp [exec_encrypt, execEncrypt, idle, ks]

theorem exec_encrypt_keyExp (busy : s.status.busy = true) (hp : s.status.phase = .keyExp) :
    exec .encrypt s = keyExpStep s := by
  simp [exec_encrypt, execEncrypt, busy, hp]

theorem exec_encrypt_enc (busy : s.status.busy = true) (hp : s.status.phase = .enc) : exec .encrypt s = encStep s := by
  simp [exec_encrypt, execEncrypt, busy, hp]

theorem exec_decrypt_keyed (idle : s.status.busy = false) (ks : s.status.ksValid = true) :
    exec .decrypt s = .next (accept 0x31 .dec 10 s) := by
  simp [exec_decrypt, execDecrypt, idle, ks]

theorem exec_decrypt_unkeyed (idle : s.status.busy = false) (ks : s.status.ksValid = false) :
    exec .decrypt s = .next (startExpansion 0x31 s) := by
  simp [exec_decrypt, execDecrypt, idle, ks]

theorem exec_decrypt_keyExp (busy : s.status.busy = true) (hp : s.status.phase = .keyExp) :
    exec .decrypt s = keyExpStep s := by
  simp [exec_decrypt, execDecrypt, busy, hp]

theorem exec_decrypt_dec (busy : s.status.busy = true) (hp : s.status.phase = .dec) : exec .decrypt s = decStep s := by
  simp [exec_decrypt, execDecrypt, busy, hp]

/-! ## The statements -/

/-- Settles O44, one lemma per transition of the FSM. -/
theorem encryptCompletes : Obligations.EncryptCompletes := by
  intro s
  refine ⟨fun idle ks => ?_, fun idle ks => ?_, fun busy hp => ?_, fun busy hp => ?_⟩
  · rw [exec_encrypt_keyed idle ks, accept_eq]
  · rw [exec_encrypt_unkeyed idle ks, startExpansion_eq]
  · rw [exec_encrypt_keyExp busy hp]
    refine ⟨fun r h1 h10 hr => keyExpStep_of_lt_ten h1 h10 hp hr, fun hr op => ?_⟩
    exact (keyExpStep_ten hr).trans (finishExpansion_encrypt op)
  · rw [exec_encrypt_enc busy hp]
    exact ⟨encStep_zero hp, fun r h1 h9 hr => encStep_middle h1 h9 hp hr, encStep_ten⟩

/-- Settles O45, one lemma per transition of the FSM. -/
theorem decryptCompletes : Obligations.DecryptCompletes := by
  intro s
  refine ⟨fun idle ks => ?_, fun idle ks => ?_, fun busy hp => ?_, fun busy hp => ?_⟩
  · rw [exec_decrypt_keyed idle ks, accept_eq]
  · rw [exec_decrypt_unkeyed idle ks, startExpansion_eq]
  · rw [exec_decrypt_keyExp busy hp]
    refine ⟨fun r h1 h10 hr => keyExpStep_of_lt_ten h1 h10 hp hr, fun hr op => ?_⟩
    exact (keyExpStep_ten hr).trans (finishExpansion_decrypt op)
  · rw [exec_decrypt_dec busy hp]
    exact ⟨decStep_ten hp, fun r h1 h9 hr => decStep_middle h1 h9 hp hr, decStep_zero⟩

end Sys2Proof.Machine
end

section
/-! PROOFS. What a CMD write performed while BUSY = 0 does with every word (44_cipher_fsm.md R108): an illegal word raises
ERR_ILLEGAL (60_exceptions.md R124), and a legal one is the acceptance of its command, or ERR_NOKEY (R125). -/

namespace Sys2Proof.Machine

variable {s : State} {v : Word32}

/-! ## The acceptance of each kind of command -/

theorem exec_addRoundKey_keyed {r : BitVec 4} (wf : WellFormed (.addRoundKey r)) (idle : s.status.busy = false)
    (ks : s.status.ksValid = true) : exec (.addRoundKey r) s = .next (accept 0x16 .exec r s) := by
  simp [exec_addRoundKey, execAddRoundKey, idle, ks, (wellFormed_addRoundKey.mp wf).not_gt]

theorem exec_addRoundKey_unkeyed {r : BitVec 4} (wf : WellFormed (.addRoundKey r)) (idle : s.status.busy = false)
    (ks : s.status.ksValid = false) : exec (.addRoundKey r) s = .next (raise .nokey s) := by
  simp [exec_addRoundKey, execAddRoundKey, idle, ks, (wellFormed_addRoundKey.mp wf).not_gt]

theorem exec_keyExpand_idle (idle : s.status.busy = false) :
    exec .keyExpand s = .next (startExpansion 0x20 (setKsValid false s)) := by
  simp [exec_keyExpand, execKeyExpand, idle]

/-- The commands of one engine step that need no schedule are all accepted to (EXEC, 0). -/
theorem exec_idle_of_singleStep {i : Instr} (single : opcodeOf i ∉ ([0x16, 0x20, 0x30, 0x31] : List Byte))
    (idle : s.status.busy = false) : exec i s = .next (accept (opcodeOf i) .exec 0 s) := by
  cases i with
  | addRoundKey | keyExpand | encrypt | decrypt => simp [opcodeOf] at single
  | _ =>
    simp only [exec_gfmul, exec_gfinv, exec_sbox, exec_invSbox, exec_subBytes, exec_invSubBytes, exec_shiftRows,
      exec_invShiftRows, exec_mixColumns, exec_invMixColumns, singleStep_idle idle, opcodeOf]

/-! ## The CMD write -/

theorem writeCmd_idle (idle : s.status.busy = false) : writeCmd v s = acceptWord v s := by simp [writeCmd, idle]

theorem acceptWord_ok {i : Instr} (h : decodeWord v = .ok i) : acceptWord v s = exec i s := by rw [acceptWord, h]

theorem acceptWord_illegal (h : legal v = false) : acceptWord v s = .next (raise .illegal s) := by
  have undecoded : ¬ ∃ i, decodeWord v = .ok i := by simp [← legal_iff_decodes, h]
  cases hd : decodeWord v with
  | ok i => exact absurd ⟨i, hd⟩ undecoded
  | error e => rw [acceptWord, hd]

/-- What a decoded command tells of its word (R55, R57). -/
theorem fields_of_decodeWord {i : Instr} (h : decodeWord v = .ok i) :
    opcodeField v = opcodeOf i ∧ ridxField v = ridxOf i ∧ WellFormed i := by
  obtain ⟨-, map, ridx, wf⟩ := decodeWord_ok.mp h
  exact ⟨(opcodeMap_some.mp map).1.symm, ridx, wf⟩

/-- Settles O39: an illegal word by `acceptWord_illegal`, a legal one by the acceptance of the command it decodes to. -/
theorem cmdWriteAcceptsOrRejectsEveryWord : Obligations.CmdWriteAcceptsOrRejectsEveryWord := by
  intro s ms v hl hr idle hs op ridx u goes
  have write : step s = acceptWord v u := by
    rw [step_write hl hr hs rfl, memWrite_cmd]
    exact writeCmd_idle idle
  rw [write]
  by_cases illegal : legal v = false
  · rw [acceptWord_illegal illegal, if_pos illegal]
    rfl
  obtain ⟨i, decoded⟩ := legal_iff_decodes.mp (Bool.not_eq_false _ ▸ illegal)
  obtain ⟨opcode, index, wf⟩ := fields_of_decodeWord decoded
  have hop : op = opcodeOf i := opcode
  have hridx : ridx = ridxOf i := index
  rw [acceptWord_ok decoded, if_neg illegal]
  clear_value op ridx
  subst hop hridx
  cases i with
  | addRoundKey r =>
    cases ks : s.status.ksValid with
    | true => exact exec_addRoundKey_keyed (s := u) wf idle ks
    | false => exact exec_addRoundKey_unkeyed (s := u) wf idle ks
  | keyExpand =>
    rw [exec_keyExpand_idle (s := u) idle, startExpansion_eq]
    rfl
  | encrypt =>
    cases ks : s.status.ksValid with
    | true => exact exec_encrypt_keyed (s := u) idle ks
    | false => rw [exec_encrypt_unkeyed (s := u) idle ks, startExpansion_eq]; rfl
  | decrypt =>
    cases ks : s.status.ksValid with
    | true => exact exec_decrypt_keyed (s := u) idle ks
    | false => rw [exec_decrypt_unkeyed (s := u) idle ks, startExpansion_eq]; rfl
  | _ => exact exec_idle_of_singleStep (s := u) (by decide) idle

end Sys2Proof.Machine
end

section
/-! PROOFS. Which error a host transaction sets (60_exceptions.md R129), as an exact condition for each flag, and the interrupt
line as a function of the STATUS bits and IRQEN (R128). -/

namespace Sys2Proof.Machine

variable {s t : State} {ms : List Move} {off : BitVec 12} {size : AccessSize} {v : Word32} {f : ErrorFlag}

/-! ## Host transactions, given that the step happens -/

/-- A step that is a host transaction comes from a legal FSM state, with the reset line released. -/
theorem legal_and_released_of_step_host {tr : Transaction} (h : step s = .next t) (hs : s.schedule = .host tr :: ms) :
    s.status.fsmLegal = true ∧ s.rst = false := by
  obtain ⟨legal, origin⟩ := step_next h
  simp only [hs, reduceCtorEq, List.cons.injEq, false_and, exists_false, false_or, or_false] at origin
  obtain ⟨-, -, -, released, -⟩ := origin
  exact ⟨legal, released⟩

theorem step_read_status (h : step s = .next t) (hs : s.schedule = .host (.read off size) :: ms) : t.status = s.status := by
  obtain ⟨hl, hr⟩ := legal_and_released_of_step_host h hs
  rw [step_host hl hr hs] at h
  rcases transact_next h with ⟨-, rfl⟩ | ⟨off, -, -, rfl⟩ | ⟨_, _, write, -⟩
  · rfl
  · exact (hostRead_same off (s.setSchedule ms)).status
  · cases write

theorem step_unperformed_write (h : step s = .next t) (hs : s.schedule = .host (.write off size v) :: ms)
    (unperformed : ¬ (size = .bytes4 ∧ off.toNat % 4 = 0)) : t.bus = .error 0 ∧ t.status = s.status := by
  obtain ⟨hl, hr⟩ := legal_and_released_of_step_host h hs
  rw [step_unperformed hl hr hs (Bool.eq_false_iff.mpr (mt performed_write.mp unperformed))] at h
  cases h
  exact ⟨rfl, rfl⟩

theorem memWrite_of_step (h : step s = .next t) (hs : s.schedule = .host (.write off .bytes4 v) :: ms)
    (ha : off.toNat % 4 = 0) : memWrite off v ((s.setSchedule ms).setBus .written) = .next t := by
  obtain ⟨hl, hr⟩ := legal_and_released_of_step_host h hs
  rwa [step_write hl hr hs ha] at h

/-! ## The exact condition for a flag -/

/-! `Sets` and `Clears` for a 32-bit write: conditions on its offset and its word. -/

theorem sets_busywr_iff (hs : s.schedule = .host (.write off .bytes4 v) :: ms) : Sets s .busywr ↔
    s.status.busy = true ∧ (off = 0x004 ∨ off = 0x010 ∨ off = 0x014 ∨ (0x020 ≤ off.toNat ∧ off.toNat < 0x040)) := by
  simp [Sets, hs]

theorem sets_illegal_iff (hs : s.schedule = .host (.write off .bytes4 v) :: ms) : Sets s .illegal ↔
    s.status.busy = false ∧ off = 0x004 ∧ legal v = false := by
  simp [Sets, hs]

theorem sets_nokey_iff (hs : s.schedule = .host (.write off .bytes4 v) :: ms) : Sets s .nokey ↔
    s.status.busy = false ∧ off = 0x004 ∧ legal v = true ∧ v.extractLsb' 0 8 = 0x16 ∧ s.status.ksValid = false := by
  simp only [Sets, hs, List.cons.injEq, Move.host.injEq, Transaction.write.injEq]
  constructor
  · rintro ⟨idle, ks, _, _, ⟨⟨rfl, -, rfl⟩, -⟩, legalWord, op⟩
    exact ⟨idle, rfl, legalWord, op, ks⟩
  · rintro ⟨idle, rfl, legalWord, op, ks⟩
    exact ⟨idle, ks, ms, v, ⟨⟨rfl, trivial, rfl⟩, rfl⟩, legalWord, op⟩

theorem clears_iff (hs : s.schedule = .host (.write off .bytes4 v) :: ms) : Clears s f ↔
    off = 0x008 ∧ v.getLsbD f.bit = true := by
  simp [Clears, hs]

/-- Operand offsets that are aligned are those of CMD, GF_A, GF_B, STATE and KEY. -/
theorem operand_words (ha : off.toNat % 4 = 0)
    (h : off = 0x004 ∨ off = 0x010 ∨ off = 0x014 ∨ (0x020 ≤ off.toNat ∧ off.toNat < 0x040)) :
    off = 0x004 ∨ off = 0x010 ∨ off = 0x014 ∨
      ∃ c : Fin 4, off.toNat = 0x020 + 4 * c.val ∨ off.toNat = 0x030 + 4 * c.val := by
  refine h.imp_right <| .imp_right <| .imp_right fun ⟨lo, hi⟩ => ⟨⟨(off.toNat / 4) % 4, by omega⟩, ?_⟩
  simp only
  omega

theorem acceptWord_nokey (legalWord : legal v = true) (op : opcodeField v = 0x16) (idle : s.status.busy = false)
    (ks : s.status.ksValid = false) : acceptWord v s = .next (raise .nokey s) := by
  obtain ⟨i, decoded⟩ := legal_iff_decodes.mp legalWord
  obtain ⟨opcode, -, wf⟩ := fields_of_decodeWord decoded
  obtain ⟨r, rfl⟩ := opcodeOf_eq_16.mp (opcode.symm.trans op)
  rw [acceptWord_ok decoded, exec_addRoundKey_unkeyed wf idle ks]

/-- A performed write that meets the condition of a flag raises that flag. -/
theorem memWrite_of_sets {u : State} (hs : s.schedule = .host (.write off .bytes4 v) :: ms) (same : u.status = s.status)
    (ha : off.toNat % 4 = 0) (sets : Sets s f) : memWrite off v u = .next (raise f u) := by
  cases f with
  | busywr =>
    obtain ⟨busy, operand⟩ := (sets_busywr_iff hs).mp sets
    exact memWrite_busy (same ▸ busy) (operand_words ha operand)
  | illegal =>
    obtain ⟨idle, rfl, illegal⟩ := (sets_illegal_iff hs).mp sets
    rw [memWrite_cmd, writeCmd_idle (same ▸ idle), acceptWord_illegal illegal]
  | nokey =>
    obtain ⟨idle, rfl, legalWord, op, ks⟩ := (sets_nokey_iff hs).mp sets
    rw [memWrite_cmd, writeCmd_idle (same ▸ idle), acceptWord_nokey legalWord op (same ▸ idle) (same ▸ ks)]

/-- A write elsewhere than to STATUS leaves 1 in the flags that were 1 and in those whose condition it meets. -/
theorem step_write_flag (h : step s = .next t) (hs : s.schedule = .host (.write off size v) :: ms) (ho : off ≠ 0x008) :
    t.status.flag f = true ↔ s.status.flag f = true ∨ (size = .bytes4 ∧ off.toNat % 4 = 0) ∧ Sets s f := by
  by_cases performed : size = .bytes4 ∧ off.toNat % 4 = 0
  case neg => simp [performed, (step_unperformed_write h hs performed).2]
  obtain ⟨rfl, ha⟩ := performed
  constructor
  · intro set
    by_cases old : s.status.flag f = true
    · exact .inl old
    · exact .inr ⟨⟨rfl, ha⟩, step_sets_flag h (Bool.not_eq_true _ ▸ old) set⟩
  · rintro (old | ⟨-, sets⟩)
    · by_contra clear
      exact ho ((clears_iff hs).mp (step_clears_flag h old (Bool.not_eq_true _ ▸ clear))).1
    · have raised := (memWrite_of_step h hs ha).symm.trans (memWrite_of_sets hs rfl ha sets)
      cases raised
      simp

/-- A STATUS write, of any size, sets no flag. -/
theorem step_write_status_flag (h : step s = .next t) (hs : s.schedule = .host (.write 0x008 size v) :: ms)
    (set : t.status.flag f = true) : s.status.flag f = true := by
  by_contra clear
  have sets : Sets s f := step_sets_flag h (Bool.not_eq_true _ ▸ clear) set
  cases f <;> simp [Sets, hs] at sets

/-- Settles O24: `step_write_flag` for each flag, with its condition written out. -/
theorem oneTransactionSetsAtMostOneError : Obligations.OneTransactionSetsAtMostOneError := by
  intro s t ms off size v h
  refine ⟨step_read_status h, fun hs => ?_⟩
  refine ⟨step_unperformed_write h hs, fun ho => ⟨?_, ?_, ?_⟩, ?_⟩
  · exact (step_write_flag (f := .busywr) h hs ho).trans
      (or_congr_right (and_congr_right fun ⟨h4, _⟩ => sets_busywr_iff (h4 ▸ hs)))
  · exact (step_write_flag (f := .illegal) h hs ho).trans
      (or_congr_right (and_congr_right fun ⟨h4, _⟩ => sets_illegal_iff (h4 ▸ hs)))
  · exact (step_write_flag (f := .nokey) h hs ho).trans
      (or_congr_right (and_congr_right fun ⟨h4, _⟩ => sets_nokey_iff (h4 ▸ hs)))
  · rintro rfl
    exact ⟨step_write_status_flag (f := .busywr) h hs, step_write_status_flag (f := .illegal) h hs,
      step_write_status_flag (f := .nokey) h hs⟩

/-! ## The interrupt line -/

/-- The STATUS bits of the interrupt sources (R22). -/
theorem Status.word_done (st : Status) : st.word.getLsbD 1 = st.done := by
  simp only [Status.word, BitVec.getLsbD_append]
  simp

theorem Status.word_flag (st : Status) (f : ErrorFlag) : st.word.getLsbD f.bit = st.flag f := by
  cases f <;> simp only [Status.word, BitVec.getLsbD_append, ErrorFlag.bit, Status.flag] <;> simp

theorem irq_iff_word : s.irq = true ↔
    (s.status.word.getLsbD 1 = true ∧ s.irqen.getLsbD 0 = true) ∨
      ((s.status.word.getLsbD 3 = true ∨ s.status.word.getLsbD 4 = true ∨ s.status.word.getLsbD 5 = true) ∧
        s.irqen.getLsbD 1 = true) := by
  have illegal : s.status.word.getLsbD 3 = s.status.errIllegal := s.status.word_flag .illegal
  have nokey : s.status.word.getLsbD 4 = s.status.errNokey := s.status.word_flag .nokey
  have busywr : s.status.word.getLsbD 5 = s.status.errBusywr := s.status.word_flag .busywr
  simp only [Status.word_done, illegal, nokey, busywr, State.irq, Status.errPending, Bool.or_eq_true, Bool.and_eq_true,
    or_assoc]

theorem irq_eq_false_of_word (h : ∀ b ∈ [1, 3, 4, 5], s.status.word.getLsbD b = false) : s.irq = false := by
  have off : ∀ b ∈ [1, 3, 4, 5], s.status.word.getLsbD b ≠ true := fun b hb => Bool.eq_false_iff.mp (h b hb)
  refine Bool.eq_false_iff.mpr fun irq => ?_
  obtain ⟨done, -⟩ | ⟨illegal | nokey | busywr, -⟩ := irq_iff_word.mp irq
  · exact off 1 (by decide) done
  · exact off 3 (by decide) illegal
  · exact off 4 (by decide) nokey
  · exact off 5 (by decide) busywr

theorem Status.word_w1c_flag (st : Status) (hv : v.getLsbD f.bit = true) : (st.w1c v).word.getLsbD f.bit = false := by
  rw [Status.word_flag, Status.w1c_flag, hv, Bool.not_true, Bool.and_false]

/-- A 1 in a source's bit clears that bit (R43). -/
theorem Status.word_w1c (st : Status) {b : Nat} (hb : b ∈ [1, 3, 4, 5]) (hv : v.getLsbD b = true) :
    (st.w1c v).word.getLsbD b = false := by
  simp only [List.mem_cons, List.not_mem_nil, or_false] at hb
  obtain rfl | rfl | rfl | rfl := hb
  · rw [Status.word_done, Status.w1c_done, hv, Bool.not_true, Bool.and_false]
  · exact st.word_w1c_flag (f := .illegal) hv
  · exact st.word_w1c_flag (f := .nokey) hv
  · exact st.word_w1c_flag (f := .busywr) hv

theorem exec_accepts_done {i : Instr} (h : exec i s = .next t) (idle : s.status.busy = false)
    (busy : t.status.busy = true) : t.status.done = false := by
  cases exec_commandStep h with
  | badIndex | noKey => simp [idle] at busy
  | accepted | expansion => simp [startExpansion]
  | completed u hb | cipherRound u p r hb | expansionRound k hb | expanded k hb | expandedCipher k p r hb =>
    simp [idle] at hb

/-- BUSY rises by acceptance only, and acceptance clears DONE (R108). -/
theorem step_accepts_done (h : step s = .next t) (idle : s.status.busy = false) (busy : t.status.busy = true) :
    t.status.done = false := by
  cases step_effect h with
  | command i u _ same run => exact exec_accepts_done run (same.status ▸ idle) busy
  | unchanged _ same => simp [same.status, idle] at busy
  | reset => rfl
  | dropped u same | illegalWord u same | acknowledge u same | keyWord u same =>
    simp [writeKeyWord, same.status, idle] at busy

/-- Settles O25: the STATUS word holds the flags that `irq` looks at, a STATUS write is the W1C, and BUSY rises by acceptance
only. -/
theorem irqIsEnabledDoneOrEnabledError : Obligations.IrqIsEnabledDoneOrEnabledError := by
  refine ⟨fun _ => irq_iff_word, fun s ms v hl hr hs => ?_, fun _ _ h => step_accepts_done h⟩
  refine ⟨_, (step_write hl hr hs rfl).trans memWrite_status, fun b hb hv => ?_, fun all => ?_⟩
  · exact s.status.word_w1c hb hv
  · exact irq_eq_false_of_word fun b hb => s.status.word_w1c hb (all b hb)

end Sys2Proof.Machine
end

section
/-! PROOFS. The reset state (10_state.md section 7 and R142): zero matrices, the interrupt line while both sources are masked,
and why eleven zero round keys are no key schedule. -/

namespace Sys2Proof

@[simp] theorem ByteMatrix.get_zero (r c : Fin 4) : ByteMatrix.zero.get r c = 0 :=
  ByteMatrix.get_ofFn (fun _ _ => 0) r c

namespace Machine

/-- With both sources masked `irq` is low, whatever STATUS says (R128). -/
theorem irq_eq_false_of_masked {s : State} (masked : s.irqen = 0) : s.irq = false := by
  simp [State.irq, masked]

theorem getElem_reset_rk {k : Nat} (h : k < 11) : State.reset.rk[k] = ByteMatrix.zero :=
  Vector.getElem_replicate h

/-- Round 1 of the all-zero KEY's schedule is not zero: below row 0 the first column is SubWord of zero bytes, and the S-box
has no fixed point (R77, R100). -/
theorem expandRound_zero_one_ne_zero : expandRound ByteMatrix.zero 1 ≠ ByteMatrix.zero := by
  intro h
  have element : (nextKey ByteMatrix.zero 1).get 1 0 = forwardSbox 0 := by simp [get_nextKey_zero]
  have fixed : forwardSbox 0 = 0 :=
    calc forwardSbox 0
      _ = (expandRound ByteMatrix.zero 1).get 1 0 := element.symm
      _ = 0 := by rw [h, ByteMatrix.get_zero]
  exact (forwardSbox_ne_self_or_complement 0).1 fixed

theorem reset_rk_ne_expand_key : State.reset.rk ≠ expand State.reset.key := by
  intro schedule
  have round : State.reset.rk[1] = (expand State.reset.key)[1] := by rw [schedule]
  rw [getElem_reset_rk, getElem_expand] at round
  exact expandRound_zero_one_ne_zero round.symm

/-- Settles O5: each register's value by definition, matrix by matrix its elements, and `irq` because both sources are masked;
RK is no schedule of KEY already at round 1. -/
theorem resetLeavesTheListedValues : Obligations.ResetLeavesTheListedValues := by
  have rkZero (k : Nat) (h : k < 11) (r c : Fin 4) : State.reset.rk[k].get r c = 0 := by
    rw [getElem_reset_rk, ByteMatrix.get_zero]
  exact ⟨rfl, rfl, rfl, ByteMatrix.get_zero, ByteMatrix.get_zero, rkZero, rfl, rfl, rfl, rfl, rfl, irq_eq_false_of_masked rfl,
    reset_rk_ne_expand_key⟩

end Machine

end Sys2Proof
end

section
/-! PROOFS. Decoding and encoding undo each other, one statement per direction (30_encoding.md R55 to R60). -/

namespace Sys2Proof

/-- Settles O1: the word of a well-formed command decodes to the one command that has this word. -/
theorem decodeOfEncodeIsTheCommand : Obligations.DecodeOfEncodeIsTheCommand :=
  fun _ wf => decodeWord_ok_iff_encode.mpr ⟨wf, rfl⟩

/-- Settles O2, the other direction of the same equivalence. -/
theorem decodedWordIsTheCommandsWord : Obligations.DecodedWordIsTheCommandsWord :=
  fun _ _ decoded => decodeWord_ok_iff_encode.mp decoded

/-- Settles O4: each listed word is the word of its command; an illegal one has no command, by evaluation. -/
theorem listedWordsDecodeAsListed : Obligations.ListedWordsDecodeAsListed := by
  have word (i : Instr) (wf : WellFormed i) : decodeWord (encode i) = .ok i := decodeOfEncodeIsTheCommand i wf
  exact ⟨word .gfmul rfl, word .invSbox rfl, word .subBytes rfl, word .invMixColumns rfl, word (.addRoundKey 0) rfl,
    word (.addRoundKey 10) rfl, word .keyExpand rfl, word .encrypt rfl, word .decrypt rfl,
    ⟨_, rfl⟩, ⟨_, rfl⟩, ⟨_, rfl⟩, ⟨_, rfl⟩⟩

end Sys2Proof
end


section
/-! PROOFS. The kinds of command, so that a proof about every command has six cases: the single-step commands on bytes and on
STATE, ADDROUNDKEY, KEYEXPAND, ENCRYPT and DECRYPT. With it, what the single-step commands do and leave unchanged
(40_field_arithmetic.md section 2, 41_sbox.md section 3, 42_state_transforms.md sections 2 and 3). -/

namespace Sys2Proof.Machine

variable {s t : State} {i : Instr} {op : Byte}

/-- The command writes GF_RESULT in one engine step, as `f` of GF_A and GF_B says. -/
def ByteCommand (i : Instr) (op : Byte) (f : Byte → Byte → Byte) : Prop :=
  ∀ s, exec i s = singleStep op (fun s => s.setGfResult (f s.gfA s.gfB)) s

/-- The command transforms STATE in one engine step, as `f` says. -/
def StateCommand (i : Instr) (op : Byte) (f : ByteMatrix → ByteMatrix) : Prop :=
  ∀ s, exec i s = singleStep op (fun s => s.setState (f s.state)) s

inductive CommandKind : Instr → Prop
  | byte {i : Instr} (f : Byte → Byte → Byte) (code : opcodeOf i ∈ ([0x01, 0x02, 0x03, 0x04] : List Byte))
      (run : ByteCommand i (opcodeOf i) f) : CommandKind i
  | state {i : Instr} (f : ByteMatrix → ByteMatrix)
      (code : opcodeOf i ∈ ([0x10, 0x11, 0x12, 0x13, 0x14, 0x15] : List Byte))
      (run : StateCommand i (opcodeOf i) f) : CommandKind i
  | addRoundKey (r : BitVec 4) : CommandKind (.addRoundKey r)
  | keyExpand : CommandKind .keyExpand
  | encrypt : CommandKind .encrypt
  | decrypt : CommandKind .decrypt

theorem commandKind (i : Instr) : CommandKind i := by
  cases i with
  | gfmul => exact .byte _ (by decide) fun _ => exec_gfmul
  | gfinv => exact .byte (fun a _ => inverse a) (by decide) fun _ => exec_gfinv
  | sbox => exact .byte (fun a _ => forwardSbox a) (by decide) fun _ => exec_sbox
  | invSbox => exact .byte (fun a _ => inverseSbox a) (by decide) fun _ => exec_invSbox
  | subBytes => exact .state _ (by decide) fun _ => exec_subBytes
  | invSubBytes => exact .state _ (by decide) fun _ => exec_invSubBytes
  | shiftRows => exact .state _ (by decide) fun _ => exec_shiftRows
  | invShiftRows => exact .state _ (by decide) fun _ => exec_invShiftRows
  | mixColumns => exact .state _ (by decide) fun _ => exec_mixColumns
  | invMixColumns => exact .state _ (by decide) fun _ => exec_invMixColumns
  | addRoundKey r => exact .addRoundKey r
  | keyExpand => exact .keyExpand
  | encrypt => exact .encrypt
  | decrypt => exact .decrypt

/-! ## The byte commands -/

theorem ByteCommand.accepts {f : Byte → Byte → Byte} (run : ByteCommand i op f) (idle : s.status.busy = false) :
    exec i s = .next (accept op .exec 0 s) := (run s).trans (singleStep_idle idle)

theorem ByteCommand.completes {f : Byte → Byte → Byte} (run : ByteCommand i op f) (busy : s.status.busy = true)
    (phase : s.status.phase = .exec) : exec i s = .next (complete (s.setGfResult (f s.gfA s.gfB))) :=
  (run s).trans (singleStep_exec busy phase)

/-- Settles O40: acceptance and the EXEC step are those of `singleStep`. -/
theorem byteCommandsComplete : Obligations.ByteCommandsComplete := by
  intro i op result listed
  simp only [List.mem_cons, Prod.mk.injEq, List.not_mem_nil, or_false] at listed
  suffices run : ByteCommand i op result from fun s => ⟨run.accepts, run.completes⟩
  obtain ⟨rfl, rfl, rfl⟩ | ⟨rfl, rfl, rfl⟩ | ⟨rfl, rfl, rfl⟩ | ⟨rfl, rfl, rfl⟩ := listed
  · exact fun _ => exec_gfmul
  · exact fun _ => exec_gfinv
  · exact fun _ => exec_sbox
  · exact fun _ => exec_invSbox

/-- Settles O51: a byte command is accepted, or completes with GF_RESULT written. -/
theorem byteCommandsFrame : Obligations.ByteCommandsFrame := by
  intro i s t listed h
  cases commandKind i with
  | byte f _ run =>
    rw [run] at h
    obtain ⟨idle, rfl⟩ | ⟨busy, -, rfl⟩ := singleStep_next h
    · exact ⟨rfl, rfl, rfl, rfl, rfl, fun _ => rfl, fun busy => by simp [idle] at busy⟩
    · exact ⟨rfl, rfl, rfl, rfl, rfl, fun idle => by simp [busy] at idle, fun _ => rfl⟩
  | state f code => simp at listed; obtain rfl | rfl | rfl | rfl := listed <;> simp [opcodeOf] at code
  | addRoundKey | keyExpand | encrypt | decrypt => simp at listed

/-! ## The state commands -/

theorem StateCommand.accepts {f : ByteMatrix → ByteMatrix} (run : StateCommand i op f) (idle : s.status.busy = false) :
    exec i s = .next (accept op .exec 0 s) := (run s).trans (singleStep_idle idle)

theorem StateCommand.completes {f : ByteMatrix → ByteMatrix} (run : StateCommand i op f) (busy : s.status.busy = true)
    (phase : s.status.phase = .exec) : exec i s = .next (complete (s.setState (f s.state))) :=
  (run s).trans (singleStep_exec busy phase)

/-- Settles O41: acceptance and the EXEC step are those of `singleStep`. -/
theorem stateCommandsComplete : Obligations.StateCommandsComplete := by
  intro i op transform listed
  simp only [List.mem_cons, Prod.mk.injEq, List.not_mem_nil, or_false] at listed
  suffices run : StateCommand i op transform from fun s => ⟨run.accepts, run.completes⟩
  obtain ⟨rfl, rfl, rfl⟩ | ⟨rfl, rfl, rfl⟩ | ⟨rfl, rfl, rfl⟩ | ⟨rfl, rfl, rfl⟩ | ⟨rfl, rfl, rfl⟩ | ⟨rfl, rfl, rfl⟩ := listed
  · exact fun _ => exec_subBytes
  · exact fun _ => exec_invSubBytes
  · exact fun _ => exec_shiftRows
  · exact fun _ => exec_invShiftRows
  · exact fun _ => exec_mixColumns
  · exact fun _ => exec_invMixColumns

theorem exec_addRoundKey_badIndex {r : BitVec 4} (idle : s.status.busy = false) (index : 10 < r.toNat) :
    exec (.addRoundKey r) s = .next (raise .illegal s) := by
  simp [exec_addRoundKey, execAddRoundKey, idle, index]

theorem exec_addRoundKey_exec {r : BitVec 4} (busy : s.status.busy = true) (phase : s.status.phase = .exec)
    (h : s.status.round.toNat < 11) : exec (.addRoundKey r) s =
      .next (complete (s.setState (addRoundKey s.state s.rk[s.status.round.toNat]))) := by
  simp only [exec_addRoundKey, execAddRoundKey, busy, phase, roundKey?_of_lt h, if_true]

/-- Settles O42, one lemma per case of acceptance and one for the EXEC step. -/
theorem addRoundKeyCompletes : Obligations.AddRoundKeyCompletes := by
  intro r s
  refine ⟨fun idle index => ?_, exec_addRoundKey_badIndex, exec_addRoundKey_exec⟩
  have wf : WellFormed (.addRoundKey r) := wellFormed_addRoundKey.mpr index
  exact ⟨exec_addRoundKey_keyed wf idle, exec_addRoundKey_unkeyed wf idle⟩

/-- Settles O52: a state command is accepted, or completes with STATE written; ADDROUNDKEY may also be refused with a flag. -/
theorem stateCommandsFrame : Obligations.StateCommandsFrame := by
  intro i s t listed h
  cases commandKind i with
  | byte f code =>
    simp at listed
    obtain (rfl | rfl | rfl | rfl | rfl | rfl) | ⟨r, rfl⟩ := listed <;> simp [opcodeOf] at code
  | state f _ run =>
    rw [run] at h
    obtain ⟨idle, rfl⟩ | ⟨busy, -, rfl⟩ := singleStep_next h
    · exact ⟨rfl, rfl, rfl, fun _ => ⟨rfl, rfl⟩, fun _ => rfl, fun busy => by simp [idle] at busy⟩
    · exact ⟨rfl, rfl, rfl, fun _ => ⟨rfl, rfl⟩, fun idle => by simp [busy] at idle, fun _ => ⟨rfl, rfl, rfl⟩⟩
  | addRoundKey r =>
    have other {P : Prop} (ne : ∀ r', Instr.addRoundKey r ≠ .addRoundKey r') : P := absurd rfl (ne r)
    obtain ⟨busy, -, k, -, rfl⟩ | ⟨idle, -, rfl⟩ | ⟨idle, -, -, rfl⟩ | ⟨idle, -, -, rfl⟩ := execAddRoundKey_next h
    · exact ⟨rfl, rfl, rfl, other, fun idle => by simp [busy] at idle, fun _ => ⟨rfl, rfl, rfl⟩⟩
    all_goals exact ⟨rfl, rfl, rfl, other, fun _ => rfl, fun busy => by simp [idle] at busy⟩
  | keyExpand | encrypt | decrypt => simp at listed

end Sys2Proof.Machine
end

section
/-! PROOFS. No control transition depends on data (44_cipher_fsm.md R109), as a relation between two states that every
operation keeps: what stops the one stops the other, and next states are related again. -/

namespace Sys2Proof.Machine

variable {s u : State}

/-- The two states agree on what controls a step: STATUS, IRQEN, the reset line and the moves still to come. -/
structure SameControl (s u : State) : Prop where
  status : s.status = u.status
  irqen : s.irqen = u.irqen
  rst : s.rst = u.rst
  schedule : s.schedule = u.schedule

/-- The two outcomes stop alike, or answer states that agree on control. -/
inductive Alike : Host.Outcome State Fault Refusal → Host.Outcome State Fault Refusal → Prop
  | next {t w : State} (same : SameControl t w) : Alike (.next t) (.next w)
  | fault (f : Fault) : Alike (.fault f) (.fault f)
  | refused (r : Refusal) : Alike (.refused r) (.refused r)

/-! ## Updates -/

theorem SameControl.setStatus (h : SameControl s u) {st st' : Status} (e : st = st') :
    SameControl (s.setStatus st) (u.setStatus st') := ⟨e, h.irqen, h.rst, h.schedule⟩

theorem SameControl.setState (h : SameControl s u) (m m' : ByteMatrix) : SameControl (s.setState m) (u.setState m') :=
  ⟨h.status, h.irqen, h.rst, h.schedule⟩

theorem SameControl.setKey (h : SameControl s u) (m m' : ByteMatrix) : SameControl (s.setKey m) (u.setKey m') :=
  ⟨h.status, h.irqen, h.rst, h.schedule⟩

theorem SameControl.setGfResult (h : SameControl s u) (v v' : Byte) :
    SameControl (s.setGfResult v) (u.setGfResult v') := ⟨h.status, h.irqen, h.rst, h.schedule⟩

theorem SameControl.setRk (h : SameControl s u) (r : Nat) (m m' : ByteMatrix) :
    SameControl (s.setRk r m) (u.setRk r m') := ⟨h.status, h.irqen, h.rst, h.schedule⟩

theorem SameControl.setBus (h : SameControl s u) (b b' : BusResponse) : SameControl (s.setBus b) (u.setBus b') :=
  ⟨h.status, h.irqen, h.rst, h.schedule⟩

theorem SameControl.setSchedule (h : SameControl s u) (ms : List Move) :
    SameControl (s.setSchedule ms) (u.setSchedule ms) := ⟨h.status, h.irqen, h.rst, rfl⟩

theorem SameControl.setRst (h : SameControl s u) (b : Bool) : SameControl (s.setRst b) (u.setRst b) :=
  ⟨h.status, h.irqen, rfl, h.schedule⟩

theorem SameControl.raise (h : SameControl s u) (e : ErrorFlag) : SameControl (raise e s) (raise e u) :=
  h.setStatus (congrArg (Status.raise e) h.status)

theorem SameControl.accept (h : SameControl s u) (op : Byte) (p : Phase) (r : BitVec 4) :
    SameControl (accept op p r s) (accept op p r u) := h.setStatus (congrArg (Status.accepted op p r) h.status)

theorem SameControl.goto (h : SameControl s u) (p : Phase) (r : BitVec 4) :
    SameControl (gotoFsm p r s) (gotoFsm p r u) := h.setStatus (congrArg (Status.goto p r) h.status)

theorem SameControl.complete (h : SameControl s u) : SameControl (complete s) (complete u) :=
  h.setStatus (congrArg Status.completed h.status)

theorem SameControl.setKsValid (h : SameControl s u) (b : Bool) : SameControl (setKsValid b s) (setKsValid b u) :=
  h.setStatus (congrArg (Status.withKsValid b) h.status)

theorem SameControl.startExpansion (h : SameControl s u) (op : Byte) :
    SameControl (startExpansion op s) (startExpansion op u) := (h.setRk 0 _ _).accept op _ _

/-! ## Commands -/

/-- An index names a round key or not, whatever the round keys are. -/
theorem roundKey?_alike (s u : State) (x : BitVec 4) :
    (∃ k k', roundKey? s x = some k ∧ roundKey? u x = some k') ∨ (roundKey? s x = none ∧ roundKey? u x = none) := by
  by_cases hx : x.toNat < 11
  · exact .inl ⟨_, _, roundKey?_of_lt hx, roundKey?_of_lt hx⟩
  · exact .inr ⟨by simp [roundKey?]; omega, by simp [roundKey?]; omega⟩

theorem singleStep_alike (h : SameControl s u) (op : Byte) {f g : State → State} (effect : SameControl (f s) (g u)) :
    Alike (singleStep op f s) (singleStep op g u) := by
  unfold singleStep
  rw [← h.status]
  split
  · split
    · exact .next effect.complete
    · exact .fault _
  · exact .next (h.accept op _ _)

theorem execAddRoundKey_alike (h : SameControl s u) (r : BitVec 4) :
    Alike (execAddRoundKey r s) (execAddRoundKey r u) := by
  unfold execAddRoundKey
  rw [← h.status]
  split
  · split
    · obtain ⟨k, k', hs, hu⟩ | ⟨hs, hu⟩ := roundKey?_alike s u s.status.round <;> rw [hs, hu]
      · exact .next (h.setState _ _).complete
      · exact .fault _
    · exact .fault _
  · split
    · exact .next (h.raise _)
    · split
      · exact .next (h.accept _ _ _)
      · exact .next (h.raise _)

theorem finishExpansion_alike (h : SameControl s u) : Alike (finishExpansion s) (finishExpansion u) := by
  unfold finishExpansion
  rw [← h.status]
  split
  · exact .next (h.setKsValid true).complete
  · exact .next ((h.setKsValid true).goto _ _)
  · exact .next ((h.setKsValid true).goto _ _)
  · exact .fault _

theorem keyExpStep_alike (h : SameControl s u) : Alike (keyExpStep s) (keyExpStep u) := by
  unfold keyExpStep
  rw [← h.status]
  obtain ⟨k, k', hs, hu⟩ | ⟨hs, hu⟩ := roundKey?_alike s u (s.status.round - 1) <;> simp only [hs, hu]
  · split
    · exact .fault _
    · split
      · exact .next ((h.setRk _ _ _).goto _ _)
      · exact finishExpansion_alike (h.setRk _ _ _)
  · exact .fault _

theorem encStep_alike (h : SameControl s u) : Alike (encStep s) (encStep u) := by
  unfold encStep
  rw [← h.status]
  obtain ⟨k, k', hs, hu⟩ | ⟨hs, hu⟩ := roundKey?_alike s u s.status.round <;> simp only [hs, hu]
  · split
    · exact .next ((h.setState _ _).goto _ _)
    · split
      · exact .next ((h.setState _ _).goto _ _)
      · exact .next (h.setState _ _).complete
  · exact .fault _

theorem decStep_alike (h : SameControl s u) : Alike (decStep s) (decStep u) := by
  unfold decStep
  rw [← h.status]
  obtain ⟨k, k', hs, hu⟩ | ⟨hs, hu⟩ := roundKey?_alike s u s.status.round <;> simp only [hs, hu]
  · split
    · exact .next ((h.setState _ _).goto _ _)
    · split
      · exact .next ((h.setState _ _).goto _ _)
      · exact .next (h.setState _ _).complete
  · exact .fault _

theorem execKeyExpand_alike (h : SameControl s u) : Alike (execKeyExpand s) (execKeyExpand u) := by
  unfold execKeyExpand
  rw [← h.status]
  split
  · split
    · exact keyExpStep_alike h
    · exact .fault _
  · exact .next ((h.setKsValid false).startExpansion _)

theorem execEncrypt_alike (h : SameControl s u) : Alike (execEncrypt s) (execEncrypt u) := by
  unfold execEncrypt
  rw [← h.status]
  split
  · split
    · exact keyExpStep_alike h
    · exact encStep_alike h
    · exact .fault _
  · split
    · exact .next (h.accept _ _ _)
    · exact .next (h.startExpansion _)

theorem execDecrypt_alike (h : SameControl s u) : Alike (execDecrypt s) (execDecrypt u) := by
  unfold execDecrypt
  rw [← h.status]
  split
  · split
    · exact keyExpStep_alike h
    · exact decStep_alike h
    · exact .fault _
  · split
    · exact .next (h.accept _ _ _)
    · exact .next (h.startExpansion _)

theorem exec_alike (h : SameControl s u) (i : Instr) : Alike (exec i s) (exec i u) := by
  cases commandKind i with
  | byte f _ run =>
    rw [run, run]
    exact singleStep_alike h _ (h.setGfResult _ _)
  | state f _ run =>
    rw [run, run]
    exact singleStep_alike h _ (h.setState _ _)
  | addRoundKey r => exact execAddRoundKey_alike h r
  | keyExpand => exact execKeyExpand_alike h
  | encrypt => exact execEncrypt_alike h
  | decrypt => exact execDecrypt_alike h

/-! ## The moves -/

theorem engineTurn_alike (h : SameControl s u) : Alike (engineTurn s) (engineTurn u) := by
  unfold engineTurn engineStep
  rw [← h.status, ← h.rst]
  split
  · split
    · exact exec_alike h _
    · exact .fault _
  · exact .next h

theorem writeOperand_alike (h : SameControl s u) {f g : State → State}
    (update : s.status.busy = false → SameControl (f s) (g u)) : SameControl (writeOperand f s) (writeOperand g u) := by
  unfold writeOperand
  rw [← h.status]
  split
  next => exact h.raise _
  next idle => exact update (Bool.not_eq_true _ ▸ idle)

theorem writeCmd_alike (h : SameControl s u) (v : Word32) : Alike (writeCmd v s) (writeCmd v u) := by
  unfold writeCmd acceptWord
  rw [← h.status]
  split
  · exact .next (h.raise _)
  · split
    · exact exec_alike h _
    · exact .next (h.raise _)

theorem memWrite_alike (h : SameControl s u) (off : BitVec 12) (v : Word32) :
    Alike (memWrite off v s) (memWrite off v u) := by
  unfold memWrite
  split
  · exact writeCmd_alike h v
  · exact .next (h.setStatus (congrArg (Status.w1c v) h.status))
  · exact .next ⟨h.status, rfl, h.rst, h.schedule⟩
  · exact .next (writeOperand_alike h fun _ => ⟨h.status, h.irqen, h.rst, h.schedule⟩)
  · exact .next (writeOperand_alike h fun _ => ⟨h.status, h.irqen, h.rst, h.schedule⟩)
  · exact .next (writeOperand_alike h fun _ => h.setState _ _)
  · exact .next (writeOperand_alike h fun _ => (h.setKey _ _).setKsValid false)
  all_goals exact .next h

theorem hostRead_alike (h : SameControl s u) (off : BitVec 12) : SameControl (hostRead off s) (hostRead off u) := by
  have read (s : State) : SameControl (hostRead off s) s := by
    obtain e | ⟨-, e⟩ := memRead_state off s <;> rw [hostRead, e] <;> exact ⟨rfl, rfl, rfl, rfl⟩
  have hs := read s
  have hu := read u
  exact ⟨hs.status.trans (h.status.trans hu.status.symm), hs.irqen.trans (h.irqen.trans hu.irqen.symm),
    hs.rst.trans (h.rst.trans hu.rst.symm), hs.schedule.trans (h.schedule.trans hu.schedule.symm)⟩

theorem transact_alike (h : SameControl s u) (tr : Transaction) : Alike (transact tr s) (transact tr u) := by
  unfold transact
  split
  · cases tr with
    | read off size => exact .next (hostRead_alike h off)
    | write off size v => exact memWrite_alike (h.setBus _ _) off v
  · exact .next (h.setBus _ _)

theorem step_alike (h : SameControl s u) : Alike (step s) (step u) := by
  unfold step advance hostTurn
  rw [← h.status, ← h.schedule]
  split
  · split
    · exact engineTurn_alike h
    · exact engineTurn_alike (h.setSchedule _)
    · simp only [State.setSchedule_rst, ← h.rst]
      split
      · exact .refused _
      · exact transact_alike (h.setSchedule _) _
    · exact .next ⟨rfl, rfl, rfl, rfl⟩
    · exact .next ((h.setSchedule _).setRst false)
  · exact .fault _

/-- `irq` is a function of STATUS and IRQEN (R128). -/
theorem SameControl.irq (h : SameControl s u) : s.irq = u.irq := by
  rw [State.irq, State.irq, h.status, h.irqen]

/-- Settles O56: the relation is kept by each operation that a step is made of. -/
theorem controlDoesNotDependOnData : Obligations.ControlDoesNotDependOnData := by
  intro s u status irqen rst schedule
  generalize ho : step s = o
  generalize hp : step u = p
  have alike : Alike o p := ho ▸ hp ▸ step_alike ⟨status, irqen, rst, schedule⟩
  cases alike with
  | next same => exact ⟨_, rfl, same.status, same.irqen, same.rst, same.schedule, same.irq⟩
  | fault | refused => rfl

end Sys2Proof.Machine
end

section
/-! PROOFS. KEYEXPAND, transition by transition (43_key_schedule.md R103, R104), and what KEYEXPAND, ENCRYPT and DECRYPT leave
unchanged: a step of key expansion writes one round key, a step of ENC or DEC writes STATE. -/

namespace Sys2Proof.Machine

variable {s t : State}

/-! ## KEYEXPAND -/

theorem exec_keyExpand_keyExp (busy : s.status.busy = true) (hp : s.status.phase = .keyExp) :
    exec .keyExpand s = keyExpStep s := by
  simp [exec_keyExpand, execKeyExpand, busy, hp]

theorem finishExpansion_keyExpand (op : s.status.op = 0x20) : finishExpansion s = .next { s with
    status := { s.status with ksValid := true, busy := false, done := true, phase := .idle, round := 0 } } := by
  rw [finishExpansion, op]
  rfl

/-- Settles O43, one lemma per transition of the FSM. -/
theorem keyExpandCompletes : Obligations.KeyExpandCompletes := by
  intro s
  refine ⟨fun idle => ?_, fun busy hp => ?_⟩
  · rw [exec_keyExpand_idle idle, startExpansion_eq]
    rfl
  · rw [exec_keyExpand_keyExp busy hp]
    refine ⟨fun r h1 h10 hr => keyExpStep_of_lt_ten h1 h10 hp hr, fun hr op => ?_⟩
    exact (keyExpStep_ten hr).trans (finishExpansion_keyExpand op)

/-! ## One round key written -/

/-- `t` differs from `s` in STATUS, but not in its error flags, and in round key `n`, at most. -/
structure WritesRoundKey (n : Nat) (s t : State) : Prop where
  frame : t = { s with rk := t.rk, status := t.status }
  flag : ∀ f, t.status.flag f = s.status.flag f
  others : ∀ (j : Nat) (h : j < 11), j ≠ n → t.rk[j] = s.rk[j]

theorem writesRoundKey_setRk (n : Nat) (m : ByteMatrix) {st : Status} (flag : ∀ f, st.flag f = s.status.flag f) :
    WritesRoundKey n s ((s.setRk n m).setStatus st) where
  frame := rfl
  flag := flag
  others j h ne := (setRk_getElem n j m s h).trans (if_neg ne.symm)

theorem writesRoundKey_startExpansion (op : Byte) (s : State) : WritesRoundKey 0 s (startExpansion op s) :=
  writesRoundKey_setRk 0 _ fun _ => Status.accepted_flag ..

theorem writesRoundKey_keyExpStep (h : keyExpStep s = .next t) : WritesRoundKey s.status.round.toNat s t := by
  obtain ⟨k, -, -, ⟨-, rfl⟩ | ⟨last, h⟩⟩ := keyExpStep_next h
  · exact writesRoundKey_setRk _ _ (by simp)
  · have round : s.status.round.toNat = 10 := by rw [last]; rfl
    rw [round]
    obtain ⟨-, rfl⟩ | ⟨-, rfl⟩ | ⟨-, rfl⟩ := finishExpansion_next h
    · exact writesRoundKey_setRk (st := (s.status.withKsValid true).completed) 10 _ (by simp)
    · exact writesRoundKey_setRk (st := (s.status.withKsValid true).goto .enc 0) 10 _ (by simp)
    · exact writesRoundKey_setRk (st := (s.status.withKsValid true).goto .dec 10) 10 _ (by simp)

theorem WritesRoundKey.state {n : Nat} (h : WritesRoundKey n s t) : t.state = s.state := by
  rw [h.frame]

/-- Settles O53: acceptance writes RK[0], a KEYEXP step the round key that ROUND names. -/
theorem keyExpandFrame : Obligations.KeyExpandFrame := by
  intro s t h
  have writes : WritesRoundKey (if s.status.busy then s.status.round.toNat else 0) s t := by
    obtain ⟨busy, -, h⟩ | ⟨idle, rfl⟩ := execKeyExpand_next h
    · rw [if_pos busy]
      exact writesRoundKey_keyExpStep h
    · rw [if_neg (by simp [idle])]
      exact writesRoundKey_setRk (st := (s.status.withKsValid false).accepted 0x20 .keyExp 1) 0 _ (by simp)
  exact ⟨writes.frame, writes.flag .illegal, writes.flag .nokey, writes.flag .busywr, writes.others⟩

/-! ## ENCRYPT and DECRYPT -/

/-- The transitions that ENCRYPT and DECRYPT share: key expansion, a round that writes STATE, and the two acceptances. -/
theorem exec_cipher_next {i : Instr} (cipher : i = .encrypt ∨ i = .decrypt) (h : exec i s = .next t) :
    (s.status.busy = true ∧ s.status.phase = .keyExp ∧ keyExpStep s = .next t) ∨
      (s.status.busy = true ∧ (s.status.phase = .enc ∨ s.status.phase = .dec) ∧ ∃ m st,
        t = (s.setState m).setStatus st ∧ st.ksValid = s.status.ksValid ∧ ∀ f, st.flag f = s.status.flag f) ∨
      (s.status.busy = false ∧ ∃ st, t = s.setStatus st ∧ ∀ f, st.flag f = s.status.flag f) ∨
      (s.status.busy = false ∧ s.status.ksValid = false ∧ t = startExpansion (opcodeOf i) s) := by
  obtain rfl | rfl := cipher
  · obtain expansion | ⟨busy, phase, h⟩ | ⟨idle, -, rfl⟩ | ⟨idle, ks, rfl⟩ := execEncrypt_next h
    · exact .inl expansion
    · refine .inr (.inl ⟨busy, .inl phase, ?_⟩)
      obtain ⟨k, -, ⟨-, rfl⟩ | ⟨-, -, rfl⟩ | ⟨-, rfl⟩⟩ := encStep_next h <;> exact ⟨_, _, rfl, by simp, by simp⟩
    · exact .inr (.inr (.inl ⟨idle, _, rfl, by simp⟩))
    · exact .inr (.inr (.inr ⟨idle, ks, rfl⟩))
  · obtain expansion | ⟨busy, phase, h⟩ | ⟨idle, -, rfl⟩ | ⟨idle, ks, rfl⟩ := execDecrypt_next h
    · exact .inl expansion
    · refine .inr (.inl ⟨busy, .inr phase, ?_⟩)
      obtain ⟨k, -, ⟨-, rfl⟩ | ⟨-, -, rfl⟩ | ⟨-, rfl⟩⟩ := decStep_next h <;> exact ⟨_, _, rfl, by simp, by simp⟩
    · exact .inr (.inr (.inl ⟨idle, _, rfl, by simp⟩))
    · exact .inr (.inr (.inr ⟨idle, ks, rfl⟩))

/-- Settles O54: of the shared transitions only those of key expansion write RK, and only a round of ENC or DEC writes
STATE. -/
theorem cipherCommandsFrame : Obligations.CipherCommandsFrame := by
  intro i s t cipher h
  have written {n : Nat} (w : WritesRoundKey n s t) : t = { s with state := t.state, rk := t.rk, status := t.status } := by
    rw [w.state]
    exact w.frame
  obtain ⟨busy, phase, h⟩ | ⟨busy, phase, m, st, rfl, ks, flag⟩ | ⟨idle, st, rfl, flag⟩ | ⟨idle, -, rfl⟩ :=
    exec_cipher_next cipher h
  · have w := writesRoundKey_keyExpStep h
    rw [if_pos busy]
    exact ⟨written w, w.flag .illegal, w.flag .nokey, w.flag .busywr, w.others, by simp [phase], fun _ => w.state⟩
  · refine ⟨rfl, flag .illegal, flag .nokey, flag .busywr, fun _ _ _ => rfl, fun _ _ => ⟨rfl, ks⟩, ?_⟩
    obtain phase | phase := phase <;> simp [busy, phase]
  · exact ⟨rfl, flag .illegal, flag .nokey, flag .busywr, fun _ _ _ => rfl, by simp [idle], fun _ => rfl⟩
  · have w := writesRoundKey_startExpansion (opcodeOf i) s
    rw [if_neg (by simp [idle])]
    exact ⟨written w, w.flag .illegal, w.flag .nokey, w.flag .busywr, w.others, by simp [idle], fun _ => w.state⟩

end Sys2Proof.Machine
end

section
/-! PROOFS. The moves of the engine, the host and the reset line as steps (log 1, log 5), and the next STATUS of a command from
STATUS alone: `EngineMove` for an engine step (44_cipher_fsm.md R109 to R117) and `presented` for a CMD write (R108). -/

namespace Sys2Proof.Machine

variable {s t : State} {ms : List Move} {i : Instr}

/-! ## Moves as steps -/

/-- Settles O27: the CMD write of a word that decodes, while BUSY = 0. -/
theorem cmdWriteRunsTheDecodedCommand : Obligations.CmdWriteRunsTheDecodedCommand := by
  intro s ms v i hl hr idle decoded hs
  rw [step_write hl hr hs rfl, memWrite_cmd]
  exact (writeCmd_idle (s := (s.setSchedule ms).setBus .written) idle).trans (acceptWord_ok decoded)

theorem engineStep_eq_exec (code : opcodeOf i = s.status.op) (index : s.status.op = 0x16 → ridxOf i = s.status.round) :
    engineStep s = exec i s := by
  rw [engineStep, commandInProgress, opcodeMap_some.mpr ⟨code, index⟩]

theorem engineTurn_idle (idle : s.status.busy = false) : engineTurn s = .next s := by simp [engineTurn, idle]

theorem engineTurn_underReset (hr : s.rst = true) : engineTurn s = .next s := by simp [engineTurn, hr]

/-- Settles O28: while BUSY = 1 the opcode map names the command (`engineStep_eq_exec`); while BUSY = 0 there is none. -/
theorem engineMoveRunsTheCommandInProgress : Obligations.EngineMoveRunsTheCommandInProgress := by
  refine ⟨fun s i hl hr busy code index => ⟨fun hs => ?_, fun ms hs => ?_⟩, fun s hl _ idle => ⟨fun hs => ?_, fun ms hs => ?_⟩⟩
  · rw [step_quiet hl hs, engineTurn_busy busy hr, engineStep_eq_exec code index]
  · rw [step_engine hl hs]
    exact (engineTurn_busy (s := s.setSchedule ms) busy hr).trans (engineStep_eq_exec code index)
  · rw [step_quiet hl hs, engineTurn_idle idle]
  · rw [step_engine hl hs]
    exact engineTurn_idle (s := s.setSchedule ms) idle

theorem step_rstAssert (hl : s.status.fsmLegal = true) (hs : s.schedule = .rstAssert :: ms) :
    step s = .next (resetEvent ((s.setSchedule ms).setRst true)) := by
  simp [step, advance, hl, hs]

theorem step_rstRelease (hl : s.status.fsmLegal = true) (hs : s.schedule = .rstRelease :: ms) :
    step s = .next ((s.setSchedule ms).setRst false) := by
  simp [step, advance, hl, hs]

theorem step_host_underReset {tr : Transaction} (hl : s.status.fsmLegal = true) (hr : s.rst = true)
    (hs : s.schedule = .host tr :: ms) : step s = .refused .hostUnderReset := by
  simp [step, advance, hl, hs, hostTurn, hr]

/-- Settles O6, one lemma per move; both interrupt sources are masked after the reset event. -/
theorem resetEventClearsTheRegisters : Obligations.ResetEventClearsTheRegisters := by
  intro s ms hl
  refine ⟨fun hs => ⟨_, step_rstAssert hl hs, rfl, irq_eq_false_of_masked rfl⟩, step_rstRelease hl, fun hr =>
    ⟨fun hs => ?_, fun hs => ?_, fun _ => step_host_underReset hl hr⟩⟩
  · rw [step_quiet hl hs, engineTurn_underReset hr]
  · rw [step_engine hl hs]
    exact engineTurn_underReset (s := s.setSchedule ms) hr

/-! ## STATUS after an engine step -/

/-- What an engine step does to STATUS at each FSM state that has one (R104, R109 to R117). -/
inductive EngineMove (st : Status) : Status → Prop
  | single (phase : st.phase = .exec) : EngineMove st st.completed
  | expansionRound (phase : st.phase = .keyExp) (first : 1 ≤ st.round.toNat) (more : st.round.toNat < 10) :
      EngineMove st (st.goto .keyExp (st.round + 1))
  | expanded (phase : st.phase = .keyExp) (last : st.round = 10) (op : st.op = 0x20) :
      EngineMove st (st.withKsValid true).completed
  | expandedEncrypt (phase : st.phase = .keyExp) (last : st.round = 10) (op : st.op = 0x30) :
      EngineMove st ((st.withKsValid true).goto .enc 0)
  | expandedDecrypt (phase : st.phase = .keyExp) (last : st.round = 10) (op : st.op = 0x31) :
      EngineMove st ((st.withKsValid true).goto .dec 10)
  | encRound (phase : st.phase = .enc) (more : st.round.toNat < 10) : EngineMove st (st.goto .enc (st.round + 1))
  | encLast (phase : st.phase = .enc) (last : st.round = 10) : EngineMove st st.completed
  | decRound (phase : st.phase = .dec) (first : st.round.toNat ≤ 10) (more : 0 < st.round.toNat) :
      EngineMove st (st.goto .dec (st.round - 1))
  | decLast (phase : st.phase = .dec) (last : st.round = 0) : EngineMove st st.completed

theorem keyExpStep_engineMove (phase : s.status.phase = .keyExp) (h : keyExpStep s = .next t) :
    EngineMove s.status t.status := by
  obtain ⟨k, -, first, ⟨more, rfl⟩ | ⟨last, h⟩⟩ := keyExpStep_next h
  · exact .expansionRound phase first more
  · obtain ⟨op, rfl⟩ | ⟨op, rfl⟩ | ⟨op, rfl⟩ := finishExpansion_next h
    · exact .expanded phase last op
    · exact .expandedEncrypt phase last op
    · exact .expandedDecrypt phase last op

theorem encStep_engineMove (phase : s.status.phase = .enc) (h : encStep s = .next t) :
    EngineMove s.status t.status := by
  obtain ⟨k, -, ⟨round, rfl⟩ | ⟨-, more, rfl⟩ | ⟨last, rfl⟩⟩ := encStep_next h
  · have first := EngineMove.encRound phase (by simp [round])
    rwa [round] at first
  · exact .encRound phase more
  · exact .encLast phase last

theorem decStep_engineMove (phase : s.status.phase = .dec) (h : decStep s = .next t) :
    EngineMove s.status t.status := by
  obtain ⟨k, -, ⟨round, rfl⟩ | ⟨more, first, rfl⟩ | ⟨last, rfl⟩⟩ := decStep_next h
  · have first := EngineMove.decRound phase (by simp [round]) (by simp [round])
    rwa [round] at first
  · exact .decRound phase first.le more
  · exact .decLast phase last

theorem exec_engineMove (busy : s.status.busy = true) (h : exec i s = .next t) : EngineMove s.status t.status := by
  have single {op : Byte} {f : State → State} (same : (f s).status = s.status) (h : singleStep op f s = .next t) :
      EngineMove s.status t.status := by
    obtain ⟨idle, -⟩ | ⟨-, phase, rfl⟩ := singleStep_next h
    · simp [busy] at idle
    · rw [complete_status, same]
      exact .single phase
  cases commandKind i with
  | byte f _ run => exact single rfl (run s ▸ h)
  | state f _ run => exact single rfl (run s ▸ h)
  | addRoundKey r =>
    obtain ⟨-, phase, k, -, rfl⟩ | ⟨idle, -⟩ | ⟨idle, -⟩ | ⟨idle, -⟩ := execAddRoundKey_next h
    · exact .single phase
    all_goals simp [busy] at idle
  | keyExpand =>
    obtain ⟨-, phase, h⟩ | ⟨idle, -⟩ := execKeyExpand_next h
    · exact keyExpStep_engineMove phase h
    · simp [busy] at idle
  | encrypt =>
    obtain ⟨-, phase, h⟩ | ⟨-, phase, h⟩ | ⟨idle, -⟩ | ⟨idle, -⟩ := execEncrypt_next h
    · exact keyExpStep_engineMove phase h
    · exact encStep_engineMove phase h
    all_goals simp [busy] at idle
  | decrypt =>
    obtain ⟨-, phase, h⟩ | ⟨-, phase, h⟩ | ⟨idle, -⟩ | ⟨idle, -⟩ := execDecrypt_next h
    · exact keyExpStep_engineMove phase h
    · exact decStep_engineMove phase h
    all_goals simp [busy] at idle

/-! ## STATUS after a command is presented -/

/-- STATUS after command `i` is presented while BUSY = 0: its acceptance, or the flag of its refusal. -/
def Status.presented (i : Instr) (st : Status) : Status :=
  match i with
  | .addRoundKey r =>
    if 10 < r.toNat then st.raise .illegal
    else if st.ksValid then st.accepted 0x16 .exec r else st.raise .nokey
  | .keyExpand => (st.withKsValid false).accepted 0x20 .keyExp 1
  | .encrypt => if st.ksValid then st.accepted 0x30 .enc 0 else st.accepted 0x30 .keyExp 1
  | .decrypt => if st.ksValid then st.accepted 0x31 .dec 10 else st.accepted 0x31 .keyExp 1
  | i => st.accepted (opcodeOf i) .exec 0

theorem exec_status_idle (idle : s.status.busy = false) (h : exec i s = .next t) : t.status = s.status.presented i := by
  cases i with
  | addRoundKey r =>
    obtain ⟨busy, -⟩ | ⟨-, index, rfl⟩ | ⟨-, index, ks, rfl⟩ | ⟨-, index, ks, rfl⟩ := execAddRoundKey_next h
    · simp [idle] at busy
    all_goals simp [Status.presented, *]
  | keyExpand =>
    rw [exec_keyExpand_idle idle] at h
    cases h
    rfl
  | encrypt =>
    obtain ⟨busy, -⟩ | ⟨busy, -⟩ | ⟨-, ks, rfl⟩ | ⟨-, ks, rfl⟩ := execEncrypt_next h
    · simp [idle] at busy
    · simp [idle] at busy
    all_goals simp [Status.presented, startExpansion, ks]
  | decrypt =>
    obtain ⟨busy, -⟩ | ⟨busy, -⟩ | ⟨-, ks, rfl⟩ | ⟨-, ks, rfl⟩ := execDecrypt_next h
    · simp [idle] at busy
    · simp [idle] at busy
    all_goals simp [Status.presented, startExpansion, ks]
  | _ =>
    rw [exec_idle_of_singleStep (by decide) idle] at h
    cases h
    rfl

end Sys2Proof.Machine
end

section
/-! PROOFS. Everything a step can do to STATUS and to the data registers, with the move that does it, and from it who writes
which register (10_state.md sections 2 and 3, 20_memory.md section 3, 60_exceptions.md R126). `StepEffect` says the same of
STATUS, KEY and RK only, and without the offset of a write. -/

namespace Sys2Proof.Machine

variable {s t u : State} {ms : List Move} {i : Instr}

/-- The two states agree in STATUS and in every data register. -/
structure SameCore (s u : State) : Prop where
  gfA : u.gfA = s.gfA
  gfB : u.gfB = s.gfB
  gfResult : u.gfResult = s.gfResult
  state : u.state = s.state
  key : u.key = s.key
  rk : u.rk = s.rk
  status : u.status = s.status

/-- What a step from `s` does: a transition of a command, of the engine or by the write of its word; another host write,
with its effect; the reset event; or nothing, for the registers of `SameCore`. -/
inductive StepCase (s : State) : State → Prop
  | engine {u t : State} (same : SameCore s u) (i : Instr) (move : s.schedule = [] ∨ ∃ ms, s.schedule = .engine :: ms)
      (busy : s.status.busy = true) (named : commandInProgress s.status = some i) (run : exec i u = .next t) : StepCase s t
  | command {u t : State} (same : SameCore s u) (i : Instr) (v : Word32) (ms : List Move)
      (move : s.schedule = .host (.write 0x004 .bytes4 v) :: ms) (idle : s.status.busy = false)
      (decoded : decodeWord v = .ok i) (run : exec i u = .next t) : StepCase s t
  | raised {u : State} (same : SameCore s u) (e : ErrorFlag) : StepCase s (raise e u)
  | acknowledge {u : State} (same : SameCore s u) (v : Word32) (ms : List Move)
      (move : s.schedule = .host (.write 0x008 .bytes4 v) :: ms) : StepCase s (statusW1c v u)
  | gfA {u : State} (same : SameCore s u) (v : Word32) (ms : List Move)
      (move : s.schedule = .host (.write 0x010 .bytes4 v) :: ms) (idle : s.status.busy = false) :
      StepCase s (u.setGfA (byteOperand v))
  | gfB {u : State} (same : SameCore s u) (v : Word32) (ms : List Move)
      (move : s.schedule = .host (.write 0x014 .bytes4 v) :: ms) (idle : s.status.busy = false) :
      StepCase s (u.setGfB (byteOperand v))
  | stateWord {u : State} (same : SameCore s u) (m : ByteMatrix) (idle : s.status.busy = false) : StepCase s (u.setState m)
  | keyWord {u : State} (same : SameCore s u) (c : Fin 4) (off : BitVec 12) (v : Word32) (ms : List Move)
      (move : s.schedule = .host (.write off .bytes4 v) :: ms) (idle : s.status.busy = false)
      (offset : off.toNat = 0x030 + 4 * c.val) : StepCase s (writeKeyWord v c u)
  | reset (u : State) (ms : List Move) (move : s.schedule = .rstAssert :: ms) : StepCase s (resetEvent u)
  | unchanged {t : State} (same : SameCore s t) : StepCase s t

theorem hostRead_sameCore (off : BitVec 12) (s : State) : SameCore s (hostRead off s) := by
  obtain e | ⟨-, e⟩ := memRead_state off s <;> rw [hostRead, e] <;> exact ⟨rfl, rfl, rfl, rfl, rfl, rfl, rfl⟩

theorem engineTurn_case (same : SameCore s u) (move : s.schedule = [] ∨ ∃ ms, s.schedule = .engine :: ms)
    (h : engineTurn u = .next t) : StepCase s t := by
  obtain ⟨busy, -, i, named, run⟩ | ⟨-, rfl⟩ := engineTurn_next h
  · exact .engine same i move (same.status ▸ busy) (same.status ▸ named) run
  · exact .unchanged same

theorem transact_case {tr : Transaction} (hs : s.schedule = .host tr :: ms)
    (h : transact tr (s.setSchedule ms) = .next t) : StepCase s t := by
  obtain ⟨-, rfl⟩ | ⟨off, rfl, -, rfl⟩ | ⟨off, v, rfl, ha, h⟩ := transact_next h
  · exact .unchanged ⟨rfl, rfl, rfl, rfl, rfl, rfl, rfl⟩
  · obtain ⟨gfA, gfB, gfResult, state, key, rk, status⟩ := hostRead_sameCore off (s.setSchedule ms)
    exact .unchanged ⟨gfA, gfB, gfResult, state, key, rk, status⟩
  · have same : SameCore s ((s.setSchedule ms).setBus .written) := ⟨rfl, rfl, rfl, rfl, rfl, rfl, rfl⟩
    obtain ⟨-, -, rfl⟩ | ⟨-, -, e, -, rfl⟩ | ⟨idle, rfl, i, decoded, run⟩ | ⟨rfl, rfl⟩ | ⟨-, rfl⟩ | ⟨idle, rfl, rfl⟩ |
      ⟨idle, rfl, rfl⟩ | ⟨idle, c, -, rfl⟩ | ⟨idle, c, offset, rfl⟩ | rfl := memWrite_next ha h
    · exact .raised same _
    · exact .raised same _
    · exact .command same i v ms hs idle decoded run
    · exact .acknowledge same v ms hs
    · exact .unchanged ⟨rfl, rfl, rfl, rfl, rfl, rfl, rfl⟩
    · exact .gfA same v ms hs idle
    · exact .gfB same v ms hs idle
    · exact .stateWord same _ idle
    · exact .keyWord same c off v ms hs idle offset
    · exact .unchanged same

/-- Every step is one of these. -/
theorem step_case (h : step s = .next t) : StepCase s t := by
  obtain ⟨-, ⟨hs, h⟩ | ⟨ms, hs, h⟩ | ⟨tr, ms, hs, -, h⟩ | ⟨ms, hs, rfl⟩ | ⟨ms, -, rfl⟩⟩ := step_next h
  · exact engineTurn_case ⟨rfl, rfl, rfl, rfl, rfl, rfl, rfl⟩ (.inl hs) h
  · exact engineTurn_case (u := s.setSchedule ms) ⟨rfl, rfl, rfl, rfl, rfl, rfl, rfl⟩ (.inr ⟨ms, hs⟩) h
  · exact transact_case hs h
  · exact .reset _ ms hs
  · exact .unchanged ⟨rfl, rfl, rfl, rfl, rfl, rfl, rfl⟩

/-! ## The host while BUSY = 1 -/

/-- Settles O55: while BUSY = 1 the host's moves that change a register are a dropped write and a STATUS write, and they change
flags. -/
theorem hostCannotDisturbACommand : Obligations.HostCannotDisturbACommand := by
  intro s t tr ms busy hs h
  cases step_case h with
  | engine same i move => simp [hs] at move
  | reset u ms move => simp [hs] at move
  | command same i v ms move idle | gfA same v ms move idle | gfB same v ms move idle | stateWord same m idle
  | keyWord same c off v ms move idle => simp [busy] at idle
  | raised same | acknowledge same | unchanged same =>
    refine ⟨same.gfA, same.gfB, same.gfResult, same.state, same.key, same.rk, ?_⟩
    simp [same.status, busy]

/-! ## Who writes the operands -/

/-- Settles O57: no command touches an operand register (`exec_keeps_environment`), so a write does or the reset event. -/
theorem onlyTheHostAndResetWriteOperands : Obligations.OnlyTheHostAndResetWriteOperands := by
  intro s t h notReset
  cases step_case h with
  | reset u ms move => exact absurd ⟨ms, move⟩ notReset
  | engine same i _ _ _ run | command same i v ms _ _ _ run =>
    have kept := exec_keeps_environment run
    exact ⟨absurd (kept.gfA.trans same.gfA), absurd (kept.gfB.trans same.gfB), absurd (kept.key.trans same.key)⟩
  | raised same | acknowledge same | stateWord same | unchanged same =>
    exact ⟨absurd same.gfA, absurd same.gfB, absurd same.key⟩
  | gfA same v ms move idle =>
    exact ⟨fun _ => ⟨idle, ms, 0x010, v, move, by decide⟩, absurd same.gfB, absurd same.key⟩
  | gfB same v ms move idle =>
    exact ⟨absurd same.gfA, fun _ => ⟨idle, ms, 0x014, v, move, by decide⟩, absurd same.key⟩
  | keyWord same c off v ms move idle offset =>
    exact ⟨absurd same.gfA, absurd same.gfB, fun _ => ⟨idle, ms, off, v, move, by omega, by omega⟩⟩

/-! ## Who writes the results -/

theorem exec_gfResult (h : exec i s = .next t) : t.gfResult = s.gfResult ∨
    (s.status.busy = true ∧ s.status.phase = .exec ∧ opcodeOf i ∈ ([0x01, 0x02, 0x03, 0x04] : List Byte)) := by
  cases commandKind i with
  | byte f code run =>
    obtain ⟨-, rfl⟩ | ⟨busy, phase, -⟩ := singleStep_next (run s ▸ h)
    · exact .inl rfl
    · exact .inr ⟨busy, phase, code⟩
  | state f _ run => obtain ⟨-, rfl⟩ | ⟨-, -, rfl⟩ := singleStep_next (run s ▸ h) <;> exact .inl rfl
  | addRoundKey r =>
    obtain ⟨-, -, k, -, rfl⟩ | ⟨-, -, rfl⟩ | ⟨-, -, -, rfl⟩ | ⟨-, -, -, rfl⟩ := execAddRoundKey_next h <;> exact .inl rfl
  | keyExpand => exact .inl (by rw [(keyExpandFrame s t h).1])
  | encrypt => exact .inl (by rw [(cipherCommandsFrame _ s t (.inl rfl) h).1])
  | decrypt => exact .inl (by rw [(cipherCommandsFrame _ s t (.inr rfl) h).1])

theorem exec_rk (h : exec i s = .next t) : t.rk = s.rk ∨ (s.status.busy = true ∧ s.status.phase = .keyExp) ∨
    (s.status.busy = false ∧ (i = .keyExpand ∨ ((i = .encrypt ∨ i = .decrypt) ∧ s.status.ksValid = false))) := by
  have cipher (c : i = .encrypt ∨ i = .decrypt) : t.rk = s.rk ∨ (s.status.busy = true ∧ s.status.phase = .keyExp) ∨
      (s.status.busy = false ∧ (i = .keyExpand ∨ ((i = .encrypt ∨ i = .decrypt) ∧ s.status.ksValid = false))) := by
    obtain ⟨busy, phase, -⟩ | ⟨-, -, m, st, rfl, -⟩ | ⟨-, st, rfl, -⟩ | ⟨idle, ks, -⟩ := exec_cipher_next c h
    · exact .inr (.inl ⟨busy, phase⟩)
    · exact .inl rfl
    · exact .inl rfl
    · exact .inr (.inr ⟨idle, .inr ⟨c, ks⟩⟩)
  cases commandKind i with
  | byte f _ run | state f _ run => obtain ⟨-, rfl⟩ | ⟨-, -, rfl⟩ := singleStep_next (run s ▸ h) <;> exact .inl rfl
  | addRoundKey r =>
    obtain ⟨-, -, k, -, rfl⟩ | ⟨-, -, rfl⟩ | ⟨-, -, -, rfl⟩ | ⟨-, -, -, rfl⟩ := execAddRoundKey_next h <;> exact .inl rfl
  | keyExpand =>
    obtain ⟨busy, phase, -⟩ | ⟨idle, -⟩ := execKeyExpand_next h
    · exact .inr (.inl ⟨busy, phase⟩)
    · exact .inr (.inr ⟨idle, .inl rfl⟩)
  | encrypt => exact cipher (.inl rfl)
  | decrypt => exact cipher (.inr rfl)

/-- The word of a decoded command is the one that R57 gives it. -/
theorem word_of_decoded {v w : Word32} (decoded : decodeWord v = .ok i) (word : encode i = w) : v = w :=
  (decodedWordIsTheCommandsWord v i decoded).2.symm.trans word

/-- The command in progress is the one that OP names (R28). -/
theorem opcodeOf_commandInProgress (named : commandInProgress s.status = some i) : opcodeOf i = s.status.op :=
  (opcodeMap_some.mp named).1

/-- Settles O58: a command's transitions that write GF_RESULT or RK, and no other step does but the reset event. -/
theorem onlyTheirCommandsWriteResults : Obligations.OnlyTheirCommandsWriteResults := by
  intro s t h notReset
  cases step_case h with
  | reset u ms move => exact absurd ⟨ms, move⟩ notReset
  | raised same | acknowledge same | gfA same | gfB same | stateWord same | keyWord same | unchanged same =>
    exact ⟨absurd same.gfResult, absurd same.rk⟩
  | engine same i move busy named run =>
    refine ⟨fun changed => ?_, fun changed => ?_⟩
    · obtain e | ⟨-, phase, code⟩ := exec_gfResult run
      · exact absurd (e.trans same.gfResult) changed
      · exact ⟨busy, same.status ▸ phase, opcodeOf_commandInProgress named ▸ code⟩
    · obtain e | ⟨-, phase⟩ | ⟨idle, -⟩ := exec_rk run
      · exact absurd (e.trans same.rk) changed
      · exact .inl ⟨busy, same.status ▸ phase⟩
      · simp [same.status, busy] at idle
  | command same i v ms move idle decoded run =>
    refine ⟨fun changed => ?_, fun changed => ?_⟩
    · obtain e | ⟨busy, -⟩ := exec_gfResult run
      · exact absurd (e.trans same.gfResult) changed
      · simp [same.status, idle] at busy
    · obtain e | ⟨busy, -⟩ | ⟨-, rfl | ⟨rfl | rfl, ks⟩⟩ := exec_rk run
      · exact absurd (e.trans same.rk) changed
      · simp [same.status, idle] at busy
      · exact .inr ⟨idle, ms, v, move, .inl (word_of_decoded decoded rfl)⟩
      · exact .inr ⟨idle, ms, v, move, .inr ⟨.inl (word_of_decoded decoded rfl), same.status ▸ ks⟩⟩
      · exact .inr ⟨idle, ms, v, move, .inr ⟨.inr (word_of_decoded decoded rfl), same.status ▸ ks⟩⟩

/-! ## Who changes KS_VALID and DONE -/

theorem EngineMove.ksValid {st st' : Status} (h : EngineMove st st') (clear : st.ksValid = false)
    (set : st'.ksValid = true) : st.phase = .keyExp ∧ st.round = 10 := by
  cases h with
  | expanded phase last | expandedEncrypt phase last | expandedDecrypt phase last => exact ⟨phase, last⟩
  | _ => simp [clear] at set

theorem EngineMove.keeps_ksValid {st st' : Status} (h : EngineMove st st') (set : st.ksValid = true) :
    st'.ksValid = true := by
  cases h <;> simp [set]

theorem Status.presented_ksValid (i : Instr) (st : Status) :
    (st.presented i).ksValid = (st.ksValid && decide (i ≠ .keyExpand)) := by
  cases i with
  | addRoundKey | encrypt | decrypt => simp only [Status.presented]; split_ifs <;> simp [*]
  | _ => simp [Status.presented]

/-- Settles O59: of a command's transitions only round 10 of key expansion sets KS_VALID, and only the acceptance of KEYEXPAND
clears it. -/
theorem ksValidChangesOnlyAsListed : Obligations.KsValidChangesOnlyAsListed := by
  intro s t h
  cases step_case h with
  | reset u ms move => exact ⟨fun _ set => by simp [Status.reset] at set, fun _ _ => .inl ⟨ms, move⟩⟩
  | engine same i move busy named run =>
    have move := same.status ▸ exec_engineMove (same.status ▸ busy) run
    exact ⟨fun clear set => ⟨busy, move.ksValid clear set⟩, fun set clear => by simp [move.keeps_ksValid set] at clear⟩
  | command same i v ms move idle decoded run =>
    rw [exec_status_idle (same.status ▸ idle) run, same.status, Status.presented_ksValid]
    refine ⟨fun clear set => by simp [clear] at set, fun set clear => .inr ⟨idle, ms, _, v, move, .inl ⟨rfl, ?_⟩⟩⟩
    obtain rfl : i = .keyExpand := by simpa [set] using clear
    exact word_of_decoded decoded rfl
  | keyWord same c off v ms move idle offset =>
    exact ⟨fun _ set => by simp [writeKeyWord] at set,
      fun _ _ => .inr ⟨idle, ms, off, v, move, .inr ⟨by omega, by omega⟩⟩⟩
  | raised same | acknowledge same | gfA same | gfB same | stateWord same | unchanged same =>
    exact ⟨fun clear set => by simp [same.status, clear] at set, fun set clear => by simp [same.status, set] at clear⟩

theorem EngineMove.done {st st' : Status} (h : EngineMove st st') :
    st'.done = st.done ∨ (st'.done = true ∧ st'.busy = false) := by
  cases h <;> simp

theorem Status.presented_done (i : Instr) (st : Status) :
    (st.presented i).done = st.done ∨ ((st.presented i).done = false ∧ (st.presented i).busy = true) := by
  cases i with
  | addRoundKey | encrypt | decrypt => simp only [Status.presented]; split_ifs <;> simp
  | _ => simp [Status.presented]

/-- Settles O60: of a command's transitions only completion sets DONE, and only acceptance clears it. -/
theorem doneChangesOnlyAsListed : Obligations.DoneChangesOnlyAsListed := by
  intro s t h
  cases step_case h with
  | reset u ms move => exact ⟨fun _ set => by simp [Status.reset] at set, fun _ _ => .inl ⟨ms, move⟩⟩
  | engine same i move busy named run =>
    have move := same.status ▸ exec_engineMove (same.status ▸ busy) run
    obtain e | ⟨done, idle⟩ := move.done
    · exact ⟨fun clear set => by simp [e, clear] at set, fun set clear => by simp [e, set] at clear⟩
    · exact ⟨fun _ _ => ⟨busy, idle⟩, fun _ clear => by simp [done] at clear⟩
  | command same i v ms move idle decoded run =>
    rw [exec_status_idle (same.status ▸ idle) run, same.status]
    obtain e | ⟨done, busy⟩ := s.status.presented_done i
    · exact ⟨fun clear set => by simp [e, clear] at set, fun set clear => by simp [e, set] at clear⟩
    · exact ⟨fun _ set => by simp [done] at set, fun _ _ => .inr (.inl ⟨idle, busy⟩)⟩
  | acknowledge same v ms move =>
    refine ⟨fun clear set => by simp [same.status, clear] at set, fun set clear => .inr (.inr ⟨ms, v, move, ?_⟩)⟩
    simpa [same.status, set] using clear
  | raised same | gfA same | gfB same | stateWord same | keyWord same | unchanged same =>
    exact ⟨fun clear set => by simp [writeKeyWord, same.status, clear] at set,
      fun set clear => by simp [writeKeyWord, same.status, set] at clear⟩

end Sys2Proof.Machine
end

section
/-! PROOFS. The invariant of the block (10_state.md section 6, 44_cipher_fsm.md section 2). Its clauses about STATUS alone,
`Status.Control`, are kept by every engine step and by every command that the host presents; those about RK are
`State.Scheduled`. Under the invariant the engine has a step whenever BUSY = 1, so nothing faults. -/

namespace Sys2Proof.Machine

variable {s t : State} {st st' : Status} {i : Instr} {ms : List Move}

/-! ## The clauses about STATUS -/

/-- The clauses of `State.Inv` that speak of STATUS alone. -/
structure Status.Control (st : Status) : Prop where
  busyIff : st.busy = true ↔ st.phase ≠ .idle
  fsmLegal : st.fsmLegal = true
  opFits : st.opFits = true
  expanding : st.phase = .keyExp → st.ksValid = false
  cipherKeyed : st.phase = .enc ∨ st.phase = .dec → st.ksValid = true
  addRoundKeyKeyed : st.phase = .exec → st.op = 0x16 → st.ksValid = true
  busyNotDone : st.busy = true → st.done = false

theorem inv_iff : s.Inv ↔ s.status.Control ∧ s.Scheduled ∧ (s.rst = true → resetEvent s = s) where
  mp inv := ⟨⟨inv.busyIff, inv.fsmLegal, inv.opFits, fun phase => (inv.expanding phase).1, inv.cipherKeyed,
    inv.addRoundKeyKeyed, inv.busyNotDone⟩, ⟨inv.schedule, inv.expanding⟩, inv.underReset⟩
  mpr := fun ⟨c, scheduled, underReset⟩ => ⟨c.busyIff, c.fsmLegal, c.opFits, scheduled.valid, scheduled.expanding,
    c.cipherKeyed, c.addRoundKeyKeyed, c.busyNotDone, underReset⟩

/-- At an idle FSM state only the pair (IDLE, 0) is left to say. -/
theorem control_of_idle (busy : st.busy = false) (phase : st.phase = .idle) (round : st.round = 0) : st.Control := by
  constructor <;> simp [busy, phase, round, Status.fsmLegal, Status.opFits]

theorem Status.Control.phase_of_idle (c : st.Control) (idle : st.busy = false) : st.phase = .idle := by
  by_contra phase
  simp [c.busyIff.mpr phase] at idle

theorem Status.Control.round_of_idle (c : st.Control) (idle : st.busy = false) : st.round = 0 := by
  simpa [Status.fsmLegal, c.phase_of_idle idle] using c.fsmLegal

theorem control_completed (st : Status) : st.completed.Control := control_of_idle rfl rfl rfl

/-- Acceptance, from any STATUS. -/
theorem control_accepted {op : Byte} {p : Phase} {r : BitVec 4} (phase : p ≠ .idle)
    (fsmLegal : (st.accepted op p r).fsmLegal = true) (opFits : (st.accepted op p r).opFits = true)
    (expanding : p = .keyExp → st.ksValid = false)
    (keyed : p = .enc ∨ p = .dec ∨ (p = .exec ∧ op = 0x16) → st.ksValid = true) : (st.accepted op p r).Control where
  busyIff := by simp [phase]
  fsmLegal := fsmLegal
  opFits := opFits
  expanding := expanding
  cipherKeyed h := keyed (h.imp_right .inl)
  addRoundKeyKeyed h op := keyed (.inr (.inr ⟨h, op⟩))
  busyNotDone _ := rfl

/-- A flag of STATUS, DONE included, may be written without a new FSM state. -/
theorem Status.Control.congr (c : st.Control) (busy : st'.busy = st.busy) (phase : st'.phase = st.phase)
    (round : st'.round = st.round) (op : st'.op = st.op) (ks : st'.ksValid = st.ksValid)
    (done : st.done = false → st'.done = false) : st'.Control where
  busyIff := by rw [busy, phase]; exact c.busyIff
  fsmLegal := by simpa only [Status.fsmLegal, phase, round, op] using c.fsmLegal
  opFits := by simpa only [Status.opFits, phase, op] using c.opFits
  expanding := by rw [phase, ks]; exact c.expanding
  cipherKeyed := by rw [phase, ks]; exact c.cipherKeyed
  addRoundKeyKeyed := by rw [phase, op, ks]; exact c.addRoundKeyKeyed
  busyNotDone h := done (c.busyNotDone (busy ▸ h))

theorem Status.Control.raise (c : st.Control) (e : ErrorFlag) : (st.raise e).Control :=
  c.congr (by simp) (by simp) (by simp) (by simp) (by simp) (by simp)

theorem Status.Control.w1c (c : st.Control) (v : Word32) : (st.w1c v).Control :=
  c.congr rfl rfl rfl rfl rfl (by simp +contextual)

/-- A round of the same phase, or the first round of ENC or DEC after key expansion. -/
theorem Status.Control.goto {p : Phase} {r : BitVec 4} {b : Bool} (c : st.Control) (old : st.phase ≠ .idle) (new : p ≠ .idle)
    (notExec : p ≠ .exec) (fsmLegal : ((st.withKsValid b).goto p r).fsmLegal = true)
    (opFits : ((st.withKsValid b).goto p r).opFits = true) (ks : b = true ↔ p = .enc ∨ p = .dec) :
    ((st.withKsValid b).goto p r).Control where
  busyIff := by simp [c.busyIff, old, new]
  fsmLegal := fsmLegal
  opFits := opFits
  expanding h := by
    obtain rfl : p = .keyExp := h
    simpa using ks
  cipherKeyed h := ks.mpr h
  addRoundKeyKeyed h := absurd h notExec
  busyNotDone := c.busyNotDone

theorem withKsValid_of_eq {b : Bool} (h : st.ksValid = b) : st.withKsValid b = st := by subst h; rfl

theorem EngineMove.control (h : EngineMove st st') (c : st.Control) : st'.Control := by
  have fits := c.opFits
  cases h with
  | single | expanded | encLast | decLast => exact control_completed _
  | expansionRound phase first more =>
    have next := c.goto (b := false) (r := st.round + 1) (p := .keyExp) (by simp [phase]) (by simp) (by simp)
      (by simp [Status.fsmLegal, BitVec.toNat_add]; omega) (by simpa [Status.opFits, phase] using fits) (by simp)
    rwa [withKsValid_of_eq (c.expanding phase)] at next
  | expandedEncrypt phase last op =>
    exact c.goto (by simp [phase]) (by simp) (by simp) (by simp [Status.fsmLegal]) (by simp [Status.opFits, op]) (by simp)
  | expandedDecrypt phase last op =>
    exact c.goto (by simp [phase]) (by simp) (by simp) (by simp [Status.fsmLegal]) (by simp [Status.opFits, op]) (by simp)
  | encRound phase more =>
    have next := c.goto (b := true) (r := st.round + 1) (p := .enc) (by simp [phase]) (by simp) (by simp)
      (by simp [Status.fsmLegal, BitVec.toNat_add]; omega) (by simpa [Status.opFits, phase] using fits) (by simp)
    rwa [withKsValid_of_eq (c.cipherKeyed (.inl phase))] at next
  | decRound phase first more =>
    have next := c.goto (b := true) (r := st.round - 1) (p := .dec) (by simp [phase]) (by simp) (by simp)
      (by simp [Status.fsmLegal, BitVec.toNat_sub]; omega) (by simpa [Status.opFits, phase] using fits) (by simp)
    rwa [withKsValid_of_eq (c.cipherKeyed (.inr phase))] at next

/-- A command presented at any STATUS is refused with a flag, or accepted into a legal FSM state. -/
theorem Status.presented_control (i : Instr) (st : Status) :
    (∃ e, st.presented i = st.raise e) ∨ (st.presented i).Control := by
  cases i with
  | addRoundKey r =>
    simp only [Status.presented]
    split_ifs with index ks
    · exact .inl ⟨_, rfl⟩
    · exact .inr (control_accepted (by simp) (by simp [Status.fsmLegal]; omega)
        (by simp [Status.opFits, singleStepOpcodes]) (by simp) fun _ => ks)
    · exact .inl ⟨_, rfl⟩
  | keyExpand => exact .inr (control_accepted (by simp) rfl rfl (fun _ => rfl) (by simp))
  | encrypt | decrypt =>
    simp only [Status.presented]
    split_ifs with ks
    · exact .inr (control_accepted (by simp) rfl rfl (by simp) fun _ => ks)
    · exact .inr (control_accepted (by simp) rfl rfl (fun _ => by simpa using ks) (by simp))
  | _ => exact .inr (control_accepted (by simp) rfl rfl (by simp) (by simp [opcodeOf]))

theorem step_keeps_control (h : step s = .next t) (c : s.status.Control) : t.status.Control := by
  cases step_case h with
  | reset => exact control_of_idle rfl rfl rfl
  | engine same i _ busy _ run => exact (same.status ▸ exec_engineMove (same.status ▸ busy) run).control c
  | command same i _ _ _ idle _ run =>
    rw [exec_status_idle (same.status ▸ idle) run, same.status]
    obtain ⟨e, raised⟩ | accepted := s.status.presented_control i
    · exact raised ▸ c.raise e
    · exact accepted
  | raised same e => exact (same.status ▸ c).raise e
  | acknowledge same v => exact (same.status ▸ c).w1c v
  | keyWord same c' off v ms move idle =>
    rw [writeKeyWord, setKsValid_status, State.setKey_status, same.status]
    exact control_of_idle idle (c.phase_of_idle idle) (c.round_of_idle idle)
  | gfA same | gfB same | stateWord same | unchanged same => exact same.status ▸ c

/-! ## Under reset -/

/-- While `rst` stays asserted no agent has a step, so the registers keep their reset values (R141). -/
theorem step_keeps_underReset (h : step s = .next t) (hs : s.rst = true → resetEvent s = s) (ht : t.rst = true) :
    resetEvent t = t := by
  obtain ⟨-, ⟨-, h⟩ | ⟨ms, -, h⟩ | ⟨tr, ms, -, released, h⟩ | ⟨ms, -, rfl⟩ | ⟨ms, -, rfl⟩⟩ := step_next h
  · have asserted : s.rst = true := (engineTurn_environment h).2 ▸ ht
    rw [engineTurn_underReset asserted] at h
    cases h
    exact hs asserted
  · have asserted : s.rst = true := (engineTurn_environment h).2 ▸ ht
    rw [engineTurn_underReset (s := s.setSchedule ms) asserted] at h
    cases h
    exact congrArg (State.setSchedule ms) (hs asserted)
  · have same : t.rst = s.rst := (transact_environment h).2
    simp [same, released] at ht
  · rfl
  · simp at ht

/-! ## The invariant -/

/-- Settles O8: the clauses about STATUS, those about RK, and the one about reset are each inductive, RK's by R32. -/
theorem everyStepKeepsTheInvariant : Obligations.EveryStepKeepsTheInvariant := by
  intro s t inv h
  obtain ⟨control, scheduled, underReset⟩ := inv_iff.mp inv
  exact inv_iff.mpr ⟨step_keeps_control h control, step_keeps_scheduled h inv.busyIff scheduled,
    step_keeps_underReset h underReset⟩

/-- At reset everything is idle and no schedule is claimed. -/
theorem reset_inv (ms : List Move) : (State.reset.setSchedule ms).Inv :=
  inv_iff.mpr ⟨control_of_idle rfl rfl rfl, ⟨fun ks => by simp [State.reset, Status.reset] at ks,
    fun phase => by simp [State.reset, Status.reset] at phase⟩, fun asserted => by simp [State.reset] at asserted⟩

theorem Reachable.inv (reachable : Reachable s) : s.Inv :=
  reachable.induction reset_inv fun s t inv h => everyStepKeepsTheInvariant s t inv h

/-- Settles O12: the pair is legal in every reachable state by the invariant; a pair that is not is a fault before any move. -/
theorem reachableFsmPairIsInTheTable : Obligations.ReachableFsmPairIsInTheTable := by
  refine ⟨fun s reachable => ?_, fun s illegal => by simp [step, advance, illegal], fun s outside => ?_⟩
  · have legal := reachable.inv.fsmLegal
    cases phase : s.status.phase
    case unused5 | unused6 | unused7 => simp [Status.fsmLegal, phase] at legal
    all_goals simpa [Status.fsmLegal, phase] using legal
  · cases phase : s.status.phase <;> simp [Status.fsmLegal, phase] at outside ⊢ <;> bv_omega

/-! ## Nothing faults -/

theorem memWrite_total (off : BitVec 12) (v : Word32) (s : State) : ∃ t, memWrite off v s = .next t := by
  unfold memWrite writeCmd acceptWord
  split
  · split
    next => exact ⟨_, rfl⟩
    next idle =>
      split
      · exact exec_idle_next _ (Bool.not_eq_true _ ▸ idle)
      · exact ⟨_, rfl⟩
  all_goals exact ⟨_, rfl⟩

/-- A host transaction always has its next state, at any FSM state. -/
theorem transact_total (tr : Transaction) (s : State) : ∃ t, transact tr s = .next t := by
  unfold transact
  split
  · cases tr with
    | read off size => exact ⟨_, rfl⟩
    | write off size v => exact memWrite_total off v _
  · exact ⟨_, rfl⟩

theorem keyExpStep_total (c : s.status.Control) (phase : s.status.phase = .keyExp) : ∃ t, keyExpStep s = .next t := by
  have range : 1 ≤ s.status.round.toNat ∧ s.status.round.toNat ≤ 10 := by simpa [Status.fsmLegal, phase] using c.fsmLegal
  have op : (s.status.op = 0x20 ∨ s.status.op = 0x30) ∨ s.status.op = 0x31 := by
    simpa [Status.opFits, phase] using c.opFits
  by_cases more : s.status.round.toNat < 10
  · exact ⟨_, keyExpStep_of_lt_ten range.1 more phase rfl⟩
  · rw [keyExpStep_ten (by bv_omega)]
    obtain (op | op) | op := op
    · exact ⟨_, finishExpansion_keyExpand op⟩
    · exact ⟨_, finishExpansion_encrypt op⟩
    · exact ⟨_, finishExpansion_decrypt op⟩

theorem encStep_total (c : s.status.Control) (phase : s.status.phase = .enc) : ∃ t, encStep s = .next t := by
  have range : s.status.round.toNat ≤ 10 := by simpa [Status.fsmLegal, phase] using c.fsmLegal
  by_cases first : s.status.round = 0
  · exact ⟨_, encStep_zero phase first⟩
  by_cases last : s.status.round = 10
  · exact ⟨_, encStep_ten last⟩
  · exact ⟨_, encStep_middle (by bv_omega) (by bv_omega) phase rfl⟩

theorem decStep_total (c : s.status.Control) (phase : s.status.phase = .dec) : ∃ t, decStep s = .next t := by
  have range : s.status.round.toNat ≤ 10 := by simpa [Status.fsmLegal, phase] using c.fsmLegal
  by_cases first : s.status.round = 10
  · exact ⟨_, decStep_ten phase first⟩
  by_cases last : s.status.round = 0
  · exact ⟨_, decStep_zero last⟩
  · exact ⟨_, decStep_middle (by bv_omega) (by bv_omega) phase rfl⟩

/-- In EXEC the command that OP names has its step. -/
theorem exec_total_of_exec (c : s.status.Control) (busy : s.status.busy = true) (phase : s.status.phase = .exec)
    (code : opcodeOf i = s.status.op) : ∃ t, exec i s = .next t := by
  have single : opcodeOf i ∈ singleStepOpcodes := by simpa [Status.opFits, phase, code] using c.opFits
  cases commandKind i with
  | byte f _ run => exact ⟨_, run.completes busy phase⟩
  | state f _ run => exact ⟨_, run.completes busy phase⟩
  | addRoundKey r =>
    have legal : s.status.round = 0 ∨ (s.status.op = 0x16 ∧ s.status.round.toNat ≤ 10) := by
      simpa [Status.fsmLegal, phase] using c.fsmLegal
    exact ⟨_, exec_addRoundKey_exec busy phase (by obtain e | ⟨-, h⟩ := legal <;> [simp [e]; omega])⟩
  | keyExpand | encrypt | decrypt => simp [singleStepOpcodes, opcodeOf] at single

/-- In KEYEXP each of the three commands has the same step (R104). -/
theorem engineStep_keyExp (busy : s.status.busy = true) (phase : s.status.phase = .keyExp)
    (op : s.status.op = 0x20 ∨ s.status.op = 0x30 ∨ s.status.op = 0x31) : engineStep s = keyExpStep s := by
  obtain op | op | op := op
  · rw [engineStep_eq_exec (i := .keyExpand) op.symm (by simp [op]), exec_keyExpand_keyExp busy phase]
  · rw [engineStep_eq_exec (i := .encrypt) op.symm (by simp [op]), exec_encrypt_keyExp busy phase]
  · rw [engineStep_eq_exec (i := .decrypt) op.symm (by simp [op]), exec_decrypt_keyExp busy phase]

/-- While BUSY = 1 the engine has its step. -/
theorem engineStep_total (c : s.status.Control) (busy : s.status.busy = true) : ∃ t, engineStep s = .next t := by
  have fits := c.opFits
  cases phase : s.status.phase <;> simp only [Status.opFits, phase] at fits
  case idle => simp [c.busyIff.mp busy] at phase
  case unused5 | unused6 | unused7 => simpa [Status.fsmLegal, phase] using c.fsmLegal
  case exec =>
    have assigned : s.status.op ∈ assignedOpcodes := by
      have sub : singleStepOpcodes ⊆ assignedOpcodes := by decide
      exact sub (by simpa using fits)
    obtain ⟨i, map⟩ := (assigned_iff _ s.status.round).mp assigned
    rw [engineStep, commandInProgress, map]
    exact exec_total_of_exec c busy phase (opcodeMap_some.mp map).1
  case keyExp =>
    rw [engineStep_keyExp busy phase (by simpa [or_assoc] using fits)]
    exact keyExpStep_total c phase
  case enc =>
    have op : s.status.op = 0x30 := by simpa using fits
    rw [engineStep_eq_exec (i := .encrypt) op.symm (by simp [op]), exec_encrypt_enc busy phase]
    exact encStep_total c phase
  case dec =>
    have op : s.status.op = 0x31 := by simpa using fits
    rw [engineStep_eq_exec (i := .decrypt) op.symm (by simp [op]), exec_decrypt_dec busy phase]
    exact decStep_total c phase

/-! The engine has a step only while BUSY = 1, so that only then the clauses about STATUS are needed. -/

theorem engineTurn_total (c : s.status.busy = true → s.status.Control) : ∃ t, engineTurn s = .next t := by
  unfold engineTurn
  split
  next h =>
    have busy : s.status.busy = true := (Bool.and_eq_true_iff.mp h).1
    exact engineStep_total (c busy) busy
  next => exact ⟨s, rfl⟩

/-- Every move is made, but for a host transaction under reset. -/
theorem step_total (legal : s.status.fsmLegal = true) (c : s.status.busy = true → s.status.Control)
    (host : ∀ tr ms, s.schedule = .host tr :: ms → s.rst = false) : ∃ t, step s = .next t := by
  match hs : s.schedule with
  | [] => exact step_quiet legal hs ▸ engineTurn_total c
  | .engine :: ms => exact step_engine legal hs ▸ engineTurn_total (s := s.setSchedule ms) c
  | .host tr :: ms => exact step_host legal (host tr ms hs) hs ▸ transact_total tr _
  | .rstAssert :: ms => exact ⟨_, step_rstAssert legal hs⟩
  | .rstRelease :: ms => exact ⟨_, step_rstRelease legal hs⟩

theorem step_next_or_refused (legal : s.status.fsmLegal = true) (c : s.status.busy = true → s.status.Control) :
    (∃ t, step s = .next t) ∨
      (step s = .refused .hostUnderReset ∧ s.rst = true ∧ ∃ tr ms, s.schedule = .host tr :: ms) := by
  by_cases host : s.rst = true ∧ ∃ tr ms, s.schedule = .host tr :: ms
  · obtain ⟨asserted, tr, ms, hs⟩ := host
    exact .inr ⟨step_host_underReset legal asserted hs, asserted, tr, ms, hs⟩
  · refine .inl (step_total legal c fun tr ms hs => Bool.eq_false_iff.mpr fun asserted => ?_)
    exact host ⟨asserted, tr, ms, hs⟩

theorem noFault_step (legal : s.status.fsmLegal = true) (c : s.status.busy = true → s.status.Control) :
    noFault (step s) = true := by
  obtain ⟨t, h⟩ | ⟨h, -⟩ := step_next_or_refused legal c <;> rw [h] <;> rfl

theorem State.Inv.control (inv : s.Inv) : s.status.Control := (inv_iff.mp inv).1

/-- Settles O9: under the invariant each move has its next state, but for the host's under reset. -/
theorem noStepFromTheInvariantFaults : Obligations.NoStepFromTheInvariantFaults := by
  intro s inv
  have c (_ : s.status.busy = true) := inv.control
  refine ⟨noFault_step inv.fsmLegal c, fun released => step_total inv.fsmLegal c fun _ _ _ => released, fun r refused => ?_⟩
  obtain ⟨t, h⟩ | ⟨h, asserted, host⟩ := step_next_or_refused inv.fsmLegal c
  · simp [h] at refused
  · rw [h] at refused
    cases refused
    exact ⟨rfl, asserted, host⟩

/-! ## Clean entry -/

theorem cleanEntry_iff : s.cleanEntry = true ↔
    s.status.busy = false ∧ s.status.errPending = false ∧ s.status.fsmLegal = true := by
  simp [State.cleanEntry, and_assoc]

/-- Settles O7: reset is idle with no flag set; 0x38 acknowledges every error flag; an idle block has no engine step that
could fault. -/
theorem resetMeetsTheInvariant : Obligations.ResetMeetsTheInvariant := by
  refine ⟨fun ms => ⟨reset_inv ms, rfl⟩, fun s ms hl hr idle hs => ?_, fun s clean => ?_⟩
  · refine ⟨_, (step_write hl hr hs rfl).trans memWrite_status, cleanEntry_iff.mpr ⟨idle, ?_, hl⟩⟩
    simp [Status.errPending]
  · obtain ⟨idle, -, legal⟩ := cleanEntry_iff.mp clean
    exact noFault_step legal fun busy => by simp [idle] at busy

/-! ## The KEYEXP step (R104) -/

/-- The engine's move, as the next one listed or with none listed (log 1). -/
theorem step_engineTurn (legal : s.status.fsmLegal = true)
    (move : s.schedule = .engine :: ms ∨ (s.schedule = [] ∧ ms = [])) : step s = engineTurn (s.setSchedule ms) := by
  obtain hs | ⟨hs, rfl⟩ := move
  · exact step_engine legal hs
  · rw [step_quiet legal hs, ← hs]
    rfl

/-- Settles O46: the step of the command that OP names; what is in place below ROUND is a clause of the invariant. -/
theorem keyExpansionStepFollowsTheRule : Obligations.KeyExpansionStepFollowsTheRule := by
  refine ⟨fun s ms r h1 h10 released move busy phase round op => ?_, fun s reachable phase => ⟨?_, fun r h below => ?_⟩⟩
  · have legal : s.status.fsmLegal = true := by simp [Status.fsmLegal, phase, round, h1, h10]
    rw [step_engineTurn legal move, engineTurn_busy (s := s.setSchedule ms) busy released,
      engineStep_keyExp (s := s.setSchedule ms) busy phase op]
    by_cases more : r < 10
    · rw [if_pos more]
      exact keyExpStep_of_lt_ten (s := s.setSchedule ms) h1 more phase round
    · obtain rfl : r = 10 := by omega
      rw [keyExpStep_ten (s := s.setSchedule ms) (BitVec.eq_of_toNat_eq round), if_neg more]
      obtain op | op | op := op
      · rw [if_pos op]
        exact finishExpansion_keyExpand op
      · rw [if_neg (by simp [op]), if_pos op]
        exact finishExpansion_encrypt op
      · rw [if_neg (by simp [op]), if_neg (by simp [op])]
        exact finishExpansion_decrypt op
  · simpa [Status.opFits, phase, or_assoc] using reachable.inv.opFits
  · rw [getElem_expand]
    exact (reachable.inv.expanding phase).2 r h below

end Sys2Proof.Machine
end

section
/-! PROOFS. The register window (20_memory.md R35 to R44, R47): what a performed read returns at each register, what a
performed write to each register does while BUSY = 0, the layout of the STATUS word (10_state.md R22), and the host addresses
of the window. -/

namespace Sys2Proof

namespace Machine

variable {s u : State} {off : BitVec 12} {v : Word32} {ms : List Move}

/-! ## Reads -/

theorem memRead_id : memRead 0x000 s = (0x41455331, s) := rfl
theorem memRead_cmd : memRead 0x004 s = (0, s) := rfl

theorem memRead_stateW {c : Fin 4} (h : off.toNat = 0x020 + 4 * c.val) :
    memRead off s = readResult (pack s.state c) s := by
  rw [memRead, regAt_stateW h]

theorem memRead_keyW {c : Fin 4} (h : off.toNat = 0x030 + 4 * c.val) : memRead off s = (pack s.key c, s) := by
  rw [memRead, regAt_keyW h]

theorem memRead_rkW {r : Fin 11} {c : Fin 4} (h : off.toNat = 0x100 + 16 * r.val + 4 * c.val) :
    memRead off s = readResult (pack s.rk[r] c) s := by
  rw [memRead, regAt_rkW h]

theorem readResult_busy (hb : s.status.busy = true) :
    readResult v s = (Config.draw32 s.draws, s.setDraws (s.draws + 1)) := if_pos hb

/-- A performed read puts its value on the bus. -/
theorem step_read_of_memRead (hl : s.status.fsmLegal = true) (hr : s.rst = false)
    (hs : s.schedule = .host (.read off .bytes4) :: ms) (ha : off.toNat % 4 = 0)
    (h : memRead off (s.setSchedule ms) = (v, u)) : step s = .next (u.setBus (.data v)) := by
  rw [step_read hl hr hs ha, hostRead, h]

/-- Settles O14, register by register; a result register is read by `readResult`, whose two cases are BUSY = 0 and 1. -/
theorem hostReadReturnsTheRegister : Obligations.HostReadReturnsTheRegister := by
  intro s ms off hl hr hs gives result
  have plain (ha : off.toNat % 4 = 0) (w : Word32) (h : memRead off (s.setSchedule ms) = (w, s.setSchedule ms)) :
      gives w := step_read_of_memRead hl hr hs ha h
  have unspecified (ha : off.toNat % 4 = 0) (w : Word32)
      (h : memRead off (s.setSchedule ms) = readResult w (s.setSchedule ms)) : result w :=
    ⟨fun idle => plain ha w (h.trans (readResult_idle (s := s.setSchedule ms) idle)),
      fun busy => step_read_of_memRead hl hr hs ha (h.trans (readResult_busy (s := s.setSchedule ms) busy))⟩
  refine ⟨?_, ?_, ?_, ?_, ?_, ?_, ?_, fun c h => ?_, fun c h => ?_, fun r c h => ?_, fun ha h => ?_⟩
  · rintro rfl
    exact plain rfl _ memRead_id
  · rintro rfl
    exact plain rfl _ memRead_cmd
  · rintro rfl
    exact plain rfl _ memRead_status
  · rintro rfl
    exact plain rfl _ memRead_irqen
  · rintro rfl
    exact plain rfl _ memRead_gfA
  · rintro rfl
    exact plain rfl _ memRead_gfB
  · rintro rfl
    exact unspecified rfl _ memRead_gfResult
  · exact unspecified (by omega) _ (memRead_stateW h)
  · exact plain (by omega) _ (memRead_keyW h)
  · exact unspecified (by omega) _ (memRead_rkW h)
  · exact plain ha _ (memRead_reserved ha h)

/-! ## Writes -/

theorem writeOperand_idle {f : State → State} (idle : s.status.busy = false) : writeOperand f s = f s := by
  simp [writeOperand, idle]

/-- Settles O16, register by register; the operand registers' writes are performed because BUSY = 0. -/
theorem hostWriteUpdatesTheRegister : Obligations.HostWriteUpdatesTheRegister := by
  intro s ms off v hl hr hs
  have performed (idle : s.status.busy = false) {f : State → State} (ha : off.toNat % 4 = 0)
      (h : memWrite off v ((s.setSchedule ms).setBus .written) =
        .next (writeOperand f ((s.setSchedule ms).setBus .written))) :
      step s = .next (f ((s.setSchedule ms).setBus .written)) := by
    rw [step_write hl hr hs ha, h, writeOperand_idle (s := (s.setSchedule ms).setBus .written) idle]
  refine ⟨?_, ?_, fun idle => ⟨?_, ?_, fun c h => ?_, fun c h => ?_⟩⟩
  · rintro rfl
    exact (step_write hl hr hs rfl).trans memWrite_status
  · rintro rfl
    exact (step_write hl hr hs rfl).trans memWrite_irqen
  · rintro rfl
    exact performed idle rfl memWrite_gfA
  · rintro rfl
    exact performed idle rfl memWrite_gfB
  · exact performed idle (by omega) (memWrite_stateW h)
  · exact performed idle (by omega) (memWrite_keyW h)

/-! ## The STATUS word -/

theorem Status.word_bit (st : Status) : st.word.getLsbD 0 = st.busy ∧ st.word.getLsbD 2 = st.ksValid ∧
    st.word.getLsbD 15 = false := by
  simp only [Status.word, BitVec.getLsbD_append]
  simp

/-! A field of several bits: the fields below it are taken off the low end, one by one. -/

theorem Status.word_reserved7_6 (st : Status) : st.word.extractLsb' 6 2 = 0 := by
  iterate 6 refine (BitVec.extractLsb'_append_eq_of_le (by decide)).trans ?_
  exact BitVec.extractLsb'_append_eq_right

theorem Status.word_round (st : Status) : st.word.extractLsb' 8 4 = st.round := by
  iterate 7 refine (BitVec.extractLsb'_append_eq_of_le (by decide)).trans ?_
  exact BitVec.extractLsb'_append_eq_right

theorem Status.word_phase (st : Status) : st.word.extractLsb' 12 3 = st.phase.code := by
  iterate 8 refine (BitVec.extractLsb'_append_eq_of_le (by decide)).trans ?_
  exact BitVec.extractLsb'_append_eq_right

theorem Status.word_op (st : Status) : st.word.extractLsb' 16 8 = st.op := by
  iterate 10 refine (BitVec.extractLsb'_append_eq_of_le (by decide)).trans ?_
  exact BitVec.extractLsb'_append_eq_right

theorem Status.word_reserved31_24 (st : Status) : st.word.extractLsb' 24 8 = 0 := by
  iterate 10 refine (BitVec.extractLsb'_append_eq_of_le (by decide)).trans ?_
  exact BitVec.extractLsb'_append_eq_left

/-- Settles O15, field by field; the bits of the interrupt sources are those of `word_done` and `word_flag`. -/
theorem statusWordHasTheListedLayout : Obligations.StatusWordHasTheListedLayout := by
  intro st
  obtain ⟨busy, ksValid, reserved15⟩ := st.word_bit
  refine ⟨busy, st.word_done, ksValid, st.word_flag .illegal, st.word_flag .nokey, st.word_flag .busywr,
    st.word_reserved7_6, st.word_round, ?_, reserved15, st.word_op, st.word_reserved31_24⟩
  rw [st.word_phase]
  cases st.phase <;> rfl

end Machine

/-! ## Host addresses -/

open Machine

theorem windowOffset?_base_add {k : Nat} (hk : k < 0x1000) :
    windowOffset? (Config.base + k) = some (BitVec.ofNat 12 k) := by
  rw [windowOffset?, if_pos (by omega), Nat.add_sub_cancel_left]

theorem windowOffset?_isSome_iff {addr : Nat} :
    (windowOffset? addr).isSome = true ↔ Config.base ≤ addr ∧ addr ≤ Config.base + 0xFFF := by
  unfold windowOffset?
  split
  next inside => simp; omega
  next outside => simp; omega

/-- Settles O23: an address of the window is BASE plus an offset below 0x1000, lanes included since the offset of a
transaction is aligned; byte 4c + i of a block is lane i of column c's word. -/
theorem windowAddressesAreBasePlusOffset : Obligations.WindowAddressesAreBasePlusOffset := by
  have offset (off : BitVec 12) : BitVec.ofNat 12 off.toNat = off := by rw [BitVec.ofNat_toNat, BitVec.setWidth_eq]
  refine ⟨Nat.mul_mod_right _ _, fun off => ?_, fun _ => windowOffset?_isSome_iff, fun off i ha => ?_, fun m k i c h => ?_⟩
  · rw [windowOffset?_base_add off.isLt, offset]
  · rw [laneAddress, Nat.add_assoc, windowOffset?_base_add (by omega), BitVec.ofNat_add, offset]
  · have byte : k = ⟨4 * c.val + i.val, by omega⟩ := Fin.ext h.symm
    rw [byte, lane_pack, ByteMatrix.blockByte_four_mul_add]

end Sys2Proof
end

section
/-! PROOFS. The constant matrices written out: the affine transforms bit by bit (41_sbox.md R72, R74), and MixColumns and
InvMixColumns element by element (42_state_transforms.md R86, R87). -/

namespace Sys2Proof.Machine

/-! ## The affine transforms -/

/-! A bit of a bit matrix's output and a XOR of input bits are both additive, so they agree if they do at the powers of x. -/

theorem xor_interchange (a b c d e a' b' c' d' e' : Bool) :
    ((a ^^ b ^^ c ^^ d ^^ e) ^^ (a' ^^ b' ^^ c' ^^ d' ^^ e')) =
      ((a ^^ a') ^^ (b ^^ b') ^^ (c ^^ c') ^^ (d ^^ d') ^^ (e ^^ e')) := by
  simp only [Bool.xor_assoc, Bool.xor_left_comm]

/-- The rows of A: bits i, i + 4, i + 5, i + 6 and i + 7 modulo 8 (R72). -/
theorem getLsbD_affineRows (x : Byte) (i : Fin 8) : (applyRows affineRows x).getLsbD i.val =
    (x.getLsbD i.val ^^ x.getLsbD ((i.val + 4) % 8) ^^ x.getLsbD ((i.val + 5) % 8) ^^ x.getLsbD ((i.val + 6) % 8)
      ^^ x.getLsbD ((i.val + 7) % 8)) := by
  induction x using byte_xor_induction with
  | bit j =>
    revert i j
    decide +kernel
  | xor x y hx hy =>
    simp only [applyRows_xor, BitVec.getLsbD_xor, hx, hy]
    exact xor_interchange ..

/-- The rows of A': bits i + 2, i + 5 and i + 7 modulo 8 (R74). -/
theorem getLsbD_inverseAffineRows (x : Byte) (i : Fin 8) : (applyRows inverseAffineRows x).getLsbD i.val =
    (x.getLsbD ((i.val + 2) % 8) ^^ x.getLsbD ((i.val + 5) % 8) ^^ x.getLsbD ((i.val + 7) % 8)) := by
  induction x using byte_xor_induction with
  | bit j =>
    revert i j
    decide +kernel
  | xor x y hx hy =>
    rw [applyRows_xor, BitVec.getLsbD_xor, hx, hy]
    simp only [BitVec.getLsbD_xor, Bool.xor_assoc, Bool.xor_left_comm]

theorem getLsbD_affine (x : Byte) (i : Fin 8) : (affine x).getLsbD i.val =
    (x.getLsbD i.val ^^ x.getLsbD ((i.val + 4) % 8) ^^ x.getLsbD ((i.val + 5) % 8) ^^ x.getLsbD ((i.val + 6) % 8)
      ^^ x.getLsbD ((i.val + 7) % 8) ^^ (0x63 : Byte).getLsbD i.val) := by
  rw [affine, BitVec.getLsbD_xor, getLsbD_affineRows]

/-- Settles O32: the rows of both matrices, and that the transforms undo each other. -/
theorem affineTransformsAreInverse : Obligations.AffineTransformsAreInverse :=
  ⟨getLsbD_affine, fun x => getLsbD_inverseAffineRows (x ^^^ 0x63), fun x =>
    ⟨inverseAffine_leftInverse x, inverseAffine_rightInverse x⟩⟩

/-! ## The column maps -/

/-- Settles O35: element (r, k) of a listed matrix is element k - r of its row 0; the product of the two is the identity by
`mixProduct_invMixRow_mixRow`. -/
theorem mixColumnsIsTheListedMatrixProduct : Obligations.MixColumnsIsTheListedMatrixProduct := by
  unfold Obligations.MixColumnsIsTheListedMatrixProduct
  intro mf mi entry s r c
  have forward : ∀ r k : Fin 4, entry mf r k = mixRow.row (k - r) := by decide
  have inverse : ∀ r k : Fin 4, entry mi r k = invMixRow.row (k - r) := by decide
  simp only [forward, inverse]
  refine ⟨?_, ?_, fun k => ?_⟩
  · rw [get_mixColumns, row_mixColumn]
    rfl
  · rw [get_invMixColumns, row_mixColumn]
    rfl
  · exact mixProduct_invMixRow_mixRow r k

end Sys2Proof.Machine
end

section
/-! PROOFS. Commands left alone, and the end of every host program (44_cipher_fsm.md R121, 70_reset_and_hazards.md R152 to R154).
`engineStepsLeft` goes down by exactly one with each engine step, so the number of steps is known from STATUS at acceptance. -/

namespace Sys2Proof.Machine

variable {s t u : State} {st st' : Status} {i : Instr} {ms : List Move} {v : Word32}

/-! ## The measure -/

/-- Each engine step is one of those left (R109, R121). -/
theorem EngineMove.engineStepsLeft_succ (h : EngineMove st st') (c : st.Control) :
    engineStepsLeft st' + 1 = engineStepsLeft st := by
  have fits := c.opFits
  cases h with
  | single phase => simp [engineStepsLeft, phase]
  | expansionRound phase first more => simp [engineStepsLeft, phase, BitVec.toNat_add]; omega
  | expanded phase last op | expandedEncrypt phase last op | expandedDecrypt phase last op =>
    simp [engineStepsLeft, phase, last, op]
  | encRound phase more => simp [engineStepsLeft, phase, BitVec.toNat_add]; omega
  | encLast phase last => simp [engineStepsLeft, phase, last]
  | decRound phase first more => simp [engineStepsLeft, phase, BitVec.toNat_sub]; omega
  | decLast phase last => simp [engineStepsLeft, phase, last]

/-- Steps are left as long as BUSY = 1. -/
theorem Status.Control.busy_iff_left (c : st.Control) : st.busy = true ↔ 0 < engineStepsLeft st := by
  have legal := c.fsmLegal
  rw [c.busyIff]
  cases phase : st.phase <;> simp [engineStepsLeft, Status.fsmLegal, phase] at legal ⊢ <;> omega

/-- Completion sets DONE (R110). -/
theorem EngineMove.busy_or_done (h : EngineMove st st') (busy : st.busy = true) : st'.busy = true ∨ st'.done = true := by
  cases h <;> simp [busy]

/-! ## Runs without moves -/

/-- Only the engine is left to move, from a good FSM state. -/
structure State.Alone (s : State) : Prop where
  schedule : s.schedule = []
  released : s.rst = false
  control : s.status.Control

/-- While BUSY = 1 the step of a block left alone is that of the command in progress. -/
theorem State.Alone.busy_step (alone : s.Alone) (busy : s.status.busy = true) : ∃ i t, step s = .next t ∧ t.Alone ∧
    opcodeOf i = s.status.op ∧ exec i s = .next t := by
  obtain ⟨t, h⟩ := step_total alone.control.fsmLegal (fun _ => alone.control) fun _ _ _ => alone.released
  have turn := h
  rw [step_quiet alone.control.fsmLegal alone.schedule] at turn
  obtain ⟨-, -, i, named, run⟩ | ⟨idle | asserted, -⟩ := engineTurn_next turn
  · have kept := exec_keeps_environment run
    exact ⟨i, t, h, ⟨kept.schedule.trans alone.schedule, kept.rst.trans alone.released,
      step_keeps_control h alone.control⟩, opcodeOf_commandInProgress named, run⟩
  · simp [busy] at idle
  · simp [alone.released] at asserted

/-- A run of a block left alone, for as long as steps are left, and what the command's steps keep along it. -/
theorem State.Alone.run {P : State → Prop}
    (keep : ∀ i s t, P s → s.status.busy = true → opcodeOf i = s.status.op → exec i s = .next t → step s = .next t → P t)
    {k : Nat} (alone : s.Alone) (hs : P s) (hk : k ≤ engineStepsLeft s.status) :
    ∃ t, runSteps k s = .next t ∧ t.Alone ∧ P t ∧ engineStepsLeft t.status + k = engineStepsLeft s.status := by
  induction k generalizing s with
  | zero => exact ⟨s, rfl, alone, hs, rfl⟩
  | succ k ih =>
    have busy : s.status.busy = true := alone.control.busy_iff_left.mpr (by omega)
    obtain ⟨i, u, h, aloneU, named, run⟩ := alone.busy_step busy
    have left := (exec_engineMove busy run).engineStepsLeft_succ alone.control
    obtain ⟨t, runU, aloneT, ht, leftT⟩ := ih aloneU (keep i s u hs busy named run h) (by omega)
    exact ⟨t, (runSteps_succ h).trans runU, aloneT, ht, by omega⟩

/-! ## A command presented to an idle block -/

/-- The step that presents a command is the command's own transition, and it is always made. -/
theorem step_present (hl : s.status.fsmLegal = true) (hr : s.rst = false) (idle : s.status.busy = false)
    (hs : s.schedule = .host (.write 0x004 .bytes4 v) :: ms) (decoded : decodeWord v = .ok i) :
    ∃ t, step s = .next t ∧ exec i ((s.setSchedule ms).setBus .written) = .next t := by
  have h := cmdWriteRunsTheDecodedCommand s ms v i hl hr idle decoded hs
  obtain ⟨t, run⟩ := exec_idle_next (s := (s.setSchedule ms).setBus .written) i idle
  exact ⟨t, h.trans run, run⟩

/-- A legal command is accepted, ADDROUNDKEY with a valid schedule only (R108). -/
theorem Status.presented_accepts (wf : WellFormed i) (keyed : opcodeOf i = 0x16 → st.ksValid = true) :
    (st.presented i).busy = true ∧ engineStepsLeft (st.presented i) =
      if opcodeOf i = 0x20 then 10
      else if opcodeOf i = 0x30 ∨ opcodeOf i = 0x31 then (if st.ksValid then 11 else 21) else 1 := by
  cases i with
  | addRoundKey r =>
    have index : ¬ 10 < r.toNat := (wellFormed_addRoundKey.mp wf).not_gt
    simp only [Status.presented, if_neg index, keyed rfl, if_true]
    exact ⟨rfl, rfl⟩
  | encrypt | decrypt => cases ks : st.ksValid <;> simp [Status.presented, ks, opcodeOf, engineStepsLeft]
  | _ => exact ⟨rfl, rfl⟩

theorem Status.presented_control_of_accepts (idle : st.busy = false) (accepts : (st.presented i).busy = true) :
    (st.presented i).Control := by
  obtain ⟨e, raised⟩ | control := st.presented_control i
  · simp [raised, idle] at accepts
  · exact control

/-- After its acceptance the block is alone with the command. -/
theorem alone_of_present (hr : s.rst = false) (idle : s.status.busy = false) (accepts : (s.status.presented i).busy = true)
    (run : exec i ((s.setSchedule []).setBus .written) = .next t) : t.Alone where
  schedule := (exec_keeps_environment run).schedule
  released := (exec_keeps_environment run).rst.trans hr
  control := by
    rw [exec_status_idle (s := (s.setSchedule []).setBus .written) idle run]
    exact Status.presented_control_of_accepts idle accepts

/-! ## The end of a program -/

theorem State.Inv.alone (inv : s.Inv) (hs : s.schedule = []) (busy : s.status.busy = true) : s.Alone where
  schedule := hs
  released := by
    refine Bool.eq_false_iff.mpr fun asserted => ?_
    rw [← inv.underReset asserted] at busy
    simp [Status.reset] at busy
  control := inv.control

theorem endsAt_zero (ended : s.ended = true) : EndsAt 0 s s := ⟨rfl, ended, fun k hk => by omega⟩

/-- With no move left the program ends when the command in progress does. -/
theorem endsAt_of_nil (inv : s.Inv) (hs : s.schedule = []) : ∃ t, EndsAt (engineStepsLeft s.status) s t := by
  have done {u : State} (h : u.schedule = []) : u.hostDone = true := by simp [State.hostDone, h]
  by_cases busy : s.status.busy = true
  · have reach (k : Nat) (hk : k ≤ engineStepsLeft s.status) := (inv.alone hs busy).run (P := fun _ => True)
      (fun _ _ _ _ _ _ _ _ => trivial) trivial hk
    obtain ⟨t, run, alone, -, left⟩ := reach _ le_rfl
    refine ⟨t, run, ended_iff.mpr ⟨done alone.schedule, ?_⟩, fun k hk => ?_⟩
    · exact Bool.eq_false_iff.mpr fun h => by have := alone.control.busy_iff_left.mp h; omega
    · obtain ⟨u, run, alone, -, left⟩ := reach k hk.le
      have busy : u.status.busy = true := alone.control.busy_iff_left.mpr (by omega)
      exact ⟨u, run, by simp [State.ended, busy]⟩
  · have left : engineStepsLeft s.status = 0 := by
      have := mt inv.control.busy_iff_left.mpr busy
      omega
    rw [left]
    exact ⟨s, endsAt_zero (ended_iff.mpr ⟨done hs, Bool.not_eq_true _ ▸ busy⟩)⟩

/-- R153, R154: by induction on the moves, and at most 21 engine steps after the last one. -/
theorem endsAt_of_inv (inv : s.Inv) (host : noHostUnderReset s.rst s.schedule = true) :
    ∃ n t, n ≤ s.schedule.length + 21 ∧ EndsAt n s t := by
  induction hs : s.schedule generalizing s with
  | nil =>
    obtain ⟨t, ends⟩ := endsAt_of_nil inv hs
    exact ⟨_, t, by simpa using engineStepsLeft_le inv, ends⟩
  | cons m ms ih =>
    by_cases ended : s.ended = true
    · exact ⟨0, s, Nat.zero_le _, endsAt_zero ended⟩
    obtain ⟨u, h⟩ := step_total inv.fsmLegal (fun _ => inv.control) fun tr ms' hs' => by
      rw [hs'] at host
      simpa using (Bool.and_eq_true_iff.mp host).1
    have moves : u.schedule = ms := by
      obtain ⟨e, -⟩ | ⟨m', e⟩ := step_schedule h <;> rw [hs] at e <;> cases e
      rfl
    obtain ⟨n, t, bound, ends⟩ := ih (everyStepKeepsTheInvariant s u inv h) (step_noHostUnderReset h host) moves
    exact ⟨n + 1, t, by simp only [List.length_cons]; omega, ends.succ h (Bool.not_eq_true _ ▸ ended)⟩

/-- Settles O50: the steps left at acceptance, the end of a program, and while BUSY = 0 every read is exact. -/
theorem stepCountsAreFixed : Obligations.StepCountsAreFixed := by
  refine ⟨?_, fun s => endsAt_of_inv, fun n s t ends => ?_⟩
  · intro s v hl hr idle legalWord hs keyed op count k hk
    obtain ⟨i, decoded⟩ := legal_iff_decodes.mp legalWord
    obtain ⟨opcode, -, wf⟩ := fields_of_decodeWord decoded
    have hop : op = opcodeOf i := opcode
    obtain ⟨accepts, left⟩ := Status.presented_accepts (st := s.status) wf fun e => keyed (opcode.trans e)
    have hcount : engineStepsLeft (s.status.presented i) = count := by rw [left, ← hop]
    obtain ⟨u, h, run⟩ := step_present hl hr idle hs decoded
    have status : u.status = s.status.presented i :=
      exec_status_idle (s := (s.setSchedule []).setBus .written) idle run
    obtain ⟨t, runT, alone, busyOrDone, leftT⟩ := (alone_of_present hr idle accepts run).run
      (P := fun t => t.status.busy = true ∨ t.status.done = true)
      (fun _ _ _ _ busy _ run _ => (exec_engineMove busy run).busy_or_done busy)
      (.inl (status ▸ accepts)) (k := k) (by rw [status, hcount]; exact hk)
    rw [status, hcount] at leftT
    have busy : t.status.busy = true ↔ k < count := by rw [alone.control.busy_iff_left]; omega
    refine ⟨t, by rw [Nat.add_comm, runSteps_succ h, runT], busy, fun done => ?_, fun e => ?_⟩
    · by_contra ne
      have : k < count := by omega
      simp [alone.control.busyNotDone (busy.mpr this)] at done
    · exact busyOrDone.resolve_left fun h => by have := busy.mp h; omega
  · have idle : t.status.busy = false := (ended_iff.mp ends.2.1).2
    have result (w : Word32) : (readResult w t).1 = w := by rw [readResult_idle idle]
    refine ⟨fun off => ?_, rfl, rfl, rfl, rfl, rfl, result _, fun off c h => ?_, fun off c h => ?_, fun off r c h => ?_⟩
    · exact (memRead_state off t).resolve_right fun ⟨busy, _⟩ => by simp [idle] at busy
    · rw [State.observe, memRead_stateW h, result]
    · rw [State.observe, memRead_keyW h]
    · rw [State.observe, memRead_rkW h, result]

end Sys2Proof.Machine
end

section
/-! PROOFS. What a KEYEXPAND, ENCRYPT or DECRYPT computes (43_key_schedule.md R103, 44_cipher_fsm.md R118 to R120). From its
acceptance on, STATE is at each FSM state what `stateAt` makes of the STATE and KEY it was accepted with, and RK is in the
invariant; engine steps move along it, and no host transaction while BUSY = 1 leaves it. -/

namespace Sys2Proof.Machine

variable {s s₀ t u : State} {i : Instr} {op : Byte} {ms : List Move} {v : Word32}

/-! ## STATE along a run -/

/-- STATE of an ENCRYPT of `m` at (ENC, r) (R112 to R114); 11 stands for its end. -/
def encState (key m : ByteMatrix) : Nat → ByteMatrix
  | 0 => m
  | 1 => addRoundKey m (expandRound key 0)
  | r + 2 => encRound (r + 1) (expandRound key (r + 1)) (encState key m (r + 1))

/-- STATE of a DECRYPT of `c` after `n` DEC steps, that is at (DEC, 10 - n) (R115 to R117); 11 stands for its end. -/
def decState (key c : ByteMatrix) : Nat → ByteMatrix
  | 0 => c
  | 1 => addRoundKey c (expandRound key 10)
  | n + 2 => decRound (9 - n) (expandRound key (9 - n)) (decState key c (n + 1))

theorem encState_eleven (key m : ByteMatrix) : encState key m 11 = encryptBlock m key := rfl

theorem decState_eleven (key c : ByteMatrix) : decState key c 11 = decryptBlock c key := rfl

theorem encState_succ (key m : ByteMatrix) {r : Nat} (hr : 0 < r) :
    encState key m (r + 1) = encRound r (expandRound key r) (encState key m r) := by
  obtain ⟨r, rfl⟩ := Nat.exists_eq_succ_of_ne_zero hr.ne'
  rfl

/-- The DEC step at (DEC, r), 0 <= r <= 9. -/
theorem decState_of_round (key c : ByteMatrix) {r : Nat} (hr : r < 10) :
    decState key c (10 - r + 1) = decRound r (expandRound key r) (decState key c (10 - r)) := by
  obtain ⟨n, hn, rfl⟩ : ∃ n, n < 10 ∧ r = 9 - n := ⟨9 - r, by omega, by omega⟩
  have steps : 10 - (9 - n) = n + 1 := by omega
  rw [steps, decState]

/-- STATE at an FSM state of a command accepted with STATE = `m` and KEY = `key`; (IDLE, 0) is its completion. -/
def stateAt (key m : ByteMatrix) (st : Status) : ByteMatrix :=
  match st.phase with
  | .enc => encState key m st.round.toNat
  | .dec => decState key m (10 - st.round.toNat)
  | .idle => if st.op = 0x30 then encryptBlock m key else if st.op = 0x31 then decryptBlock m key else m
  | .exec => m
  | .keyExp => m
  | .unused5 => m
  | .unused6 => m
  | .unused7 => m

theorem stateAt_congr {key m : ByteMatrix} {st st' : Status} (phase : st'.phase = st.phase) (round : st'.round = st.round)
    (op : st'.op = st.op) : stateAt key m st' = stateAt key m st := by
  simp only [stateAt, phase, round, op]

theorem EngineMove.keeps_op {st st' : Status} (h : EngineMove st st') : st'.op = st.op := by
  cases h <;> rfl

/-- Key expansion, its end included, leaves STATE where it was at acceptance. -/
theorem EngineMove.stateAt_of_keyExp {key m : ByteMatrix} {st st' : Status} (h : EngineMove st st')
    (phase : st.phase = .keyExp) : stateAt key m st' = m := by
  cases h with
  | single phase' | encRound phase' | encLast phase' | decRound phase' | decLast phase' => simp [phase] at phase'
  | expansionRound => rfl
  | expanded _ _ op => simp [stateAt, op]
  | expandedEncrypt | expandedDecrypt => simp [stateAt, encState, decState]

/-- From key expansion a command comes to another phase with KS_VALID = 1, which no engine step clears. -/
theorem EngineMove.keyed {st st' : Status} (h : EngineMove st st') (keyed : st.phase ≠ .keyExp → st.ksValid = true)
    (phase : st'.phase ≠ .keyExp) : st'.ksValid = true := by
  cases h with
  | expansionRound => exact absurd rfl phase
  | expanded | expandedEncrypt | expandedDecrypt => rfl
  | single old | encRound old | encLast old | decRound old | decLast old => exact keyed (by simp [old])

/-- A round key that the schedule has put in place. -/
theorem roundKey?_of_scheduled {x : BitVec 4} {k : ByteMatrix} (placed : scheduleUpTo 11 s) (h : roundKey? s x = some k) :
    k = expandRound s.key x.toNat := by
  obtain ⟨hx, rfl⟩ := roundKey?_some h
  exact placed _ hx hx

theorem keyExpStep_state {m : ByteMatrix} (phase : s.status.phase = .keyExp) (h : keyExpStep s = .next t)
    (hs : s.state = stateAt s.key m s.status) : t.state = stateAt s.key m t.status := by
  have start : s.state = m := by simpa only [stateAt, phase] using hs
  rw [(writesRoundKey_keyExpStep h).state, start, (keyExpStep_engineMove phase h).stateAt_of_keyExp phase]

theorem encStep_state {m : ByteMatrix} (op : s.status.op = 0x30) (phase : s.status.phase = .enc)
    (placed : scheduleUpTo 11 s) (h : encStep s = .next t) (hs : s.state = stateAt s.key m s.status) :
    t.state = stateAt s.key m t.status := by
  have now : s.state = encState s.key m s.status.round.toNat := by simpa only [stateAt, phase] using hs
  obtain ⟨k, key, step⟩ := encStep_next h
  rw [roundKey?_of_scheduled placed key, now] at step
  obtain ⟨round, rfl⟩ | ⟨first, more, rfl⟩ | ⟨round, rfl⟩ := step
  · simp [stateAt, round, encState]
  · have next : (s.status.round + 1).toNat = s.status.round.toNat + 1 := by
      rw [BitVec.toNat_add]; simp; omega
    simp only [gotoFsm_state, State.setState_state, gotoFsm_status, State.setState_status, stateAt, Status.goto_phase,
      Status.goto_round, next, encState_succ _ _ first]
  · have last : s.status.round.toNat = 10 := by rw [round]; rfl
    have final : encryptBlock m s.key = encRound 10 (expandRound s.key 10) (encState s.key m 10) :=
      (encState_eleven ..).symm.trans (encState_succ s.key m (r := 10) (by decide))
    simp only [complete_state, State.setState_state, complete_status, State.setState_status, stateAt,
      Status.completed_phase, Status.completed_op, op, if_true, last, final]

theorem decStep_state {m : ByteMatrix} (op : s.status.op = 0x31) (phase : s.status.phase = .dec)
    (placed : scheduleUpTo 11 s) (h : decStep s = .next t) (hs : s.state = stateAt s.key m s.status) :
    t.state = stateAt s.key m t.status := by
  have now : s.state = decState s.key m (10 - s.status.round.toNat) := by simpa only [stateAt, phase] using hs
  obtain ⟨k, key, step⟩ := decStep_next h
  rw [roundKey?_of_scheduled placed key, now] at step
  obtain ⟨round, rfl⟩ | ⟨first, more, rfl⟩ | ⟨round, rfl⟩ := step
  · simp [stateAt, round, decState]
  · have next : 10 - (s.status.round - 1).toNat = 10 - s.status.round.toNat + 1 := by
      rw [BitVec.toNat_sub]; simp; omega
    simp only [gotoFsm_state, State.setState_state, gotoFsm_status, State.setState_status, stateAt, Status.goto_phase,
      Status.goto_round, next, decState_of_round _ _ more]
  · have last : s.status.round.toNat = 0 := by rw [round]; rfl
    have notEncrypt : s.status.op ≠ 0x30 := by simp [op]
    have final : decryptBlock m s.key = decRound 0 (expandRound s.key 0) (decState s.key m 10) :=
      (decState_eleven ..).symm.trans (decState_of_round s.key m (r := 0) (by decide))
    simp only [complete_state, State.setState_state, complete_status, State.setState_status, stateAt,
      Status.completed_phase, Status.completed_op, if_neg notEncrypt, if_pos op, last, final, Nat.sub_zero]

theorem exec_state {m : ByteMatrix} (listed : opcodeOf i = 0x20 ∨ opcodeOf i = 0x30 ∨ opcodeOf i = 0x31)
    (busy : s.status.busy = true) (named : opcodeOf i = s.status.op)
    (placed : s.status.phase = .enc ∨ s.status.phase = .dec → scheduleUpTo 11 s) (h : exec i s = .next t)
    (hs : s.state = stateAt s.key m s.status) : t.state = stateAt s.key m t.status := by
  cases commandKind i with
  | byte f code | state f code => obtain e | e | e := listed <;> simp [e] at code
  | addRoundKey r => simp [opcodeOf] at listed
  | keyExpand =>
    obtain ⟨-, phase, h⟩ | ⟨idle, -⟩ := execKeyExpand_next h
    · exact keyExpStep_state phase h hs
    · simp [busy] at idle
  | encrypt =>
    obtain ⟨-, phase, h⟩ | ⟨-, phase, h⟩ | ⟨idle, -⟩ | ⟨idle, -⟩ := execEncrypt_next h
    · exact keyExpStep_state phase h hs
    · exact encStep_state named.symm phase (placed (.inl phase)) h hs
    all_goals simp [busy] at idle
  | decrypt =>
    obtain ⟨-, phase, h⟩ | ⟨-, phase, h⟩ | ⟨idle, -⟩ | ⟨idle, -⟩ := execDecrypt_next h
    · exact keyExpStep_state phase h hs
    · exact decStep_state named.symm phase (placed (.inr phase)) h hs
    all_goals simp [busy] at idle

/-! ## The run -/

/-- `s` is on the run of the command `op`, a KEYEXPAND, ENCRYPT or DECRYPT, that was accepted with the registers of `s₀`. -/
structure KeyRun (op : Byte) (s₀ s : State) : Prop where
  inv : s.Inv
  listed : op = 0x20 ∨ op = 0x30 ∨ op = 0x31
  code : s.status.op = op
  gfA : s.gfA = s₀.gfA
  gfB : s.gfB = s₀.gfB
  gfResult : s.gfResult = s₀.gfResult
  key : s.key = s₀.key
  state : s.state = stateAt s₀.key s₀.state s.status
  keyed : s.status.phase ≠ .keyExp → s.status.ksValid = true
  ends : s.status.busy = true ∨ s.status.done = true

/-- The engine step of a command of the run, from a state that agrees with one on the run. -/
theorem KeyRun.of_exec (run : KeyRun op s₀ s) (busy : s.status.busy = true) (same : SameCore s u)
    (named : opcodeOf i = s.status.op) (h : exec i u = .next t) (inv : t.Inv) : KeyRun op s₀ t := by
  have busyU : u.status.busy = true := same.status ▸ busy
  have move : EngineMove s.status t.status := same.status ▸ exec_engineMove busyU h
  have kept := exec_keeps_environment h
  have notByte : opcodeOf i ∉ ([0x01, 0x02, 0x03, 0x04] : List Byte) := by
    rw [named, run.code]
    obtain rfl | rfl | rfl := run.listed <;> decide
  have stateU : u.state = stateAt u.key s₀.state u.status := by
    rw [same.state, same.key, same.status, run.key]
    exact run.state
  have placed (cipher : u.status.phase = .enc ∨ u.status.phase = .dec) : scheduleUpTo 11 u :=
    (run.inv.schedule (run.inv.cipherKeyed (same.status ▸ cipher))).congr same.key same.rk
  refine ⟨inv, run.listed, move.keeps_op.trans run.code, kept.gfA.trans (same.gfA.trans run.gfA),
    kept.gfB.trans (same.gfB.trans run.gfB), ?_, kept.key.trans (same.key.trans run.key), ?_, move.keyed run.keyed,
    move.busy_or_done busy⟩
  · obtain e | ⟨-, -, byte⟩ := exec_gfResult h
    · exact e.trans (same.gfResult.trans run.gfResult)
    · exact absurd byte notByte
  · rw [← run.key, ← same.key]
    exact exec_state (named ▸ run.code ▸ run.listed) busyU (named.trans (same.status ▸ rfl)) placed h stateU

/-- Nothing but a reset event leaves the run while BUSY = 1 (R120, R126). -/
theorem KeyRun.of_step (run : KeyRun op s₀ s) (busy : s.status.busy = true) (noReset : .rstAssert ∉ s.schedule)
    (h : step s = .next t) : KeyRun op s₀ t := by
  have inv : t.Inv := everyStepKeepsTheInvariant s t run.inv h
  cases step_case h with
  | reset u ms move => exact absurd (move ▸ List.mem_cons_self) noReset
  | command same i v ms move idle | gfA same v ms move idle | gfB same v ms move idle | stateWord same m idle
  | keyWord same c off v ms move idle => simp [busy] at idle
  | engine same i _ _ named h => exact run.of_exec busy same (opcodeOf_commandInProgress named) h inv
  | raised same | acknowledge same | unchanged same =>
    refine ⟨inv, run.listed, ?_, same.gfA.trans run.gfA, same.gfB.trans run.gfB, same.gfResult.trans run.gfResult,
      same.key.trans run.key, ?_, ?_, ?_⟩
    · simp [same.status, run.code]
    · refine (same.state.trans run.state).trans (stateAt_congr ?_ ?_ ?_).symm <;> simp [same.status]
    · simpa [same.status] using run.keyed
    · simp [same.status, busy]

/-! ## Acceptance -/

theorem scheduleUpTo_of_rk_eq_expand (h : s.rk = expand s.key) : scheduleUpTo 11 s := fun r hr _ => by
  simp only [h, getElem_expand]

theorem rk_eq_expand_of_scheduleUpTo (h : scheduleUpTo 11 s) : s.rk = expand s.key :=
  Vector.ext fun r hr => (h r hr hr).trans (getElem_expand s.key r hr).symm

/-- Acceptance to ENC or DEC, with a valid schedule (R108). -/
theorem keyRun_accept {p : Phase} {r : BitVec 4} (listed : op = 0x20 ∨ op = 0x30 ∨ op = 0x31) (hr : s.rst = false)
    (control : (s.status.accepted op p r).Control) (ks : s.status.ksValid = true) (rk : s.rk = expand s.key)
    (start : stateAt s.key s.state (s.status.accepted op p r) = s.state) : KeyRun op s (accept op p r s) where
  inv := inv_iff.mpr ⟨control, ⟨fun _ => (scheduleUpTo_of_rk_eq_expand rk).congr rfl rfl,
    fun phase => by simpa [ks] using control.expanding phase⟩, fun asserted => by simp [hr] at asserted⟩
  listed := listed
  code := rfl
  gfA := rfl
  gfB := rfl
  gfResult := rfl
  key := rfl
  state := start.symm
  keyed _ := ks
  ends := .inl rfl

/-- Acceptance to KEYEXP, which writes RK[0] (R103, R108). -/
theorem keyRun_startExpansion {st : Status} (listed : op = 0x20 ∨ op = 0x30 ∨ op = 0x31) (hr : s.rst = false)
    (control : (st.accepted op .keyExp 1).Control) : KeyRun op s (startExpansion op (s.setStatus st)) where
  inv := by
    have ks : st.ksValid = false := control.expanding rfl
    have first : scheduleUpTo 1 ((s.setStatus st).setRk 0 s.key) := scheduleUpTo_setRk (fun _ _ h => by omega) rfl
    exact inv_iff.mpr ⟨control, ⟨fun set => by simp [startExpansion, ks] at set, fun _ => ⟨ks, first.congr rfl rfl⟩⟩,
      fun asserted => by simp [startExpansion, hr] at asserted⟩
  listed := listed
  code := rfl
  gfA := rfl
  gfB := rfl
  gfResult := rfl
  key := rfl
  state := rfl
  keyed h := absurd rfl h
  ends := .inl rfl

/-- The acceptance of the command begins its run: for ENCRYPT and DECRYPT if a valid schedule is KEY's (R33), for KEYEXPAND
from any state. -/
theorem keyRun_of_exec_idle (listed : opcodeOf i = 0x20 ∨ opcodeOf i = 0x30 ∨ opcodeOf i = 0x31) (hr : s.rst = false)
    (idle : s.status.busy = false) (scheduled : i ≠ .keyExpand → s.status.ksValid = true → s.rk = expand s.key)
    (h : exec i s = .next t) : KeyRun (opcodeOf i) s t := by
  have notIndexed : opcodeOf i ≠ 0x16 := by obtain e | e | e := listed <;> simp [e]
  have control : t.status.Control := by
    rw [exec_status_idle idle h]
    exact Status.presented_control_of_accepts idle
      (Status.presented_accepts (wellFormed_of_opcodeOf_ne notIndexed) fun e => absurd e notIndexed).1
  cases commandKind i with
  | byte f code | state f code => obtain e | e | e := listed <;> simp [e] at code
  | addRoundKey r => exact absurd rfl notIndexed
  | keyExpand =>
    rw [exec_keyExpand_idle idle] at h
    cases h
    exact keyRun_startExpansion listed hr control
  | encrypt =>
    obtain ⟨busy, -⟩ | ⟨busy, -⟩ | ⟨-, ks, rfl⟩ | ⟨-, -, rfl⟩ := execEncrypt_next h
    · simp [idle] at busy
    · simp [idle] at busy
    · exact keyRun_accept listed hr control ks (scheduled (by simp) ks) rfl
    · exact keyRun_startExpansion (st := s.status) listed hr control
  | decrypt =>
    obtain ⟨busy, -⟩ | ⟨busy, -⟩ | ⟨-, ks, rfl⟩ | ⟨-, -, rfl⟩ := execDecrypt_next h
    · simp [idle] at busy
    · simp [idle] at busy
    · exact keyRun_accept listed hr control ks (scheduled (by simp) ks) rfl
    · exact keyRun_startExpansion (st := s.status) listed hr control

theorem decodeWord_keyExpand : decodeWord 0x00000020 = .ok .keyExpand := decodeOfEncodeIsTheCommand .keyExpand rfl
theorem decodeWord_encrypt : decodeWord 0x00000030 = .ok .encrypt := decodeOfEncodeIsTheCommand .encrypt rfl
theorem decodeWord_decrypt : decodeWord 0x00000031 = .ok .decrypt := decodeOfEncodeIsTheCommand .decrypt rfl

/-! ## Completion -/

/-- What the command `op` makes of STATE `m` under KEY `key`. -/
def keyRunResult (op : Byte) (key m : ByteMatrix) : ByteMatrix :=
  if op = 0x30 then encryptBlock m key else if op = 0x31 then decryptBlock m key else m

theorem KeyRun.result (run : KeyRun op s₀ t) (idle : t.status.busy = false) :
    t.state = keyRunResult op s₀.key s₀.state ∧ t.rk = expand s₀.key ∧ t.status.ksValid = true ∧ t.status.done = true := by
  have phase : t.status.phase = .idle := run.inv.control.phase_of_idle idle
  have ks : t.status.ksValid = true := run.keyed (by simp [phase])
  refine ⟨?_, ?_, ks, run.ends.resolve_left (by simp [idle])⟩
  · rw [run.state, stateAt, phase, run.code]
    rfl
  · rw [rk_eq_expand_of_scheduleUpTo (run.inv.schedule ks), run.key]

/-! ## Under every interleaving -/

theorem runSteps_succ_next {n : Nat} (h : runSteps (n + 1) s = .next t) : ∃ u, step s = .next u ∧
    runSteps n u = .next t := by
  cases hu : step s with
  | next u => exact ⟨u, rfl, runSteps_succ hu ▸ h⟩
  | fault r => simp [runSteps, Host.Core.run, Sys2Proof.core, hu] at h
  | refused r => simp [runSteps, Host.Core.run, Sys2Proof.core, hu] at h

/-- As long as BUSY = 1, whatever moves but a reset event come, the run goes on. -/
theorem KeyRun.of_runSteps {k : Nat} (run : KeyRun op s₀ s) (noReset : .rstAssert ∉ s.schedule)
    (busy : ∀ j < k, ∃ u, runSteps j s = .next u ∧ u.status.busy = true) (h : runSteps k s = .next t) :
    KeyRun op s₀ t := by
  induction k generalizing s with
  | zero =>
    cases h
    exact run
  | succ k ih =>
    obtain ⟨u, step, h⟩ := runSteps_succ_next h
    have now : s.status.busy = true := by
      obtain ⟨_, e, busy⟩ := busy 0 (Nat.succ_pos k)
      cases e
      exact busy
    refine ih (run.of_step now noReset step) ?_ (fun j hj => ?_) h
    · obtain ⟨-, e⟩ | ⟨m, e⟩ := step_schedule step
      · simp [e]
      · rw [e] at noReset
        exact fun later => noReset (List.mem_cons_of_mem m later)
    · obtain ⟨w, e, busy⟩ := busy (j + 1) (by omega)
      exact ⟨w, runSteps_succ step ▸ e, busy⟩

/-- Settles O49: acceptance begins the run of the command, and no move but a reset event leaves it before its completion. -/
theorem cipherResultHoldsUnderEveryInterleaving : Obligations.CipherResultHoldsUnderEveryInterleaving := by
  intro s t ms k v hl hr idle scheduled word hs noReset busy h idleT
  obtain ⟨i, decoded, code⟩ : ∃ i, decodeWord v = .ok i ∧ (i = .encrypt ∨ i = .decrypt) := by
    obtain rfl | rfl := word
    · exact ⟨.encrypt, decodeWord_encrypt, .inl rfl⟩
    · exact ⟨.decrypt, decodeWord_decrypt, .inr rfl⟩
  have hop : v.extractLsb' 0 8 = opcodeOf i := (fields_of_decodeWord decoded).1
  obtain ⟨u, step, accepted⟩ := step_present hl hr idle hs decoded
  have start : KeyRun (opcodeOf i) ((s.setSchedule ms).setBus .written) u :=
    keyRun_of_exec_idle (by obtain rfl | rfl := code <;> simp [opcodeOf]) hr idle (fun _ => scheduled) accepted
  have run := start.of_runSteps (k := k) (t := t)
    (by rw [(exec_keeps_environment accepted).schedule]; exact noReset)
    (fun j hj => by simpa only [Nat.add_comm 1 j, runSteps_succ step] using busy j hj)
    (by simpa only [Nat.add_comm 1 k, runSteps_succ step] using h)
  obtain ⟨state, rk, ks, done⟩ := run.result idleT
  refine ⟨?_, rk, run.key, run.gfA, run.gfB, run.gfResult, ks, done, run.code.trans hop.symm⟩
  rw [state]
  obtain rfl | rfl := code
  · have encrypts : v = 0x00000030 := word_of_decoded decoded rfl
    rw [if_pos encrypts]
    rfl
  · have decrypts : v = 0x00000031 := word_of_decoded decoded rfl
    rw [if_neg (by simp [decrypts])]
    rfl

/-! ## Left alone -/

/-- A run on which only the engine moves: it also keeps the environment and the error flags. -/
structure QuietKeyRun (op : Byte) (s₀ s : State) : Prop where
  run : KeyRun op s₀ s
  environment : SameEnvironment s₀ s
  flag : ∀ f, s.status.flag f = s₀.status.flag f

theorem SameEnvironment.trans (h : SameEnvironment s t) (h' : SameEnvironment t u) : SameEnvironment s u :=
  ⟨h'.gfA.trans h.gfA, h'.gfB.trans h.gfB, h'.key.trans h.key, h'.irqen.trans h.irqen, h'.rst.trans h.rst,
    h'.schedule.trans h.schedule, h'.bus.trans h.bus, h'.draws.trans h.draws⟩

/-- What the environment does not hold of a state: the results and STATUS. -/
theorem SameEnvironment.eq (h : SameEnvironment s t) :
    t = { s with gfResult := t.gfResult, state := t.state, rk := t.rk, status := t.status } := by
  cases t
  obtain ⟨rfl, rfl, rfl, rfl, rfl, rfl, rfl, rfl⟩ := h
  rfl

theorem Status.eq_of_flags {st st' : Status} (flag : ∀ f, st'.flag f = st.flag f) : st' = { st with
    busy := st'.busy, done := st'.done, ksValid := st'.ksValid, op := st'.op, phase := st'.phase, round := st'.round } := by
  have illegal : st'.errIllegal = st.errIllegal := flag .illegal
  have nokey : st'.errNokey = st.errNokey := flag .nokey
  have busywr : st'.errBusywr = st.errBusywr := flag .busywr
  rw [← illegal, ← nokey, ← busywr]

/-- A command of the run sets no flag: only an ADDROUNDKEY is refused by its command. -/
theorem exec_keeps_flag (listed : opcodeOf i = 0x20 ∨ opcodeOf i = 0x30 ∨ opcodeOf i = 0x31) (h : exec i s = .next t)
    (f : ErrorFlag) : t.status.flag f = s.status.flag f :=
  (exec_flag h f).resolve_right fun ⟨_, _, r, ark, _⟩ => by simp [ark, opcodeOf] at listed

/-- The state after a KEYEXPAND, ENCRYPT or DECRYPT that is presented to an idle block and left alone. -/
def completedFrom (op : Byte) (s : State) : State := { s with
  schedule := [], bus := .written, state := keyRunResult op s.key s.state, rk := expand s.key
  status := { s.status with
    busy := false, done := true, ksValid := true, op := op, phase := .idle, round := 0 } }

theorem QuietKeyRun.eq_completedFrom (quiet : QuietKeyRun op ((s.setSchedule []).setBus .written) t)
    (idle : t.status.busy = false) : t = completedFrom op s := by
  obtain ⟨state, rk, ks, done⟩ := quiet.run.result idle
  have control := quiet.run.inv.control
  rw [quiet.environment.eq, Status.eq_of_flags quiet.flag, quiet.run.gfResult, state, rk, ks, done, idle, quiet.run.code,
    control.phase_of_idle idle, control.round_of_idle idle]
  rfl

theorem runSteps_presented (hl : s.status.fsmLegal = true) (hr : s.rst = false) (idle : s.status.busy = false)
    (scheduled : i ≠ .keyExpand → s.status.ksValid = true → s.rk = expand s.key)
    (hs : s.schedule = [.host (.write 0x004 .bytes4 v)]) (decoded : decodeWord v = .ok i)
    (listed : opcodeOf i = 0x20 ∨ opcodeOf i = 0x30 ∨ opcodeOf i = 0x31) {n : Nat}
    (count : engineStepsLeft (s.status.presented i) = n) :
    runSteps (1 + n) s = .next (completedFrom (opcodeOf i) s) := by
  obtain ⟨u, step, accepted⟩ := step_present hl hr idle hs decoded
  have start := keyRun_of_exec_idle (s := (s.setSchedule []).setBus .written) listed hr idle scheduled accepted
  have status : u.status = s.status.presented i :=
    exec_status_idle (s := (s.setSchedule []).setBus .written) idle accepted
  have alone : u.Alone := ⟨(exec_keeps_environment accepted).schedule, (exec_keeps_environment accepted).rst.trans hr,
    start.inv.control⟩
  obtain ⟨t, run, aloneT, quiet, left⟩ := alone.run (P := QuietKeyRun (opcodeOf i) ((s.setSchedule []).setBus .written))
    (fun j s t quiet busy named h step => ⟨quiet.run.of_exec busy ⟨rfl, rfl, rfl, rfl, rfl, rfl, rfl⟩ named h
        (everyStepKeepsTheInvariant s t quiet.run.inv step), quiet.environment.trans (exec_keeps_environment h),
      fun f => (exec_keeps_flag (by rw [named, quiet.run.code]; exact listed) h f).trans (quiet.flag f)⟩)
    ⟨start, exec_keeps_environment accepted, exec_keeps_flag listed accepted⟩ (k := n) (by rw [status, count])
  rw [status, count] at left
  have idleT : t.status.busy = false :=
    Bool.eq_false_iff.mpr fun busy => by have := aloneT.control.busy_iff_left.mp busy; omega
  rw [Nat.add_comm, runSteps_succ step, run, quiet.eq_completedFrom idleT]

/-- Settles O47: ten engine steps are left at the acceptance of a KEYEXPAND, and its run ends with the schedule in RK. -/
theorem keyExpandRunBuildsTheSchedule : Obligations.KeyExpandRunBuildsTheSchedule := fun _ hl hr idle hs =>
  runSteps_presented hl hr idle (fun other => absurd rfl other) hs decodeWord_keyExpand (.inl rfl) rfl

/-- Settles O48: 11 engine steps are left at acceptance with a valid schedule, 21 without, and the run ends with the cipher
function in STATE. -/
theorem cipherRunsComputeTheCipherFunctions : Obligations.CipherRunsComputeTheCipherFunctions := by
  intro s hl hr idle scheduled steps final
  have count {i : Instr} (code : i = .encrypt ∨ i = .decrypt) : engineStepsLeft (s.status.presented i) = steps := by
    obtain rfl | rfl := code <;> exact (Status.presented_accepts rfl (by simp [opcodeOf])).2
  refine ⟨fun hs => ?_, fun hs => ?_⟩
  · exact runSteps_presented hl hr idle (fun _ => scheduled) hs decodeWord_encrypt (.inr (.inl rfl)) (count (.inl rfl))
  · exact runSteps_presented hl hr idle (fun _ => scheduled) hs decodeWord_decrypt (.inr (.inr rfl)) (count (.inr rfl))

end Sys2Proof.Machine
end
